-- ==== Sys2Proof/Word.lean ====
section
/-! DEFINITION. The bit-vector types of the machine and the two small tables of widths: the operating widths of the
ALU (`47_ext64.md` R262) and the access sizes of memory (`20_memory.md` R63). -/

namespace Sys2Proof

/-- The addressable unit (R60). -/
abbrev Byte := BitVec 8

/-- The container of one general register. With the 64-bit extension all 64 bits are architectural (R261); without it
bits 63 to 32 do not exist and are kept at zero (R24; log entry 37). -/
abbrev Word := BitVec 64

/-- The container of one physical address, as wide as the widest address bus the spec allows (R62: 36 bits). An
address of an `AW`-bit machine has its bits from `AW` up at zero. -/
abbrev Addr := BitVec 36

/-- The width an ALU operation computes at (R262): 32 bits, or 64 in 64-bit mode. -/
inductive Width where
  | w32
  | w64
  deriving DecidableEq, Repr

/-- The number of bits `W` of an operating width (R8). -/
def Width.bits : Width → Nat
  | .w32 => 32
  | .w64 => 64

/-- The access sizes of R63, by the source's names (R11): a word is 16 bits, a double-word 32, a quad-word 64. -/
inductive Size where
  | byte
  | word
  | dword
  | qword
  deriving DecidableEq, Repr

/-- The number of bytes `n` of an access (R63). -/
def Size.bytes : Size → Nat
  | .byte => 1
  | .word => 2
  | .dword => 4
  | .qword => 8

end Sys2Proof
end

