-- ==== Sys2Proof/Config.lean ====
section
/-! DEFINITION. What an implementation fixes: the parameters of `00_scope.md` R5 and of `47_ext64.md` R272 as the
fields of one plain structure, the two profiles the model names, and the free values of the machine (opaque
constants: nothing can be proved of the value of any of them). -/

namespace Sys2Proof

/-- Parameter `ENDIAN` (R64, D2). -/
inductive ByteOrder where
  | little
  | big
  deriving DecidableEq, Repr

/-- Parameters `IMM_EXT_ALU` and `IMM_EXT_MEM` (R113, D8). -/
inductive ImmExt where
  | zero
  | sign
  deriving DecidableEq, Repr

/-- Parameter `LOAD_EXT` (R153, D9): what a narrow load does to the bits of C it does not name. -/
inductive LoadExt where
  | zero
  | sign
  | merge
  deriving DecidableEq, Repr

/-- Parameters `Q0_UPPER` and `MVU_UPPER` (R271, R272): what a 32-bit result leaves in bits 63 to 32 of a 64-bit
destination. `any` leaves a free value there (`Config.freeUpper`). -/
inductive UpperFill where
  | zero
  | sign
  | keep
  | any
  deriving DecidableEq, Repr

/-- Parameter `MVUH_OTHER_BITS` (R265, R272): whether MVU.HH and MVU.HL keep the bits they do not name. -/
inductive OtherBits where
  | keep
  | zero
  deriving DecidableEq, Repr

/-- The two treatments the spec names for `UNUSED_BITS` (D13), `PRIV_VIOLATION` (D7) and `VM_USER_ACCESS` (D23). -/
inductive Treatment where
  | refuse
  | ignore
  deriving DecidableEq, Repr

/-- Parameter `SHIFT_OVER` (R211, D12): a count of `W` or more is a reserved encoding, or gives a free value that is
a function of the operation, the operand and the count (`Config.shiftOverValue`). -/
inductive ShiftOver where
  | refuse
  | value
  deriving DecidableEq, Repr

/-- Parameter `DIV_ROUND` (R282, D25). -/
inductive DivRound where
  | trunc
  | floor
  deriving DecidableEq, Repr

/-- Parameter `PC_READ_OFFSET` (R25, D4): a read of PC gives the address of the executing instruction, or of the
next one. -/
inductive PcReadOffset where
  | zero
  | four
  deriving DecidableEq, Repr

/-- Parameter `MISALIGNED` (R5, D3): an access at an address that is not a multiple of its size is refused, or is made
at the address a function gives (`State.accessBase`): the low bits are ignored, or the access goes on from the address
as it stands across the boundary (the two effects R32 speaks of), or a free function of the address
(`Config.misalignedBase`). -/
inductive Misaligned where
  | refuse
  | alignDown
  | straddle
  | any
  deriving DecidableEq, Repr

/-- Parameter `RESERVED_ENC` (R5, R121, D14). It has the one value the spec names: a reserved encoding "is never a no-op
and never a trap" (R121). -/
inductive ReservedEnc where
  | refuse
  deriving DecidableEq, Repr

/-- Parameter `IMM_EXT_64` (R272): whether an immediate is extended to 64 bits by the same rule as to 32, or is extended
to 32 bits and then with zeros, or with a free value above bit 31 (`Config.freeUpper`). -/
inductive ImmUpper where
  | same
  | zero
  | any
  deriving DecidableEq, Repr

/-- The status register (R35): K kernel mode, I hardware interrupts enabled, P protected memory mode, Q 64-bit mode.
It has no other bit. -/
structure Status where
  k : Bool
  i : Bool
  p : Bool
  q : Bool
  deriving DecidableEq, Repr

/-- A range of addresses that memory answers (R78, D35). -/
structure Region where
  base : Nat
  size : Nat
  deriving DecidableEq, Repr

/-- Everything an implementation or a launch fixes once (R5, R272, R78). It is the field `cfg` of `State`, which no
step changes, so that a statement about every state is a statement about every implementation (log entry 1). -/
structure Config where
  /-- MUL/DIV extension present (R280). -/
  extM : Bool
  /-- 64-bit extension present (R260). -/
  extQ : Bool
  /-- Protected-mode extension present (R80): with P = 1 every access is then refused (R84). -/
  extP : Bool
  /-- The address width above 32: `AW` is 32 to 36 (R62, R270). -/
  awExtra : Fin 5
  endian : ByteOrder
  pcReadOffset : PcReadOffset
  immExtAlu : ImmExt
  immExtMem : ImmExt
  loadExt : LoadExt
  misaligned : Misaligned
  reservedEnc : ReservedEnc
  unusedBits : Treatment
  privViolation : Treatment
  vmUserAccess : Treatment
  /-- `INT_WHEN_K`: a hardware interrupt is taken with K = 1 too (R311). -/
  intWhenK : Bool
  /-- `FN2_HI`: field FN2 of format 8 is bits `fn2Hi` to `fn2Lo`, below FN1 and at least two bits wide (R109, D15). -/
  fn2Hi : Fin 22
  /-- `FN2_LO` (R109, D15). -/
  fn2Lo : Fin fn2Hi
  shiftOver : ShiftOver
  divRound : DivRound
  /-- `C_IS_BORROW` (R171, D11). -/
  cIsBorrow : Bool
  rstVec : Addr
  sIntVec : Addr
  hIntVec : Addr
  /-- `RESET_SR` and `RESET_Q` (R40, R272). -/
  resetSr : Status
  mvuUpper : UpperFill
  q0Upper : UpperFill
  mvuhOther : OtherBits
  /-- `Q_SCOPE` (R262, R272): Q widens the shifts and rotations. -/
  qShifts : Bool
  /-- `Q_SCOPE` (R262, R272): Q widens the comparison of a conditional jump. -/
  qCompare : Bool
  /-- `LDST_Q_GATED` (R272): STQ, LDQ, MVU.HH and MVU.HL need Q = 1. -/
  ldstQGated : Bool
  immExt64 : ImmUpper
  /-- `IRD_WIDTH` (R272): what trap entry writes in bits 63 to `AW` of IRD. -/
  irdUpper : UpperFill
  /-- `VEC_BITS` (R76, R272): how many bits of an 8-byte vector become `pc`, which has no more than `AW`. -/
  vecBits : Nat
  /-- The addresses that memory answers (R78). -/
  backed : List Region
  deriving DecidableEq, Repr

/-- The address width `AW` (R5, R270). -/
def Config.aw (c : Config) : Nat := 32 + c.awExtra.val

/-- The number of low bits of a vector's value that become `pc` (R76, `VEC_BITS`). -/
def Config.vectorBits (c : Config) : Nat := min c.vecBits c.aw

/-- The largest operating width of a shift: counts from here up are reserved in every mode (R211, R262). -/
def Config.shiftBound (c : Config) : Nat := if c.extQ && c.qShifts then 64 else 32

/-- The operation a division corner case arose in (R283). -/
inductive DivOp where
  | div
  | mod
  | divi
  | modi
  deriving DecidableEq, Repr

/-- The six shifts and rotations (R210). -/
inductive ShiftOp where
  | shr
  | asr
  | shl
  | asl
  | ror
  | rol
  deriving DecidableEq, Repr

/-- FREE VALUE (R283, D25; log entry 30): the result of a division by zero and of the most negative value divided by
-1, a function of the operation and the operands alone. -/
opaque Config.divCorner (op : DivOp) (w : Nat) (a b : BitVec w) : BitVec w

/-- FREE VALUE (R211, D12; log entry 19): the result of a shift by `W` or more where `SHIFT_OVER` is `value`. -/
opaque Config.shiftOverValue (op : ShiftOp) (w : Nat) (a : BitVec w) (n : Nat) : BitVec w

/-- FREE VALUE (R5, D3; log entry 11): the address at which an access of a size to a misaligned address is made, where
`MISALIGNED` is `any`. -/
opaque Config.misalignedBase (sz : Size) (a : Addr) : Addr

/-- FREE VALUE (R271, R272; log entry 31): bits 63 to 32 of a 64-bit value of which only the low bits are stated, where
`Q0_UPPER`, `MVU_UPPER`, `IMM_EXT_64` or `IRD_WIDTH` is `any`. The argument is the counter `State.freeIdx`; the effect
of no instruction holds two draws (log entry 38). -/
opaque Config.freeUpper (draw : Nat) : BitVec 32

/-- The reference profile of R5: the base machine with the MUL/DIV extension, without the 64-bit and protected-mode
extensions. The parameters of R272 have no effect in it. All of the address space is backed by memory. -/
def Config.reference : Config where
  extM := true
  extQ := false
  extP := false
  awExtra := 0
  endian := .little
  pcReadOffset := .zero
  immExtAlu := .zero
  immExtMem := .zero
  loadExt := .zero
  misaligned := .refuse
  reservedEnc := .refuse
  unusedBits := .refuse
  privViolation := .ignore
  vmUserAccess := .refuse
  intWhenK := false
  fn2Hi := 21
  fn2Lo := ⟨17, by decide⟩
  shiftOver := .refuse
  divRound := .trunc
  cIsBorrow := true
  rstVec := 0xFFFFFFE8
  sIntVec := 0xFFFFFFF0
  hIntVec := 0xFFFFFFF8
  resetSr := ⟨true, false, false, false⟩
  mvuUpper := .zero
  q0Upper := .zero
  mvuhOther := .keep
  qShifts := true
  qCompare := true
  ldstQGated := false
  immExt64 := .same
  irdUpper := .zero
  vecBits := 32
  backed := [⟨0, 2 ^ 32⟩]

/-- The profile of `State.reset`: the reference profile with the 64-bit extension present, so that every row of the
opcode table is an instruction of it, with the values R272 suggests except `AW`, which stays 32, and with the treatment
of a large shift count that goes on (R211). DESIGN CHOICE (log entry 2). -/
def Config.launch : Config := { Config.reference with extQ := true, shiftOver := .value }

/-- The 64-bit profile with every value R5 and R272 suggest: `AW` = 36 and the vectors at the top of that space
(R75). -/
def Config.srm64 : Config :=
  { Config.reference with
    extQ := true
    awExtra := 4
    vecBits := 36
    rstVec := 0xFFFFFFFE8
    sIntVec := 0xFFFFFFFF0
    hIntVec := 0xFFFFFFFF8
    backed := [⟨0, 2 ^ 36⟩] }

end Sys2Proof
end

