-- ==== Sys2Proof/Machine/Bytes.lean ====
section
/-! DEFINITION. Byte order (`20_memory.md` R64): the bytes of a value from its lowest address up, and the value of
such a list of bytes. The one place where the byte order is decided. -/

namespace Sys2Proof.Machine

/-- The low `n` bytes of a value, bits 7 to 0 first. -/
def bytesLE : Nat → Word → List Byte
  | 0, _ => []
  | n + 1, v => v.setWidth 8 :: bytesLE n (v >>> 8)

/-- The value of a list of bytes whose first byte holds bits 7 to 0. -/
def wordLE : List Byte → Word
  | [] => 0
  | b :: bs => b.setWidth 64 ||| (wordLE bs <<< 8)

/-- The `n` bytes of a value in the order they stand in memory, lowest address first (R64). -/
def toBytes (o : ByteOrder) (n : Nat) (v : Word) : List Byte :=
  match o with
  | .little => bytesLE n v
  | .big => (bytesLE n v).reverse

/-- The value of the bytes that stand in memory from one address up (R64). -/
def ofBytes (o : ByteOrder) (bs : List Byte) : Word :=
  match o with
  | .little => wordLE bs
  | .big => wordLE bs.reverse

end Sys2Proof.Machine
end

