-- ==== Sys2Proof/Syntax.lean ====
section
/-! DEFINITION. The registers an instruction can name (`10_state.md` R21), the status bits SSB and CSB can name
(R35), and the instructions: one constructor for each of the 46 rows of the opcode table, with the operands its format
carries (`30_encoding.md` R102 to R113). -/

namespace Sys2Proof

/-- The 32 register addresses by name (R21). `g i` is the general register G(i+1): `g 0` is G1, `g 23` is G24. -/
inductive Reg where
  | zr
  | g (i : Fin 24)
  | pr
  | sp
  | jdr
  | srd
  | ird
  | sr
  | pc
  deriving DecidableEq, Repr

/-- The four status bits (R35), in the order of their numbers 0 to 3. -/
inductive StatusBit where
  | k
  | i
  | p
  | q
  deriving DecidableEq, Repr

/-- The instructions. The register operands are in the order of their fields, C first (R10, R112). In a store C is
the register whose value is stored, in a jump C is the base of the target. -/
inductive Instr where
  | add (c a b : Reg)
  | sub (c a b : Reg)
  | and (c a b : Reg)
  | or (c a b : Reg)
  | xor (c a b : Reg)
  | mul (c a b : Reg)
  | div (c a b : Reg)
  | mod (c a b : Reg)
  | addi (c a : Reg) (imm : BitVec 14)
  | subi (c a : Reg) (imm : BitVec 14)
  | andi (c a : Reg) (imm : BitVec 14)
  | ori (c a : Reg) (imm : BitVec 14)
  | xori (c a : Reg) (imm : BitVec 14)
  | muli (c a : Reg) (imm : BitVec 14)
  | divi (c a : Reg) (imm : BitVec 14)
  | modi (c a : Reg) (imm : BitVec 14)
  | shr (c a : Reg) (count : BitVec 14)
  | asr (c a : Reg) (count : BitVec 14)
  | shl (c a : Reg) (count : BitVec 14)
  | asl (c a : Reg) (count : BitVec 14)
  | ror (c a : Reg) (count : BitVec 14)
  | rol (c a : Reg) (count : BitVec 14)
  | mvu (c : Reg) (imm : BitVec 22)
  | stb (c a : Reg) (imm : BitVec 15)
  | stw (c a : Reg) (imm : BitVec 15)
  | std (c a : Reg) (imm : BitVec 15)
  | stq (c a : Reg) (imm : BitVec 15)
  | ldb (c a : Reg) (imm : BitVec 15)
  | ldw (c a : Reg) (imm : BitVec 15)
  | ldd (c a : Reg) (imm : BitVec 15)
  | ldq (c a : Reg) (imm : BitVec 15)
  | jmp (c : Reg) (imm : BitVec 15)
  | jz (c a b : Reg) (imm : BitVec 9)
  | jc (c a b : Reg) (imm : BitVec 9)
  | js (c a b : Reg) (imm : BitVec 9)
  | jv (c a b : Reg) (imm : BitVec 9)
  | jnz (c a b : Reg) (imm : BitVec 9)
  | jnc (c a b : Reg) (imm : BitVec 9)
  | jns (c a b : Reg) (imm : BitVec 9)
  | jnv (c a b : Reg) (imm : BitVec 9)
  | csb (bit : StatusBit)
  | ssb (bit : StatusBit)
  | urt
  | syscal
  | mvuHh (c : Reg) (imm : BitVec 22)
  | mvuHl (c : Reg) (imm : BitVec 22)
  deriving DecidableEq, Repr

/-- The part of the architecture an instruction belongs to (R2; the column "present when" of R111). -/
inductive Extension where
  | base
  | mulDiv
  | bits64
  deriving DecidableEq, Repr

end Sys2Proof
end

