-- ==== Sys2Proof/WellFormed.lean ====
section
/-! DEFINITION. Which instructions an implementation has (`30_encoding.md` R111, R120) and which configurations are
machines of the spec. Register numbers, immediates and status bits need no check: their types hold exactly the values
an encoding can hold. -/

namespace Sys2Proof

/-- The extension an instruction needs (R111: "present when"). -/
def Instr.extension : Instr → Extension
  | .mul .. => .mulDiv
  | .div .. => .mulDiv
  | .mod .. => .mulDiv
  | .muli .. => .mulDiv
  | .divi .. => .mulDiv
  | .modi .. => .mulDiv
  | .stq .. => .bits64
  | .ldq .. => .bits64
  | .mvuHh .. => .bits64
  | .mvuHl .. => .bits64
  | .add .. | .sub .. | .and .. | .or .. | .xor .. | .addi .. | .subi .. | .andi .. | .ori .. | .xori ..
  | .shr .. | .asr .. | .shl .. | .asl .. | .ror .. | .rol .. | .mvu .. | .stb .. | .stw .. | .std ..
  | .ldb .. | .ldw .. | .ldd .. | .jmp .. | .jz .. | .jc .. | .js .. | .jv .. | .jnz .. | .jnc .. | .jns ..
  | .jnv .. | .csb .. | .ssb .. | .urt | .syscal => .base

/-- Whether an implementation has an extension (R2). -/
def Config.has (c : Config) : Extension → Bool
  | .base => true
  | .mulDiv => c.extM
  | .bits64 => c.extQ

/-- The shift count of a shift or rotation, none for the other instructions (R210). -/
def Instr.shiftCount : Instr → Option (BitVec 14)
  | .shr _ _ n => some n
  | .asr _ _ n => some n
  | .shl _ _ n => some n
  | .asl _ _ n => some n
  | .ror _ _ n => some n
  | .rol _ _ n => some n
  | .add .. | .sub .. | .and .. | .or .. | .xor .. | .mul .. | .div .. | .mod .. | .addi .. | .subi ..
  | .andi .. | .ori .. | .xori .. | .muli .. | .divi .. | .modi .. | .mvu .. | .stb .. | .stw .. | .std ..
  | .stq .. | .ldb .. | .ldw .. | .ldd .. | .ldq .. | .jmp .. | .jz .. | .jc .. | .js .. | .jv .. | .jnz ..
  | .jnc .. | .jns .. | .jnv .. | .csb .. | .ssb .. | .urt | .syscal | .mvuHh .. | .mvuHl .. => none

/-- Whether a shift count is an encoding of the implementation (R120, R211): below the widest operating width, or any
count where `SHIFT_OVER` gives the larger counts a value. -/
def Config.admitsCount (c : Config) (n : BitVec 14) : Bool :=
  c.shiftOver == .value || n.toNat < c.shiftBound

/-- An instruction is well formed for an implementation when the implementation has its extension and its shift count,
if it has one, is not reserved in every mode. -/
def WellFormed (c : Config) (i : Instr) : Bool :=
  c.has i.extension && (i.shiftCount.all c.admitsCount)

/-- A configuration is a machine of the spec when without the 64-bit extension its addresses have 32 bits (R5, R62),
and its three vectors are 8-byte slots (R75, R76) inside the address space and above `$vm`. -/
def Config.wf (c : Config) : Bool :=
  (c.extQ || c.awExtra == 0) &&
    [c.rstVec, c.sIntVec, c.hIntVec].all fun v =>
      v.toNat % 8 == 0 && decide (v.toNat < 2 ^ c.aw) && decide (0xFFFFF < v.toNat)

end Sys2Proof
end

