-- ==== Sys2Proof/Decode.lean ====
section
/-! DEFINITION. The decoder of `30_encoding.md` R124, total on every word and rejecting by name, and after it the
encoder written from the formats R102 to R109. -/

namespace Sys2Proof

/-- Why a word is no instruction of an implementation (the rows of R120). -/
inductive Reserved where
  /-- The opcode is allocated by no section (opcodes 13 to 31). -/
  | opcode
  /-- The function field FN1 has an unassigned value (opcodes 2 and 8). -/
  | functionField
  /-- FN2 of opcode 8 names no status bit. -/
  | statusBit
  /-- A shift count of `W` or more (R211). -/
  | shiftCount
  /-- A bit the format leaves unused is not zero (R114). -/
  | unusedBits
  /-- The instruction belongs to an extension the implementation does not have (R120). -/
  | absent (e : Extension)
  /-- STQ, LDQ, MVU.HH or MVU.HL with Q = 0 where `LDST_Q_GATED` holds (R272). The decoder never answers it. -/
  | needsQ
  /-- Fewer than four bytes (R100). -/
  | short
  deriving DecidableEq, Repr

/-! ## Fields -/

/-- The register a 5-bit register address names (R21). -/
def Reg.ofBits (b : BitVec 5) : Reg :=
  match b.toNat with
  | 0 => .zr
  | 25 => .pr
  | 26 => .sp
  | 27 => .jdr
  | 28 => .srd
  | 29 => .ird
  | 30 => .sr
  | 31 => .pc
  | n => .g (Fin.ofNat 24 (n - 1))

/-- The 5-bit address of a register (R21). -/
def Reg.toBits : Reg → BitVec 5
  | .zr => 0
  | .g i => BitVec.ofNat 5 (i.val + 1)
  | .pr => 25
  | .sp => 26
  | .jdr => 27
  | .srd => 28
  | .ird => 29
  | .sr => 30
  | .pc => 31

/-- The status bit a number names (R111, opcode 8). -/
def StatusBit.ofNat? : Nat → Option StatusBit
  | 0 => some .k
  | 1 => some .i
  | 2 => some .p
  | 3 => some .q
  | _ => none

/-- The number of a status bit (R35). -/
def StatusBit.toBits : StatusBit → BitVec 5
  | .k => 0
  | .i => 1
  | .p => 2
  | .q => 3

/-- OPCODE [31:27] of every format (R100). -/
def opcodeOf (w : BitVec 32) : BitVec 5 := w.extractLsb' 27 5

/-- C [26:22] of formats 1 to 6 (R102 to R107). -/
def fieldC (w : BitVec 32) : Reg := .ofBits (w.extractLsb' 22 5)

/-- A [21:17] of formats 2 to 6 (R103 to R107). -/
def fieldA (w : BitVec 32) : Reg := .ofBits (w.extractLsb' 17 5)

/-- B [16:12] of formats 3 and 4 (R104, R105). -/
def fieldB (w : BitVec 32) : Reg := .ofBits (w.extractLsb' 12 5)

/-- Whether non-zero unused bits make the word reserved (R114, parameter `UNUSED_BITS`). -/
def Config.rejectsUnused (c : Config) (unused : Nat) : Bool := c.unusedBits == .refuse && unused != 0

/-- The instruction where the implementation has its extension, a reserved encoding elsewhere (R120). -/
def Config.ifPresent (c : Config) (e : Extension) (i : Instr) : Except Reserved Instr :=
  if c.has e then .ok i else .error (.absent e)

/-! ## The decoder, one definition per opcode with a function field (R124) -/

/-- Opcode 0, format 4. -/
def decodeAluReg (c : Config) (w : BitVec 32) : Except Reserved Instr :=
  if c.rejectsUnused (w.extractLsb' 0 9).toNat then .error .unusedBits else
  match (w.extractLsb' 9 3).toNat with
  | 0 => .ok (.add (fieldC w) (fieldA w) (fieldB w))
  | 1 => .ok (.sub (fieldC w) (fieldA w) (fieldB w))
  | 2 => .ok (.and (fieldC w) (fieldA w) (fieldB w))
  | 3 => .ok (.or (fieldC w) (fieldA w) (fieldB w))
  | 4 => .ok (.xor (fieldC w) (fieldA w) (fieldB w))
  | 5 => c.ifPresent .mulDiv (.mul (fieldC w) (fieldA w) (fieldB w))
  | 6 => c.ifPresent .mulDiv (.div (fieldC w) (fieldA w) (fieldB w))
  | _ => c.ifPresent .mulDiv (.mod (fieldC w) (fieldA w) (fieldB w))

/-- Opcode 1, format 5. -/
def decodeAluImm (c : Config) (w : BitVec 32) : Except Reserved Instr :=
  match (w.extractLsb' 14 3).toNat with
  | 0 => .ok (.addi (fieldC w) (fieldA w) (w.extractLsb' 0 14))
  | 1 => .ok (.subi (fieldC w) (fieldA w) (w.extractLsb' 0 14))
  | 2 => .ok (.andi (fieldC w) (fieldA w) (w.extractLsb' 0 14))
  | 3 => .ok (.ori (fieldC w) (fieldA w) (w.extractLsb' 0 14))
  | 4 => .ok (.xori (fieldC w) (fieldA w) (w.extractLsb' 0 14))
  | 5 => c.ifPresent .mulDiv (.muli (fieldC w) (fieldA w) (w.extractLsb' 0 14))
  | 6 => c.ifPresent .mulDiv (.divi (fieldC w) (fieldA w) (w.extractLsb' 0 14))
  | _ => c.ifPresent .mulDiv (.modi (fieldC w) (fieldA w) (w.extractLsb' 0 14))

/-- Opcode 2, format 5; a count that is reserved in every mode is rejected here (R211, R120), one that is reserved in
the current mode only by the meaning (R100: no mode bit changes the decoding; log entry 19). -/
def decodeShift (c : Config) (w : BitVec 32) : Except Reserved Instr :=
  if (w.extractLsb' 14 3).toNat ≥ 6 then .error .functionField else
  if !c.admitsCount (w.extractLsb' 0 14) then .error .shiftCount else
  match (w.extractLsb' 14 3).toNat with
  | 0 => .ok (.shr (fieldC w) (fieldA w) (w.extractLsb' 0 14))
  | 1 => .ok (.asr (fieldC w) (fieldA w) (w.extractLsb' 0 14))
  | 2 => .ok (.shl (fieldC w) (fieldA w) (w.extractLsb' 0 14))
  | 3 => .ok (.asl (fieldC w) (fieldA w) (w.extractLsb' 0 14))
  | 4 => .ok (.ror (fieldC w) (fieldA w) (w.extractLsb' 0 14))
  | _ => .ok (.rol (fieldC w) (fieldA w) (w.extractLsb' 0 14))

/-- Opcode 4, format 2. -/
def decodeStore (c : Config) (w : BitVec 32) : Except Reserved Instr :=
  match (w.extractLsb' 15 2).toNat with
  | 0 => .ok (.stb (fieldC w) (fieldA w) (w.extractLsb' 0 15))
  | 1 => .ok (.stw (fieldC w) (fieldA w) (w.extractLsb' 0 15))
  | 2 => .ok (.std (fieldC w) (fieldA w) (w.extractLsb' 0 15))
  | _ => c.ifPresent .bits64 (.stq (fieldC w) (fieldA w) (w.extractLsb' 0 15))

/-- Opcode 5, format 2. -/
def decodeLoad (c : Config) (w : BitVec 32) : Except Reserved Instr :=
  match (w.extractLsb' 15 2).toNat with
  | 0 => .ok (.ldb (fieldC w) (fieldA w) (w.extractLsb' 0 15))
  | 1 => .ok (.ldw (fieldC w) (fieldA w) (w.extractLsb' 0 15))
  | 2 => .ok (.ldd (fieldC w) (fieldA w) (w.extractLsb' 0 15))
  | _ => c.ifPresent .bits64 (.ldq (fieldC w) (fieldA w) (w.extractLsb' 0 15))

/-- Opcode 6, format 2 with the A and FN1 fields unused (R103, R174). -/
def decodeJmp (c : Config) (w : BitVec 32) : Except Reserved Instr :=
  if c.rejectsUnused (w.extractLsb' 15 7).toNat then .error .unusedBits else
  .ok (.jmp (fieldC w) (w.extractLsb' 0 15))

/-- Opcode 7, format 3. -/
def decodeCondJump (w : BitVec 32) : Except Reserved Instr :=
  match (w.extractLsb' 9 3).toNat with
  | 0 => .ok (.jz (fieldC w) (fieldA w) (fieldB w) (w.extractLsb' 0 9))
  | 1 => .ok (.jc (fieldC w) (fieldA w) (fieldB w) (w.extractLsb' 0 9))
  | 2 => .ok (.js (fieldC w) (fieldA w) (fieldB w) (w.extractLsb' 0 9))
  | 3 => .ok (.jv (fieldC w) (fieldA w) (fieldB w) (w.extractLsb' 0 9))
  | 4 => .ok (.jnz (fieldC w) (fieldA w) (fieldB w) (w.extractLsb' 0 9))
  | 5 => .ok (.jnc (fieldC w) (fieldA w) (fieldB w) (w.extractLsb' 0 9))
  | 6 => .ok (.jns (fieldC w) (fieldA w) (fieldB w) (w.extractLsb' 0 9))
  | _ => .ok (.jnv (fieldC w) (fieldA w) (fieldB w) (w.extractLsb' 0 9))

/-- FN2 of format 8: bits `FN2_HI` down to `FN2_LO` (R109, D15). -/
def Config.fieldFn2 (c : Config) (w : BitVec 32) : Nat :=
  (w.extractLsb' 0 22).toNat % 2 ^ (c.fn2Hi.val + 1) / 2 ^ c.fn2Lo.val

/-- The unused bits of format 8: those between FN1 and `FN2_HI`, and those below `FN2_LO` (R109, R114), as a number that
is zero when all are zero. -/
def Config.unusedAroundFn2 (c : Config) (w : BitVec 32) : Nat :=
  (w.extractLsb' 0 22).toNat / 2 ^ (c.fn2Hi.val + 1) + (w.extractLsb' 0 22).toNat % 2 ^ c.fn2Lo.val

/-- Opcode 8, format 8: FN1 = 1 is SSB, FN1 = 0 is CSB (R111). -/
def decodeStatus (c : Config) (w : BitVec 32) : Except Reserved Instr :=
  if (w.extractLsb' 22 5).toNat ≥ 2 then .error .functionField else
  match StatusBit.ofNat? (c.fieldFn2 w) with
  | none => .error .statusBit
  | some b =>
    if c.rejectsUnused (c.unusedAroundFn2 w) then .error .unusedBits else
    if (w.extractLsb' 22 5).toNat = 1 then .ok (.ssb b) else .ok (.csb b)

/-- An instruction of format 7, which has no operand (R108). -/
def decodeFormat7 (c : Config) (w : BitVec 32) (i : Instr) : Except Reserved Instr :=
  if c.rejectsUnused (w.extractLsb' 0 27).toNat then .error .unusedBits else .ok i

/-- The decoder (R124): every word is exactly one instruction of the implementation, or reserved. -/
def decodeWord (c : Config) (w : BitVec 32) : Except Reserved Instr :=
  match (opcodeOf w).toNat with
  | 0 => decodeAluReg c w
  | 1 => decodeAluImm c w
  | 2 => decodeShift c w
  | 3 => .ok (.mvu (fieldC w) (w.extractLsb' 0 22))
  | 4 => decodeStore c w
  | 5 => decodeLoad c w
  | 6 => decodeJmp c w
  | 7 => decodeCondJump w
  | 8 => decodeStatus c w
  | 9 => decodeFormat7 c w .urt
  | 10 => decodeFormat7 c w .syscal
  | 11 => c.ifPresent .bits64 (.mvuHh (fieldC w) (w.extractLsb' 0 22))
  | 12 => c.ifPresent .bits64 (.mvuHl (fieldC w) (w.extractLsb' 0 22))
  | _ => .error .opcode

/-- The decoder on the bytes as memory holds them, lowest address first (R68, R100); bytes after the fourth are left. -/
def decodeBytes (c : Config) (bs : List Byte) : Except Reserved (Instr × List Byte) :=
  if bs.length < 4 then .error .short else
  match decodeWord c ((Machine.ofBytes c.endian (bs.take 4)).setWidth 32) with
  | .ok i => .ok (i, bs.drop 4)
  | .error r => .error r

/-- The instruction the decoder of the launch profile reads from the instruction whose bits are `w`: its bits above
`nbits` are zero, and its word is laid out in the machine's byte order. -/
def decodeTableWord (nbits w : Nat) : Option Instr :=
  match decodeBytes Config.launch (Machine.toBytes Config.launch.endian 4 (BitVec.ofNat 64 (w % 2 ^ nbits))) with
  | .ok (i, _) => some i
  | .error _ => none

/-! ## The encoder -/

/-- A field of a word: its value with its lowest bit at bit `lo` (R102 to R109). -/
def field {n : Nat} (lo : Nat) (v : BitVec n) : BitVec 32 := v.setWidth 32 <<< lo

/-- Format 1 (R102). -/
def encFormat1 (op : BitVec 5) (rc : Reg) (imm : BitVec 22) : BitVec 32 :=
  field 27 op ||| field 22 rc.toBits ||| field 0 imm

/-- Format 2 (R103). -/
def encFormat2 (op : BitVec 5) (rc ra : Reg) (fn1 : BitVec 2) (imm : BitVec 15) : BitVec 32 :=
  field 27 op ||| field 22 rc.toBits ||| field 17 ra.toBits ||| field 15 fn1 ||| field 0 imm

/-- Format 3 (R104). -/
def encFormat3 (op : BitVec 5) (rc ra rb : Reg) (fn1 : BitVec 3) (imm : BitVec 9) : BitVec 32 :=
  field 27 op ||| field 22 rc.toBits ||| field 17 ra.toBits ||| field 12 rb.toBits ||| field 9 fn1 ||| field 0 imm

/-- Format 4 (R105): format 3 with bits 8 to 0 unused and zero. -/
def encFormat4 (op : BitVec 5) (rc ra rb : Reg) (fn1 : BitVec 3) : BitVec 32 :=
  field 27 op ||| field 22 rc.toBits ||| field 17 ra.toBits ||| field 12 rb.toBits ||| field 9 fn1

/-- Format 5 (R106). -/
def encFormat5 (op : BitVec 5) (rc ra : Reg) (fn1 : BitVec 3) (imm : BitVec 14) : BitVec 32 :=
  field 27 op ||| field 22 rc.toBits ||| field 17 ra.toBits ||| field 14 fn1 ||| field 0 imm

/-- Format 7 (R108). -/
def encFormat7 (op : BitVec 5) : BitVec 32 :=
  field 27 op

/-- Format 8 (R109), with FN2 at bits `FN2_HI` down to `FN2_LO`. -/
def encFormat8 (c : Config) (op fn1 : BitVec 5) (b : StatusBit) : BitVec 32 :=
  field 27 op ||| field 22 fn1 ||| field c.fn2Lo.val b.toBits

/-- The word of an instruction (R102 to R111). -/
def encode (c : Config) : Instr → BitVec 32
  | .add rc ra rb => encFormat4 0 rc ra rb 0
  | .sub rc ra rb => encFormat4 0 rc ra rb 1
  | .and rc ra rb => encFormat4 0 rc ra rb 2
  | .or rc ra rb => encFormat4 0 rc ra rb 3
  | .xor rc ra rb => encFormat4 0 rc ra rb 4
  | .mul rc ra rb => encFormat4 0 rc ra rb 5
  | .div rc ra rb => encFormat4 0 rc ra rb 6
  | .mod rc ra rb => encFormat4 0 rc ra rb 7
  | .addi rc ra imm => encFormat5 1 rc ra 0 imm
  | .subi rc ra imm => encFormat5 1 rc ra 1 imm
  | .andi rc ra imm => encFormat5 1 rc ra 2 imm
  | .ori rc ra imm => encFormat5 1 rc ra 3 imm
  | .xori rc ra imm => encFormat5 1 rc ra 4 imm
  | .muli rc ra imm => encFormat5 1 rc ra 5 imm
  | .divi rc ra imm => encFormat5 1 rc ra 6 imm
  | .modi rc ra imm => encFormat5 1 rc ra 7 imm
  | .shr rc ra n => encFormat5 2 rc ra 0 n
  | .asr rc ra n => encFormat5 2 rc ra 1 n
  | .shl rc ra n => encFormat5 2 rc ra 2 n
  | .asl rc ra n => encFormat5 2 rc ra 3 n
  | .ror rc ra n => encFormat5 2 rc ra 4 n
  | .rol rc ra n => encFormat5 2 rc ra 5 n
  | .mvu rc imm => encFormat1 3 rc imm
  | .stb rc ra imm => encFormat2 4 rc ra 0 imm
  | .stw rc ra imm => encFormat2 4 rc ra 1 imm
  | .std rc ra imm => encFormat2 4 rc ra 2 imm
  | .stq rc ra imm => encFormat2 4 rc ra 3 imm
  | .ldb rc ra imm => encFormat2 5 rc ra 0 imm
  | .ldw rc ra imm => encFormat2 5 rc ra 1 imm
  | .ldd rc ra imm => encFormat2 5 rc ra 2 imm
  | .ldq rc ra imm => encFormat2 5 rc ra 3 imm
  | .jmp rc imm => encFormat2 6 rc .zr 0 imm
  | .jz rc ra rb imm => encFormat3 7 rc ra rb 0 imm
  | .jc rc ra rb imm => encFormat3 7 rc ra rb 1 imm
  | .js rc ra rb imm => encFormat3 7 rc ra rb 2 imm
  | .jv rc ra rb imm => encFormat3 7 rc ra rb 3 imm
  | .jnz rc ra rb imm => encFormat3 7 rc ra rb 4 imm
  | .jnc rc ra rb imm => encFormat3 7 rc ra rb 5 imm
  | .jns rc ra rb imm => encFormat3 7 rc ra rb 6 imm
  | .jnv rc ra rb imm => encFormat3 7 rc ra rb 7 imm
  | .csb b => encFormat8 c 8 0 b
  | .ssb b => encFormat8 c 8 1 b
  | .urt => encFormat7 9
  | .syscal => encFormat7 10
  | .mvuHh rc imm => encFormat1 11 rc imm
  | .mvuHl rc imm => encFormat1 12 rc imm

/-- The bytes of an instruction as memory holds them, lowest address first (R68). -/
def encodeBytes (c : Config) (i : Instr) : List Byte := Machine.toBytes c.endian 4 ((encode c i).setWidth 64)

/-! ## The opcode table -/

/-- The three columns of a row of `opcode_table.json` that describe its words. -/
structure TableRow where
  pattern : BitVec 32
  mask : BitVec 32
  sbz : BitVec 32
  deriving DecidableEq, Repr

/-- The row of an instruction in `opcode_table.json`, column by column as the table has it. -/
def Instr.tableRow : Instr → TableRow
  | .add .. => ⟨0x00000000, 0xF8000E00, 0x000001FF⟩
  | .sub .. => ⟨0x00000200, 0xF8000E00, 0x000001FF⟩
  | .and .. => ⟨0x00000400, 0xF8000E00, 0x000001FF⟩
  | .or .. => ⟨0x00000600, 0xF8000E00, 0x000001FF⟩
  | .xor .. => ⟨0x00000800, 0xF8000E00, 0x000001FF⟩
  | .mul .. => ⟨0x00000A00, 0xF8000E00, 0x000001FF⟩
  | .div .. => ⟨0x00000C00, 0xF8000E00, 0x000001FF⟩
  | .mod .. => ⟨0x00000E00, 0xF8000E00, 0x000001FF⟩
  | .addi .. => ⟨0x08000000, 0xF801C000, 0x00000000⟩
  | .subi .. => ⟨0x08004000, 0xF801C000, 0x00000000⟩
  | .andi .. => ⟨0x08008000, 0xF801C000, 0x00000000⟩
  | .ori .. => ⟨0x0800C000, 0xF801C000, 0x00000000⟩
  | .xori .. => ⟨0x08010000, 0xF801C000, 0x00000000⟩
  | .muli .. => ⟨0x08014000, 0xF801C000, 0x00000000⟩
  | .divi .. => ⟨0x08018000, 0xF801C000, 0x00000000⟩
  | .modi .. => ⟨0x0801C000, 0xF801C000, 0x00000000⟩
  | .shr .. => ⟨0x10000000, 0xF801C000, 0x00000000⟩
  | .asr .. => ⟨0x10004000, 0xF801C000, 0x00000000⟩
  | .shl .. => ⟨0x10008000, 0xF801C000, 0x00000000⟩
  | .asl .. => ⟨0x1000C000, 0xF801C000, 0x00000000⟩
  | .ror .. => ⟨0x10010000, 0xF801C000, 0x00000000⟩
  | .rol .. => ⟨0x10014000, 0xF801C000, 0x00000000⟩
  | .mvu .. => ⟨0x18000000, 0xF8000000, 0x00000000⟩
  | .stb .. => ⟨0x20000000, 0xF8018000, 0x00000000⟩
  | .stw .. => ⟨0x20008000, 0xF8018000, 0x00000000⟩
  | .std .. => ⟨0x20010000, 0xF8018000, 0x00000000⟩
  | .stq .. => ⟨0x20018000, 0xF8018000, 0x00000000⟩
  | .ldb .. => ⟨0x28000000, 0xF8018000, 0x00000000⟩
  | .ldw .. => ⟨0x28008000, 0xF8018000, 0x00000000⟩
  | .ldd .. => ⟨0x28010000, 0xF8018000, 0x00000000⟩
  | .ldq .. => ⟨0x28018000, 0xF8018000, 0x00000000⟩
  | .jmp .. => ⟨0x30000000, 0xF8000000, 0x003F8000⟩
  | .jz .. => ⟨0x38000000, 0xF8000E00, 0x00000000⟩
  | .jc .. => ⟨0x38000200, 0xF8000E00, 0x00000000⟩
  | .js .. => ⟨0x38000400, 0xF8000E00, 0x00000000⟩
  | .jv .. => ⟨0x38000600, 0xF8000E00, 0x00000000⟩
  | .jnz .. => ⟨0x38000800, 0xF8000E00, 0x00000000⟩
  | .jnc .. => ⟨0x38000A00, 0xF8000E00, 0x00000000⟩
  | .jns .. => ⟨0x38000C00, 0xF8000E00, 0x00000000⟩
  | .jnv .. => ⟨0x38000E00, 0xF8000E00, 0x00000000⟩
  | .csb .. => ⟨0x40000000, 0xFFC00000, 0x0001FFFF⟩
  | .ssb .. => ⟨0x40400000, 0xFFC00000, 0x0001FFFF⟩
  | .urt => ⟨0x48000000, 0xF8000000, 0x07FFFFFF⟩
  | .syscal => ⟨0x50000000, 0xF8000000, 0x07FFFFFF⟩
  | .mvuHh .. => ⟨0x58000000, 0xF8000000, 0x00000000⟩
  | .mvuHl .. => ⟨0x60000000, 0xF8000000, 0x00000000⟩

end Sys2Proof
end

