-- ==== Sys2Proof/Machine/Memory.lean ====
section
/-! DEFINITION. The byte memory (`20_memory.md` R60, R61): one list of address and byte pairs in one canonical form,
its read and write of one byte and of consecutive bytes. -/

namespace Sys2Proof.Machine

/-- The memory of the whole address space: the bytes that differ from what an unlisted address reads as. -/
abbrev Memory := List Host.Cell

/-- What a byte no entry lists reads as. DESIGN CHOICE (log entry 5): the spec leaves the contents of memory at reset to
the platform (R78). -/
def Memory.unlisted : Byte := 0

/-- The byte at an address. -/
def Memory.read : Memory → Nat → Byte
  | [], _ => Memory.unlisted
  | (k, b) :: m, a => if a = k then b else Memory.read m a

/-- Puts an entry before the first entry of a higher address. -/
def Memory.insert : Memory → Nat → Byte → Memory
  | [], a, b => [(a, b)]
  | (k, v) :: m, a, b => if a < k then (a, b) :: (k, v) :: m else (k, v) :: Memory.insert m a b

/-- Writes one byte: the address loses its old entry, and gets a new one unless the byte is what an unlisted address
reads as. -/
def Memory.write (m : Memory) (a : Nat) (b : Byte) : Memory :=
  if b = Memory.unlisted then m.filter (fun e => e.1 != a)
  else Memory.insert (m.filter (fun e => e.1 != a)) a b

/-- The `n` bytes from an address up. -/
def Memory.readBytes (m : Memory) (a : Nat) : Nat → List Byte
  | 0 => []
  | n + 1 => m.read a :: Memory.readBytes m (a + 1) n

/-- Writes bytes from an address up. -/
def Memory.writeBytes : Memory → Nat → List Byte → Memory
  | m, _, [] => m
  | m, a, b :: bs => Memory.writeBytes (m.write a b) (a + 1) bs

/-- The canonical form: addresses strictly rising, and no entry equal to what an unlisted address reads as. -/
def Memory.wf : Memory → Bool
  | [] => true
  | (a, b) :: m => b != Memory.unlisted && m.all (fun e => decide (a < e.1)) && Memory.wf m

end Sys2Proof.Machine
end

