-- ==== Sys2Proof/Machine/State.lean ====
section
/-! DEFINITION. The state of the machine (`10_state.md` R20) as plain data, the reasons a step can stop, and the state
right after reset (R43, `70_reset_and_hazards.md` R341). -/

namespace Sys2Proof.Machine

/-- The situations to which the spec gives no meaning: its `refuse` (R9, R302). Safe, each of them: the model has no
successor where the hardware does something the source does not describe. -/
inductive Refusal where
  /-- An instruction without a meaning yet. Raised by `exec` alone; safe. -/
  | notModelled (mnemonic : String)
  /-- A reserved encoding (R121), raised by the step when the decoder rejects the word, and by the meanings for the two
  forms that are reserved in one mode only (a shift count of `W` or more, R211; `LDST_Q_GATED`, R272); safe. -/
  | reservedEncoding (why : Reserved)
  /-- A load or store whose address is not a multiple of its size (R66, R67), or a vector that is not, where `MISALIGNED`
  is refuse; safe. -/
  | misalignedAccess (addr : Addr) (size : Size)
  /-- An instruction fetch at an address that is not a multiple of 4 (R32, R303), where `MISALIGNED` is refuse; safe. -/
  | misalignedPc (addr : Addr)
  /-- A load, store or fetch in `$vm` with K = 0 (R77), where `VM_USER_ACCESS` is refuse; safe. -/
  | vmUserAccess (addr : Addr)
  /-- Any access with P = 1 on a machine with the protected-mode extension (R84); safe. -/
  | translationNotSpecified (addr : Addr)
  /-- SSB, CSB or a write of PR with K = 0, where `PRIV_VIOLATION` is refuse (D7); safe. -/
  | privilegeViolation
  deriving DecidableEq, Repr

/-- The faults. The machine itself has none (R302). -/
inductive Fault where
  /-- An access to an address outside the address space or that no memory answers (R78, D35). Raised by every memory access; safe. -/
  | unbacked (addr : Addr)
  deriving DecidableEq, Repr

/-- A stop of either kind, as the operations below a meaning answer it. -/
inductive Stop where
  | fault (f : Fault)
  | refused (r : Refusal)
  deriving DecidableEq, Repr

/-- The 29 stored general registers (R21): G1 to G24, PR, SP, JDR, SRD and IRD. -/
structure Regs where
  /-- G1 to G24: index `i` is G(i+1). -/
  g : Vector Word 24
  pr : Word
  sp : Word
  jdr : Word
  srd : Word
  ird : Word
  deriving DecidableEq, Repr

/-- The stored registers after a reset. The spec gives them no value (R27, R342). DESIGN CHOICE (log entry 3). -/
def Regs.reset : Regs := ⟨Vector.replicate 24 0, 0, 0, 0, 0, 0⟩

/-- What the environment drives at one instruction boundary (R12): the interrupt request `irq` (R310) and the reset
event (R340). -/
structure Sample where
  irq : Bool
  reset : Bool
  deriving DecidableEq, Repr

/-- A boundary at which the environment does nothing. -/
def Sample.quiet : Sample := ⟨false, false⟩

/-- The whole state (R20). `inputs`, `freeIdx` and `cfg` are the model's own fields: the environment's samples of the
coming instruction boundaries, nearest first (log entry 8), the counter the free values are drawn with (log entry 38),
and what the implementation fixes (log entry 1). -/
structure State where
  regs : Regs
  pc : Addr
  sr : Status
  mem : Memory
  inputs : List Sample
  freeIdx : Nat
  cfg : Config
  deriving DecidableEq, Repr

/-- The machine right after reset (R43, R341), in the launch profile: K = 1 and I = P = Q = 0, nothing listed in memory,
and `pc` the value read at the reset vector, which with nothing listed is 0 (log entry 6). -/
def State.reset : State where
  regs := Regs.reset
  pc := 0
  sr := Config.launch.resetSr
  mem := []
  inputs := []
  freeIdx := 0
  cfg := Config.launch

end Sys2Proof.Machine
end

