-- ==== Sys2Proof/Machine/Operands.lean ====
section
/-! DEFINITION. Every operand form: the register read `x[i]` (`10_state.md` R25), the immediates and their extension
(`30_encoding.md` R113), the effective address of a load or store (`20_memory.md` R65), the target of a jump
(`42_jumps.md` R170), and the operating width `W` (`47_ext64.md` R262). -/

namespace Sys2Proof.Machine

/-! ## Addresses -/

/-- A value modulo `2^AW` (R31, R65, R270). -/
def wrap (c : Config) (v : Word) : Addr := BitVec.ofNat 36 (v.toNat % 2 ^ c.aw)

/-- The address of the next instruction in memory (R31). -/
def State.nextPc (s : State) : Addr := wrap s.cfg (s.pc.setWidth 64 + 4)

/-! ## Registers -/

/-- A value cut to the register width `XLEN` (R24, R261). -/
def trim (c : Config) (v : Word) : Word := if c.extQ then v else (v.setWidth 32).setWidth 64

/-- The stored value of a register; ZR, SR and PC have no storage of their own (R20). -/
def Regs.get (r : Regs) : Reg → Word
  | .zr => 0
  | .g i => r.g[i]
  | .pr => r.pr
  | .sp => r.sp
  | .jdr => r.jdr
  | .srd => r.srd
  | .ird => r.ird
  | .sr => 0
  | .pc => 0

/-- The status register as register SR shows it (R25): bit 0 = K, bit 1 = I, bit 2 = P, bit 3 = Q, the rest 0. -/
def statusWord (st : Status) : Word :=
  (0 : BitVec 60) ++ BitVec.ofBool st.q ++ BitVec.ofBool st.p ++ BitVec.ofBool st.i ++ BitVec.ofBool st.k

/-- The program counter as register PC shows it (R25, `PC_READ_OFFSET`). -/
def State.pcWindow (s : State) : Word :=
  match s.cfg.pcReadOffset with
  | .zero => trim s.cfg (s.pc.setWidth 64)
  | .four => trim s.cfg (s.nextPc.setWidth 64)

/-- The register read `x[i]` (R25): ZR reads 0, SR and PC are windows, the others read their stored value. -/
def State.readReg (s : State) : Reg → Word
  | .zr => 0
  | .sr => statusWord s.sr
  | .pc => s.pcWindow
  | r => trim s.cfg (s.regs.get r)

/-! ## Immediates -/

/-- The upper half of an extended immediate on a 64-bit machine (`IMM_EXT_64`, R272): as its rule gives it, zero, or a
free value. -/
def State.immUpper (s : State) (v : Word) : Word :=
  if s.cfg.extQ then
    match s.cfg.immExt64 with
    | .same => v
    | .zero => (v.setWidth 32).setWidth 64
    | .any => Config.freeUpper s.freeIdx ++ v.setWidth 32
  else v

/-- An immediate extended as a parameter says (R113, D8). -/
def State.immBy (s : State) (ext : ImmExt) {n : Nat} (imm : BitVec n) : Word :=
  s.immUpper (match ext with
    | .zero => imm.setWidth 64
    | .sign => imm.signExtend 64)

/-- The second operand of ADDI to XORI (R191, `IMM_EXT_ALU`). -/
def State.immAlu (s : State) (imm : BitVec 14) : Word := s.immBy s.cfg.immExtAlu imm

/-- A "Signed imm" immediate: the second operand of MULI, DIVI and MODI (R281), the offset of a jump (R170). -/
def State.immSigned (s : State) {n : Nat} (imm : BitVec n) : Word := s.immBy .sign imm

/-- The displacement of a load or store (R150, `IMM_EXT_MEM`). -/
def State.immMem (s : State) (imm : BitVec 15) : Word := s.immBy s.cfg.immExtMem imm

/-- The effective address of a load or store (R65, R150). -/
def State.ea (s : State) (a : Reg) (imm : BitVec 15) : Addr := wrap s.cfg (s.readReg a + s.immMem imm)

/-- The target of a jump: base register plus signed byte offset (R170). -/
def State.target (s : State) (c : Reg) (offset : Word) : Addr := wrap s.cfg (s.readReg c + offset)

/-! ## Operating widths -/

/-- The width of opcodes 0 and 1 (R262). -/
def State.aluWidth (s : State) : Width := if s.cfg.extQ && s.sr.q then .w64 else .w32

/-- The width of the shifts and rotations (R262, `Q_SCOPE`). -/
def State.shiftWidth (s : State) : Width := if s.cfg.extQ && s.sr.q && s.cfg.qShifts then .w64 else .w32

/-- The width of the comparison of a conditional jump (R262, `Q_SCOPE`). -/
def State.compareWidth (s : State) : Width := if s.cfg.extQ && s.sr.q && s.cfg.qCompare then .w64 else .w32

/-- A one-operand function computed at an operating width; at 32 bits it sees bits 31 to 0 of the operand (R271) and its
result stands in bits 31 to 0. -/
def atWidth1 (w : Width) (f : (n : Nat) → BitVec n → BitVec n) (a : Word) : Word :=
  match w with
  | .w64 => f 64 a
  | .w32 => (f 32 (a.setWidth 32)).setWidth 64

/-- A two-operand function computed at an operating width (R262, R271). -/
def atWidth2 (w : Width) (f : (n : Nat) → BitVec n → BitVec n → BitVec n) (a b : Word) : Word :=
  match w with
  | .w64 => f 64 a b
  | .w32 => (f 32 (a.setWidth 32) (b.setWidth 32)).setWidth 64

end Sys2Proof.Machine
end

