-- ==== Sys2Proof/Machine/Ops.lean ====
section
/-! DEFINITION. The operations the meanings share: the register write (`10_state.md` R26), the accesses of memory
(`20_memory.md` R66, R67), completing an instruction, trap entry and return (`60_exceptions.md` R314, R320), the hardware
interrupt (R311), the reset event (`70_reset_and_hazards.md` R341) and the instruction fetch (R68, R303). -/

namespace Sys2Proof.Machine

/-- The outcome of a step that either has a next state or stops. -/
def outcomeOf : Except Stop State → Host.Outcome State Fault Refusal
  | .ok s => .next s
  | .error (.fault f) => .fault f
  | .error (.refused r) => .refused r

/-- The stop of a reserved encoding (R121, `RESERVED_ENC`). -/
def State.reserved (s : State) (r : Reserved) : Stop :=
  match s.cfg.reservedEnc with
  | .refuse => .refused (.reservedEncoding r)

/-! ## Registers -/

/-- Stores a value in a register; ZR, SR and PC have no storage (R20). -/
def Regs.set (r : Regs) (i : Reg) (v : Word) : Regs :=
  match i with
  | .zr => r
  | .g n => { r with g := r.g.set n v }
  | .pr => { r with pr := v }
  | .sp => { r with sp := v }
  | .jdr => { r with jdr := v }
  | .srd => { r with srd := v }
  | .ird => { r with ird := v }
  | .sr => r
  | .pc => r

/-- Whether a write of a register changes it (R26): ZR, SR and PC are read-only, PR is writable only with K = 1. -/
def State.accepts (s : State) : Reg → Bool
  | .zr => false
  | .sr => false
  | .pc => false
  | .pr => s.sr.k
  | _ => true

/-- Whether a write of a register is refused: only one of PR with K = 0, where `PRIV_VIOLATION` is refuse (D7). -/
def State.refusesWrite (s : State) (r : Reg) : Bool :=
  r == .pr && !s.sr.k && s.cfg.privViolation == .refuse

/-- The register write `x[i] <- v` (R26): the value, cut to the register width, or nothing where the register does not
accept it. -/
def State.setReg (s : State) (r : Reg) (v : Word) : State :=
  { s with regs := if s.accepts r then s.regs.set r (trim s.cfg v) else s.regs }

/-! ## Completing an instruction -/

/-- `pc <- pc + 4` (R31). -/
def State.advance (s : State) : State := { s with pc := s.nextPc }

/-- Writes the result and goes on to the next instruction. -/
def State.retire (s : State) (c : Reg) (v : Word) : Host.Outcome State Fault Refusal :=
  if s.refusesWrite c then .refused .privilegeViolation else .next (s.setReg c v).advance

/-- A 32-bit result as a register value: bits 63 to 32, which exist only with the 64-bit extension, are what the
parameter says (R271, R272). -/
def State.fillUpper (s : State) (fill : UpperFill) (old : Word) (v : BitVec 32) : Word :=
  if s.cfg.extQ then
    match fill with
    | .zero => v.setWidth 64
    | .sign => v.signExtend 64
    | .keep => old.extractLsb' 32 32 ++ v
    | .any => Config.freeUpper s.freeIdx ++ v
  else v.setWidth 64

/-- The value an ALU result computed at a width leaves in its destination (R262, R271 `Q0_UPPER`). -/
def State.resultAt (s : State) (w : Width) (c : Reg) (v : Word) : Word :=
  match w with
  | .w64 => v
  | .w32 => s.fillUpper s.cfg.q0Upper (s.readReg c) (v.setWidth 32)

/-- Completes an ALU instruction whose result at width `w` is `v`. -/
def State.retireAlu (s : State) (w : Width) (c : Reg) (v : Word) : Host.Outcome State Fault Refusal :=
  s.retire c (s.resultAt w c v)

/-! ## Memory -/

/-- Whether an address is one of the address space (R60) that some region of memory answers (R78). -/
def backedAt (c : Config) (a : Nat) : Bool :=
  decide (a < 2 ^ c.aw) && c.backed.any fun r => decide (r.base ≤ a) && decide (a < r.base + r.size)

/-- Whether memory answers all the addresses of an access. -/
def backedRange (c : Config) (a n : Nat) : Bool :=
  (List.range n).all fun k => backedAt c (a + k)

/-- Whether an access is refused for its alignment (R66, `MISALIGNED`). -/
def State.refusesMisaligned (s : State) (a : Addr) (sz : Size) : Bool :=
  decide (a.toNat % sz.bytes ≠ 0) && s.cfg.misaligned == .refuse

/-- The address from which an access is made: the one it names, or, where that is misaligned, the one `MISALIGNED` gives
(D3; log entry 11). -/
def State.accessBase (s : State) (a : Addr) (sz : Size) : Addr :=
  if a.toNat % sz.bytes = 0 then a
  else
    match s.cfg.misaligned with
    | .refuse => a
    | .alignDown => BitVec.ofNat 36 (a.toNat / sz.bytes * sz.bytes)
    | .straddle => a
    | .any => Config.misalignedBase sz a

/-- The checks of an access that is made from an address, in the order of R66: `$vm` in user mode, translation; then
whether memory answers (R78; log entry 36). None where the access is admitted. -/
def State.baseStop (s : State) (b : Addr) (sz : Size) : Option Stop :=
  if !s.sr.k && s.cfg.vmUserAccess == .refuse && decide (b.toNat ≤ 0xFFFFF) then some (.refused (.vmUserAccess b))
  else if s.sr.p && s.cfg.extP then some (.refused (.translationNotSpecified b))
  else if !backedRange s.cfg b.toNat sz.bytes then some (.fault (.unbacked b))
  else none

/-- The checks of every access: its alignment first (R66). -/
def State.accessStop (s : State) (a : Addr) (sz : Size) : Option Stop :=
  if s.refusesMisaligned a sz then some (.refused (.misalignedAccess a sz))
  else s.baseStop (s.accessBase a sz) sz

/-- `MemRead(addr, n)` (R66). -/
def State.memRead (s : State) (a : Addr) (sz : Size) : Except Stop Word :=
  match s.accessStop a sz with
  | some e => .error e
  | none => .ok (ofBytes s.cfg.endian (s.mem.readBytes (s.accessBase a sz).toNat sz.bytes))

/-- `MemWrite(addr, n, v)` (R67). -/
def State.memWrite (s : State) (a : Addr) (sz : Size) (v : Word) : Except Stop State :=
  match s.accessStop a sz with
  | some e => .error e
  | none =>
    .ok { s with mem := s.mem.writeBytes (s.accessBase a sz).toNat (toBytes s.cfg.endian sz.bytes v) }

/-- The register value of a load of `sz` (R153, `LOAD_EXT`): the bits the load does not name are zero, copies of the
sign, or those of the old value. -/
def loadValue (ext : LoadExt) (sz : Size) (old v : Word) : Word :=
  match sz with
  | .byte =>
    match ext with
    | .zero => (v.setWidth 8).setWidth 64
    | .sign => (v.setWidth 8).signExtend 64
    | .merge => old.extractLsb' 8 56 ++ v.setWidth 8
  | .word =>
    match ext with
    | .zero => (v.setWidth 16).setWidth 64
    | .sign => (v.setWidth 16).signExtend 64
    | .merge => old.extractLsb' 16 48 ++ v.setWidth 16
  | .dword =>
    match ext with
    | .zero => (v.setWidth 32).setWidth 64
    | .sign => (v.setWidth 32).signExtend 64
    | .merge => old.extractLsb' 32 32 ++ v.setWidth 32
  | .qword => v

/-- A load (R152): the address, the read with its checks, the register write, `pc + 4`. -/
def State.loadOp (s : State) (sz : Size) (c a : Reg) (imm : BitVec 15) : Host.Outcome State Fault Refusal :=
  match s.memRead (s.ea a imm) sz with
  | .error e => outcomeOf (.error e)
  | .ok v => s.retire c (loadValue s.cfg.loadExt sz (s.readReg c) v)

/-- A store (R152): the registers, the address, the write with its checks, `pc + 4`. -/
def State.storeOp (s : State) (sz : Size) (c a : Reg) (imm : BitVec 15) : Host.Outcome State Fault Refusal :=
  match s.memWrite (s.ea a imm) sz (s.readReg c) with
  | .error e => outcomeOf (.error e)
  | .ok t => .next t.advance

/-- Whether the four instructions of the 64-bit extension are turned away in this mode (`LDST_Q_GATED`, R272). -/
def State.quadGated (s : State) : Bool := s.cfg.ldstQGated && !s.sr.q

/-! ## Traps, return, reset -/

/-- `pc` is loaded from a vector: the low bits of its 8-byte value, as many as `VEC_BITS` says (R76, R272). -/
def State.loadPc (s : State) (vec : Addr) : Except Stop State :=
  match s.memRead vec .qword with
  | .error e => .error e
  | .ok t => .ok { s with pc := BitVec.ofNat 36 (t.toNat % 2 ^ s.cfg.vectorBits) }

/-- The value trap entry writes in IRD: the return address in bits `AW - 1` to 0, and above them, on a 64-bit machine,
what `IRD_WIDTH` says (R272). -/
def State.returnValue (s : State) (ret : Addr) : Word :=
  let mask : Word := BitVec.ofNat 64 (2 ^ s.cfg.aw - 1)
  let above : Word :=
    match s.cfg.irdUpper with
    | .zero => 0
    | .sign => if ret.getLsbD (s.cfg.aw - 1) then BitVec.allOnes 64 else 0
    | .keep => s.readReg .ird
    | .any => Config.freeUpper s.freeIdx ++ (0 : BitVec 32)
  (above &&& ~~~mask) ||| (ret.setWidth 64 &&& mask)

/-- The first half of trap entry (R314): IRD gets the return address and K is set. -/
def State.enterKernel (s : State) (ret : Addr) : State :=
  { s with regs := s.regs.set .ird (trim s.cfg (s.returnValue ret)), sr := { s.sr with k := true } }

/-- Trap entry (R314): IRD and K, and then `pc` from the vector, read with K = 1. Nothing else changes. -/
def State.trapEntry (s : State) (vec ret : Addr) : Except Stop State := (s.enterKernel ret).loadPc vec

/-- Trap return (R233, R320): `pc` is loaded from IRD and K is cleared. Nothing else changes. -/
def State.trapReturn (s : State) : State :=
  { s with pc := wrap s.cfg (s.readReg .ird), sr := { s.sr with k := false } }

/-- Whether a hardware interrupt is taken at a boundary (R311, `INT_WHEN_K`). -/
def State.takesInterrupt (s : State) (irq : Bool) : Bool :=
  irq && s.sr.i && (!s.sr.k || s.cfg.intWhenK)

/-- The first half of the reset event (R341, R342): the status bits and the stored registers get their reset values. -/
def State.clearForReset (s : State) : State := { s with sr := s.cfg.resetSr, regs := Regs.reset }

/-- The reset event (R341): status bits and registers, and then `pc` from the reset vector. Memory is not changed. -/
def State.resetEvent (s : State) : Except Stop State := s.clearForReset.loadPc s.cfg.rstVec

/-! ## The instruction boundary -/

/-- What the environment drives at this boundary; with no sample left it does nothing (log entry 8). -/
def State.sample (s : State) : Sample := s.inputs.headD Sample.quiet

/-- The state inside a step: the boundary's sample is consumed, and the free values of this step are fresh. -/
def State.beginStep (s : State) : State := { s with inputs := s.inputs.tail, freeIdx := s.freeIdx + 1 }

/-- The instruction fetch (R68) with its refusals (R303). -/
def State.fetch (s : State) : Except Stop (BitVec 32) :=
  if s.refusesMisaligned s.pc .dword then .error (.refused (.misalignedPc s.pc)) else
  match s.memRead s.pc .dword with
  | .error e => .error e
  | .ok v => .ok (v.setWidth 32)

/-- Fetch and decode (R303): the instruction at `pc`. -/
def State.nextInstr (s : State) : Except Stop Instr :=
  match s.fetch with
  | .error e => .error e
  | .ok w =>
    match decodeWord s.cfg w with
    | .error r => .error (s.reserved r)
    | .ok i => .ok i

end Sys2Proof.Machine
end

