-- ==== Sys2Proof/Machine/Alu.lean ====
section
/-! DEFINITION. Arithmetic and logic, register and immediate forms (`43_alu.md` R190 to R202): ADD, SUB, AND, OR, XOR,
ADDI, SUBI, ANDI, ORI, XORI. -/

namespace Sys2Proof.Machine

/-- An ALU instruction of two operand values at the operating width (R190, R191, R262). -/
def State.aluOp (s : State) (f : (n : Nat) → BitVec n → BitVec n → BitVec n) (c : Reg) (a b : Word) :
    Host.Outcome State Fault Refusal :=
  s.retireAlu s.aluWidth c (atWidth2 s.aluWidth f a b)

/-- ADD (R192): `x[C] <- x[A] + x[B]`. -/
def execAdd (c a b : Reg) (s : State) : Host.Outcome State Fault Refusal :=
  s.aluOp (fun _ x y => x + y) c (s.readReg a) (s.readReg b)

/-- SUB (R193): `x[C] <- x[A] - x[B]`. -/
def execSub (c a b : Reg) (s : State) : Host.Outcome State Fault Refusal :=
  s.aluOp (fun _ x y => x - y) c (s.readReg a) (s.readReg b)

/-- AND (R194): `x[C] <- x[A] & x[B]`. -/
def execAnd (c a b : Reg) (s : State) : Host.Outcome State Fault Refusal :=
  s.aluOp (fun _ x y => x &&& y) c (s.readReg a) (s.readReg b)

/-- OR (R195): `x[C] <- x[A] | x[B]`. -/
def execOr (c a b : Reg) (s : State) : Host.Outcome State Fault Refusal :=
  s.aluOp (fun _ x y => x ||| y) c (s.readReg a) (s.readReg b)

/-- XOR (R196): `x[C] <- x[A] ^ x[B]`. -/
def execXor (c a b : Reg) (s : State) : Host.Outcome State Fault Refusal :=
  s.aluOp (fun _ x y => x ^^^ y) c (s.readReg a) (s.readReg b)

/-- ADDI (R197): `x[C] <- x[A] + IMM`. -/
def execAddi (c a : Reg) (imm : BitVec 14) (s : State) : Host.Outcome State Fault Refusal :=
  s.aluOp (fun _ x y => x + y) c (s.readReg a) (s.immAlu imm)

/-- SUBI (R198): `x[C] <- x[A] - IMM`. -/
def execSubi (c a : Reg) (imm : BitVec 14) (s : State) : Host.Outcome State Fault Refusal :=
  s.aluOp (fun _ x y => x - y) c (s.readReg a) (s.immAlu imm)

/-- ANDI (R199): `x[C] <- x[A] & IMM`. -/
def execAndi (c a : Reg) (imm : BitVec 14) (s : State) : Host.Outcome State Fault Refusal :=
  s.aluOp (fun _ x y => x &&& y) c (s.readReg a) (s.immAlu imm)

/-- ORI (R200): `x[C] <- x[A] | IMM`. -/
def execOri (c a : Reg) (imm : BitVec 14) (s : State) : Host.Outcome State Fault Refusal :=
  s.aluOp (fun _ x y => x ||| y) c (s.readReg a) (s.immAlu imm)

/-- XORI (R201): `x[C] <- x[A] ^ IMM`. -/
def execXori (c a : Reg) (imm : BitVec 14) (s : State) : Host.Outcome State Fault Refusal :=
  s.aluOp (fun _ x y => x ^^^ y) c (s.readReg a) (s.immAlu imm)

end Sys2Proof.Machine
end

