-- ==== Sys2Proof/Machine/Flags.lean ====
section
/-! DEFINITION. The four conditions of a conditional jump (`42_jumps.md` R171). The machine stores no flag (R41): these
values exist only inside one instruction. -/

namespace Sys2Proof.Machine

/-- Zero: the difference is 0. -/
def condZ {w : Nat} (a b : BitVec w) : Bool := a - b == 0

/-- Carry: the borrow of the subtraction, or, where `C_IS_BORROW` does not hold, its complement, the carry out of
`a + ~b + 1` (R171, D11). -/
def condC {w : Nat} (isBorrow : Bool) (a b : BitVec w) : Bool := if isBorrow then a.ult b else !a.ult b

/-- Sign: the top bit of the wrapped difference. -/
def condS {w : Nat} (a b : BitVec w) : Bool := (a - b).msb

/-- Overflow: the signs of the operands differ and the difference has not the sign of the minuend. -/
def condV {w : Nat} (a b : BitVec w) : Bool := (a.msb != b.msb) && ((a - b).msb != a.msb)

/-- The four conditions by the letters of the source. -/
inductive Cond where
  | z
  | c
  | s
  | v
  deriving DecidableEq, Repr

/-- One of the four conditions of `a - b` (R171). -/
def condOf {w : Nat} (isBorrow : Bool) (f : Cond) (a b : BitVec w) : Bool :=
  match f with
  | .z => condZ a b
  | .c => condC isBorrow a b
  | .s => condS a b
  | .v => condV a b

/-- The condition of a conditional jump, of registers A and B at the width of the comparison (R171, R262). -/
def State.cond (s : State) (f : Cond) (a b : Reg) : Bool :=
  match s.compareWidth with
  | .w64 => condOf s.cfg.cIsBorrow f (s.readReg a) (s.readReg b)
  | .w32 => condOf s.cfg.cIsBorrow f ((s.readReg a).setWidth 32) ((s.readReg b).setWidth 32)

end Sys2Proof.Machine
end

