-- ==== Sys2Proof/Machine/Jump.lean ====
section
/-! DEFINITION. Jumps (`42_jumps.md` R170 to R183): JMP, JZ, JC, JS, JV, JNZ, JNC, JNS, JNV. A jump writes no register
and no memory, and the alignment of its target is checked by the next fetch (R173). -/

namespace Sys2Proof.Machine

/-- `pc <- x[C] + offset` (R170). -/
def State.jumpTo (s : State) (c : Reg) (offset : Word) : State := { s with pc := s.target c offset }

/-- The common operation of the conditional jumps: the target where the condition holds, else `pc + 4`. -/
def State.condJump (s : State) (holds : Bool) (c : Reg) (imm : BitVec 9) : Host.Outcome State Fault Refusal :=
  if holds then .next (s.jumpTo c (s.immSigned imm)) else .next s.advance

/-- JMP (R174). -/
def execJmp (c : Reg) (imm : BitVec 15) (s : State) : Host.Outcome State Fault Refusal :=
  .next (s.jumpTo c (s.immSigned imm))

/-- JZ (R175): jumps when Z of A - B. -/
def execJz (c a b : Reg) (imm : BitVec 9) (s : State) : Host.Outcome State Fault Refusal :=
  s.condJump (s.cond .z a b) c imm

/-- JC (R176): jumps when C of A - B. -/
def execJc (c a b : Reg) (imm : BitVec 9) (s : State) : Host.Outcome State Fault Refusal :=
  s.condJump (s.cond .c a b) c imm

/-- JS (R177): jumps when S of A - B. -/
def execJs (c a b : Reg) (imm : BitVec 9) (s : State) : Host.Outcome State Fault Refusal :=
  s.condJump (s.cond .s a b) c imm

/-- JV (R178): jumps when V of A - B. -/
def execJv (c a b : Reg) (imm : BitVec 9) (s : State) : Host.Outcome State Fault Refusal :=
  s.condJump (s.cond .v a b) c imm

/-- JNZ (R179): jumps when not Z of A - B. -/
def execJnz (c a b : Reg) (imm : BitVec 9) (s : State) : Host.Outcome State Fault Refusal :=
  s.condJump (!s.cond .z a b) c imm

/-- JNC (R180): jumps when not C of A - B. -/
def execJnc (c a b : Reg) (imm : BitVec 9) (s : State) : Host.Outcome State Fault Refusal :=
  s.condJump (!s.cond .c a b) c imm

/-- JNS (R182): jumps when not S of A - B. -/
def execJns (c a b : Reg) (imm : BitVec 9) (s : State) : Host.Outcome State Fault Refusal :=
  s.condJump (!s.cond .s a b) c imm

/-- JNV (R183): jumps when not V of A - B. -/
def execJnv (c a b : Reg) (imm : BitVec 9) (s : State) : Host.Outcome State Fault Refusal :=
  s.condJump (!s.cond .v a b) c imm

end Sys2Proof.Machine
end

