-- ==== Sys2Proof/Machine/LoadStore.lean ====
section
/-! DEFINITION. Stores and loads (`41_load_store.md` R150 to R159; STQ and LDQ, `47_ext64.md` R263, R264): STB, STW,
STD, STQ, LDB, LDW, LDD, LDQ. The decoder rejects STQ and LDQ where the 64-bit extension is absent (R120). -/

namespace Sys2Proof.Machine

/-- STB (R156): `[A + IMM]` gets bits 7 to 0 of C. -/
def execStb (c a : Reg) (imm : BitVec 15) (s : State) : Host.Outcome State Fault Refusal :=
  s.storeOp .byte c a imm

/-- STW (R155): `[A + IMM]` gets bits 15 to 0 of C. -/
def execStw (c a : Reg) (imm : BitVec 15) (s : State) : Host.Outcome State Fault Refusal :=
  s.storeOp .word c a imm

/-- STD (R154): `[A + IMM]` gets bits 31 to 0 of C. -/
def execStd (c a : Reg) (imm : BitVec 15) (s : State) : Host.Outcome State Fault Refusal :=
  s.storeOp .dword c a imm

/-- STQ (R263): `[A + IMM]` gets bits 63 to 0 of C. -/
def execStq (c a : Reg) (imm : BitVec 15) (s : State) : Host.Outcome State Fault Refusal :=
  if s.quadGated then outcomeOf (.error (s.reserved .needsQ)) else s.storeOp .qword c a imm

/-- LDB (R159): bits 7 to 0 of C get `[A + IMM]`. -/
def execLdb (c a : Reg) (imm : BitVec 15) (s : State) : Host.Outcome State Fault Refusal :=
  s.loadOp .byte c a imm

/-- LDW (R158): bits 15 to 0 of C get `[A + IMM]`. -/
def execLdw (c a : Reg) (imm : BitVec 15) (s : State) : Host.Outcome State Fault Refusal :=
  s.loadOp .word c a imm

/-- LDD (R157): bits 31 to 0 of C get `[A + IMM]`. -/
def execLdd (c a : Reg) (imm : BitVec 15) (s : State) : Host.Outcome State Fault Refusal :=
  s.loadOp .dword c a imm

/-- LDQ (R264): bits 63 to 0 of C get `[A + IMM]`. -/
def execLdq (c a : Reg) (imm : BitVec 15) (s : State) : Host.Outcome State Fault Refusal :=
  if s.quadGated then outcomeOf (.error (s.reserved .needsQ)) else s.loadOp .qword c a imm

end Sys2Proof.Machine
end

