-- ==== Sys2Proof/Machine/Move.lean ====
section
/-! DEFINITION. Move upper immediate: MVU (`40_move_upper.md` R140, R141) and, of the 64-bit extension, MVU.HH and
MVU.HL (`47_ext64.md` R265, R266). -/

namespace Sys2Proof.Machine

/-- MVU (R140): bits 31 to 10 are the immediate, bits 9 to 0 are zero; bits 63 to 32, where they exist, are what
`MVU_UPPER` says (R141, R272). -/
def execMvu (c : Reg) (imm : BitVec 22) (s : State) : Host.Outcome State Fault Refusal :=
  s.retire c (s.fillUpper s.cfg.mvuUpper (s.readReg c) (imm ++ (0 : BitVec 10)))

/-- Bits 63 to 42 of MVU.HH's destination are the immediate; the others keep their value, or are zero
(R265, `MVUH_OTHER_BITS`). -/
def placeHighHigh (o : OtherBits) (old : Word) (imm : BitVec 22) : Word :=
  match o with
  | .keep => imm ++ old.extractLsb' 0 42
  | .zero => imm ++ (0 : BitVec 42)

/-- Bits 53 to 32 of MVU.HL's destination are the immediate; the others keep their value, or are zero
(R266, `MVUH_OTHER_BITS`). -/
def placeHighLow (o : OtherBits) (old : Word) (imm : BitVec 22) : Word :=
  match o with
  | .keep => old.extractLsb' 54 10 ++ imm ++ old.extractLsb' 0 32
  | .zero => (0 : BitVec 10) ++ imm ++ (0 : BitVec 32)

/-- MVU.HH (R265). The decoder rejects it where the 64-bit extension is absent (R120). -/
def execMvuHh (c : Reg) (imm : BitVec 22) (s : State) : Host.Outcome State Fault Refusal :=
  if s.quadGated then outcomeOf (.error (s.reserved .needsQ))
  else s.retire c (placeHighHigh s.cfg.mvuhOther (s.readReg c) imm)

/-- MVU.HL (R266). The decoder rejects it where the 64-bit extension is absent (R120). -/
def execMvuHl (c : Reg) (imm : BitVec 22) (s : State) : Host.Outcome State Fault Refusal :=
  if s.quadGated then outcomeOf (.error (s.reserved .needsQ))
  else s.retire c (placeHighLow s.cfg.mvuhOther (s.readReg c) imm)

end Sys2Proof.Machine
end

