-- ==== Sys2Proof/Machine/MulDiv.lean ====
section
/-! DEFINITION. The MUL/DIV extension (`48_ext_muldiv.md` R280 to R289): MUL, DIV, MOD, MULI, DIVI, MODI. The decoder
rejects the six where the extension is absent (R120). -/

namespace Sys2Proof.Machine

/-- The quotient by the rounding of `DIV_ROUND` (R282). -/
def quotient (r : DivRound) (a b : Int) : Int :=
  match r with
  | .trunc => a.tdiv b
  | .floor => a.fdiv b

/-- The remainder that belongs to the quotient: `a - q * b` (R282). -/
def remainder (r : DivRound) (a b : Int) : Int := a - quotient r a b * b

/-- The two cases whose result the spec does not give (R283): a divisor of zero, and the most negative value by -1. -/
def divCornerCase {w : Nat} (a b : BitVec w) : Bool :=
  b == 0 || (a == BitVec.intMin w && b == BitVec.allOnes w)

/-- Signed division (R285), a free value in the corner cases (R283, `DIV_CORNER`; log entry 30). -/
def divide (r : DivRound) (op : DivOp) {w : Nat} (a b : BitVec w) : BitVec w :=
  if divCornerCase a b then Config.divCorner op w a b else BitVec.ofInt w (quotient r a.toInt b.toInt)

/-- Signed remainder (R286), a free value in the corner cases (R283, `DIV_CORNER`; log entry 30). -/
def modulo (r : DivRound) (op : DivOp) {w : Nat} (a b : BitVec w) : BitVec w :=
  if divCornerCase a b then Config.divCorner op w a b else BitVec.ofInt w (remainder r a.toInt b.toInt)

/-- MUL (R284): the low `W` bits of the signed product, which are those of the unsigned product too. -/
def execMul (c a b : Reg) (s : State) : Host.Outcome State Fault Refusal :=
  s.aluOp (fun _ x y => x * y) c (s.readReg a) (s.readReg b)

/-- DIV (R285). -/
def execDiv (c a b : Reg) (s : State) : Host.Outcome State Fault Refusal :=
  s.aluOp (fun _ x y => divide s.cfg.divRound .div x y) c (s.readReg a) (s.readReg b)

/-- MOD (R286). -/
def execMod (c a b : Reg) (s : State) : Host.Outcome State Fault Refusal :=
  s.aluOp (fun _ x y => modulo s.cfg.divRound .mod x y) c (s.readReg a) (s.readReg b)

/-- MULI (R287). -/
def execMuli (c a : Reg) (imm : BitVec 14) (s : State) : Host.Outcome State Fault Refusal :=
  s.aluOp (fun _ x y => x * y) c (s.readReg a) (s.immSigned imm)

/-- DIVI (R288). -/
def execDivi (c a : Reg) (imm : BitVec 14) (s : State) : Host.Outcome State Fault Refusal :=
  s.aluOp (fun _ x y => divide s.cfg.divRound .divi x y) c (s.readReg a) (s.immSigned imm)

/-- MODI (R289). -/
def execModi (c a : Reg) (imm : BitVec 14) (s : State) : Host.Outcome State Fault Refusal :=
  s.aluOp (fun _ x y => modulo s.cfg.divRound .modi x y) c (s.readReg a) (s.immSigned imm)

end Sys2Proof.Machine
end

