-- ==== Sys2Proof/Machine/Shift.lean ====
section
/-! DEFINITION. Shifts and rotations (`44_shifts.md` R210 to R217): SHR, ASR, SHL, ASL, ROR, ROL. -/

namespace Sys2Proof.Machine

/-- The six operations on a value of any width, for counts below the width (R212 to R217). -/
def shiftValue (op : ShiftOp) {w : Nat} (x : BitVec w) (n : Nat) : BitVec w :=
  match op with
  | .shr => x >>> n
  | .asr => x.sshiftRight n
  | .shl => x <<< n
  | .asl => x <<< n
  | .ror => x.rotateRight n
  | .rol => x.rotateLeft n

/-- A shift or rotation at the operating width: a count of `W` or more is a reserved encoding, or gives a free value,
as `SHIFT_OVER` says (R211; log entry 19). -/
def State.shiftInstr (s : State) (op : ShiftOp) (c a : Reg) (count : BitVec 14) : Host.Outcome State Fault Refusal :=
  if count.toNat < s.shiftWidth.bits then
    s.retireAlu s.shiftWidth c (atWidth1 s.shiftWidth (fun _ x => shiftValue op x count.toNat) (s.readReg a))
  else
    match s.cfg.shiftOver with
    | .refuse => outcomeOf (.error (s.reserved .shiftCount))
    | .value =>
      s.retireAlu s.shiftWidth c
        (atWidth1 s.shiftWidth (fun n x => Config.shiftOverValue op n x count.toNat) (s.readReg a))

/-- SHR (R212): zeros enter at the top. -/
def execShr (c a : Reg) (count : BitVec 14) (s : State) : Host.Outcome State Fault Refusal :=
  s.shiftInstr .shr c a count

/-- ASR (R213): copies of the sign bit enter at the top. -/
def execAsr (c a : Reg) (count : BitVec 14) (s : State) : Host.Outcome State Fault Refusal :=
  s.shiftInstr .asr c a count

/-- SHL (R214): zeros enter at the bottom. -/
def execShl (c a : Reg) (count : BitVec 14) (s : State) : Host.Outcome State Fault Refusal :=
  s.shiftInstr .shl c a count

/-- ASL (R215): the same bits as SHL (D27). -/
def execAsl (c a : Reg) (count : BitVec 14) (s : State) : Host.Outcome State Fault Refusal :=
  s.shiftInstr .asl c a count

/-- ROR (R216): bits that leave at bit 0 enter at the top. -/
def execRor (c a : Reg) (count : BitVec 14) (s : State) : Host.Outcome State Fault Refusal :=
  s.shiftInstr .ror c a count

/-- ROL (R217): bits that leave at the top enter at bit 0. -/
def execRol (c a : Reg) (count : BitVec 14) (s : State) : Host.Outcome State Fault Refusal :=
  s.shiftInstr .rol c a count

end Sys2Proof.Machine
end

