-- ==== Sys2Proof/Machine/System.lean ====
section
/-! DEFINITION. System instructions (`45_system.md` R230 to R234): SSB, CSB, URT, SYSCAL. -/

namespace Sys2Proof.Machine

/-- The status register with one bit written; K cannot be written so (R36, R231). -/
def writeStatusBit (st : Status) (b : StatusBit) (v : Bool) : Status :=
  match b with
  | .k => st
  | .i => { st with i := v }
  | .p => { st with p := v }
  | .q => { st with q := v }

/-- SSB and CSB: with K = 1 the bit is written; with K = 0 nothing changes, or the instruction is refused, as
`PRIV_VIOLATION` says (R231, R232). -/
def State.statusOp (s : State) (b : StatusBit) (v : Bool) : Host.Outcome State Fault Refusal :=
  if s.sr.k then .next { s with sr := writeStatusBit s.sr b v }.advance
  else if s.cfg.privViolation == .refuse then .refused .privilegeViolation
  else .next s.advance

/-- SSB (R231). -/
def execSsb (b : StatusBit) (s : State) : Host.Outcome State Fault Refusal :=
  s.statusOp b true

/-- CSB (R232). -/
def execCsb (b : StatusBit) (s : State) : Host.Outcome State Fault Refusal :=
  s.statusOp b false

/-- SYSCAL (R230, R313): trap entry through the software vector, with the address after the SYSCAL to return to. -/
def execSyscal (s : State) : Host.Outcome State Fault Refusal :=
  outcomeOf (s.trapEntry s.cfg.sIntVec s.nextPc)

/-- URT (R233). -/
def execUrt (s : State) : Host.Outcome State Fault Refusal :=
  .next s.trapReturn

end Sys2Proof.Machine
end

