-- ==== Sys2Proof/Machine/Dispatch.lean ====
section
/-! DEFINITION. The meaning of every instruction, one arm per constructor of `Instr`. -/

namespace Sys2Proof.Machine

/-- What an instruction does in a state. -/
def exec (i : Instr) (s : State) : Host.Outcome State Fault Refusal :=
  match i with
  | .add c a b => Sys2Proof.Machine.execAdd c a b s
  | .sub c a b => Sys2Proof.Machine.execSub c a b s
  | .and c a b => Sys2Proof.Machine.execAnd c a b s
  | .or c a b => Sys2Proof.Machine.execOr c a b s
  | .xor c a b => Sys2Proof.Machine.execXor c a b s
  | .mul c a b => Sys2Proof.Machine.execMul c a b s
  | .div c a b => Sys2Proof.Machine.execDiv c a b s
  | .mod c a b => Sys2Proof.Machine.execMod c a b s
  | .addi c a imm => Sys2Proof.Machine.execAddi c a imm s
  | .subi c a imm => Sys2Proof.Machine.execSubi c a imm s
  | .andi c a imm => Sys2Proof.Machine.execAndi c a imm s
  | .ori c a imm => Sys2Proof.Machine.execOri c a imm s
  | .xori c a imm => Sys2Proof.Machine.execXori c a imm s
  | .muli c a imm => Sys2Proof.Machine.execMuli c a imm s
  | .divi c a imm => Sys2Proof.Machine.execDivi c a imm s
  | .modi c a imm => Sys2Proof.Machine.execModi c a imm s
  | .shr c a count => Sys2Proof.Machine.execShr c a count s
  | .asr c a count => Sys2Proof.Machine.execAsr c a count s
  | .shl c a count => Sys2Proof.Machine.execShl c a count s
  | .asl c a count => Sys2Proof.Machine.execAsl c a count s
  | .ror c a count => Sys2Proof.Machine.execRor c a count s
  | .rol c a count => Sys2Proof.Machine.execRol c a count s
  | .mvu c imm => Sys2Proof.Machine.execMvu c imm s
  | .stb c a imm => Sys2Proof.Machine.execStb c a imm s
  | .stw c a imm => Sys2Proof.Machine.execStw c a imm s
  | .std c a imm => Sys2Proof.Machine.execStd c a imm s
  | .stq c a imm => Sys2Proof.Machine.execStq c a imm s
  | .ldb c a imm => Sys2Proof.Machine.execLdb c a imm s
  | .ldw c a imm => Sys2Proof.Machine.execLdw c a imm s
  | .ldd c a imm => Sys2Proof.Machine.execLdd c a imm s
  | .ldq c a imm => Sys2Proof.Machine.execLdq c a imm s
  | .jmp c imm => Sys2Proof.Machine.execJmp c imm s
  | .jz c a b imm => Sys2Proof.Machine.execJz c a b imm s
  | .jc c a b imm => Sys2Proof.Machine.execJc c a b imm s
  | .js c a b imm => Sys2Proof.Machine.execJs c a b imm s
  | .jv c a b imm => Sys2Proof.Machine.execJv c a b imm s
  | .jnz c a b imm => Sys2Proof.Machine.execJnz c a b imm s
  | .jnc c a b imm => Sys2Proof.Machine.execJnc c a b imm s
  | .jns c a b imm => Sys2Proof.Machine.execJns c a b imm s
  | .jnv c a b imm => Sys2Proof.Machine.execJnv c a b imm s
  | .csb b => Sys2Proof.Machine.execCsb b s
  | .ssb b => Sys2Proof.Machine.execSsb b s
  | .urt => Sys2Proof.Machine.execUrt s
  | .syscal => Sys2Proof.Machine.execSyscal s
  | .mvuHh c imm => Sys2Proof.Machine.execMvuHh c imm s
  | .mvuHl c imm => Sys2Proof.Machine.execMvuHl c imm s

end Sys2Proof.Machine
end

