-- ==== Sys2Proof/Machine/Step.lean ====
section
/-! DEFINITION. One step of the machine (`60_exceptions.md` R303): the reset event, the hardware-interrupt check, fetch,
decode, execute. And the state in which a given word is the next instruction. -/

namespace Sys2Proof.Machine

/-- One step. A reset overrides a hardware interrupt (R312, R340), the interrupt check precedes the fetch (R311), and
an interrupt returns to the instruction that had not yet begun (R314). -/
def step (s : State) : Host.Outcome State Fault Refusal :=
  if s.sample.reset then outcomeOf s.beginStep.resetEvent
  else if s.takesInterrupt s.sample.irq then outcomeOf (s.beginStep.trapEntry s.cfg.hIntVec s.pc)
  else
    match s.beginStep.nextInstr with
    | .error e => outcomeOf (.error e)
    | .ok i => exec i s.beginStep

/-- The state in which the instruction whose bits are `w`, those from `nbits` up zero, is stored where the next step
fetches, and the environment does nothing at the next boundary (log entry 6). -/
def State.withFetchWord (s : State) (nbits w : Nat) : State :=
  { s with
    mem := s.mem.writeBytes (s.accessBase s.pc .dword).toNat (toBytes s.cfg.endian 4 (BitVec.ofNat 64 (w % 2 ^ nbits)))
    inputs := Sample.quiet :: s.inputs.tail }

end Sys2Proof.Machine
end

