-- ==== Sys2Proof/Machine/Pseudo.lean ====
section
/-! DEFINITION. The three pseudo-instructions (`46_pseudo.md` R250 to R252): names for instructions an assembler puts in
their place, and no encodings of their own (R127). -/

namespace Sys2Proof.Machine

/-- MVI, PSH and POP. -/
inductive Pseudo where
  | mvi (dest : Reg) (imm : BitVec 32)
  | psh (source : Reg)
  | pop (dest : Reg)
  deriving DecidableEq, Repr

/-- The instructions a pseudo-instruction stands for, in their order (R250, R251, R252). -/
def Pseudo.expand : Pseudo → List Instr
  | .mvi d imm => [.mvu d (imm.extractLsb' 10 22), .addi d d ((imm.extractLsb' 0 10).setWidth 14)]
  | .psh r => [.subi .sp .sp 4, .std r .sp 0]
  | .pop d => [.ldd d .sp 0, .addi .sp .sp 4]

end Sys2Proof.Machine
end

