-- ==== Sys2Proof/Machine/VmTable.lean ====
section
/-! DEFINITION. The virtual-memory table as data (`20_memory.md` R70, R81 to R83): where it stands, the format of an
entry, and the entry at an index. How an entry is found for an address is not in the spec (R84), so nothing here
translates; software fills the table with ordinary stores. DESIGN CHOICE (log entry 43): the entry at index `i` is the
8-byte integer at address `8 i`, in the machine's byte order; the spec says that the byte layout of an entry in memory is
missing (91_not_in_source.md N20). -/

namespace Sys2Proof.Machine

/-- The size of `$vm`, which begins at address 0 (R70, R77). -/
def vmBytes : Nat := 0x100000

/-- The size of a page (R83). -/
def pageBytes : Nat := 4096

/-- The number of entries of the table, at 8 bytes each (R82, where size and number are inferred). -/
def vmEntryCount : Nat := 131072

/-- One entry (R82). -/
structure VmEntry where
  process : BitVec 14
  virtualPage : BitVec 24
  physicalPage : BitVec 24
  deriving DecidableEq, Repr

/-- The entry 64 bits hold: Process [61:48], Virtual page [47:24], Physical page [23:0] (R82). -/
def vmEntryOf (v : Word) : VmEntry := ⟨v.extractLsb' 48 14, v.extractLsb' 24 24, v.extractLsb' 0 24⟩

/-- The 64 bits of an entry. R82 names neither bit 63 nor bit 62: they are zero here, and `vmEntryOf` reads neither.
DESIGN CHOICE (log entry 43). -/
def vmEntryWord (e : VmEntry) : Word := (0 : BitVec 2) ++ e.process ++ e.virtualPage ++ e.physicalPage

/-- The entry at an index of the table in memory (R81, R82). That entries stand one after the other from address 0, each
as one 8-byte integer in the machine's byte order, is no rule of the spec. DESIGN CHOICE (log entry 43). -/
def State.vmEntry (s : State) (index : Nat) : VmEntry :=
  vmEntryOf (ofBytes s.cfg.endian (s.mem.readBytes (8 * index) 8))

/-- The physical address of a byte of an entry's page: 24 bits of page number and 12 of offset (R62, R83). Where addresses
have fewer than 36 bits the upper bits of the page number have nothing to hold, and the spec does not say that they are
zero or what becomes of them (R83): they are kept, so the address may lie beyond the address space. DESIGN CHOICE (log
entry 44). -/
def VmEntry.address (e : VmEntry) (offset : BitVec 12) : Addr := e.physicalPage ++ offset

end Sys2Proof.Machine
end

