-- ==== Sys2Proof/Safety.lean ====
section
/-! DEFINITION. The terms the statements use: what it means that a state is well formed, that a step completes, what an
instruction leaves as it was, and when a run has ended. -/

namespace Sys2Proof.Machine

/-! ## Well-formed states -/

/-- The invariant of the machine: the implementation is one of the spec, memory is in its canonical form and inside the
address space (R60), `pc` is an address (R30), and no register has a bit above the register width (R24, R261). -/
structure Inv (s : State) : Prop where
  cfg : s.cfg.wf = true
  mem : s.mem.wf = true
  memBound : ∀ e ∈ s.mem, e.1 < 2 ^ s.cfg.aw
  pc : s.pc.toNat < 2 ^ s.cfg.aw
  regs : ∀ r : Reg, trim s.cfg (s.regs.get r) = s.regs.get r

/-! ## Runs -/

/-- The state after `n` steps, where none of them stops. -/
def runs : Nat → State → State → Prop
  | 0, s, t => t = s
  | n + 1, s, t => ∃ u, step s = .next u ∧ runs n u t

/-- A run is safe for `n` steps when none of them is a fault or a refusal. -/
def SafeFor (n : Nat) (s : State) : Prop := ∃ t, runs n s t

/-- The instructions of a list one after the other, where each has a next state. -/
def execAll : List Instr → State → State → Prop
  | [], s, t => t = s
  | i :: is, s, t => ∃ u, exec i s = .next u ∧ execAll is u t

/-- The end of a run (R355, D32): `pc` holds the address of a `JMP PC, 0`. -/
def State.ended (s : State) : Prop := s.nextInstr = .ok (.jmp .pc 0)

/-! ## What an instruction does and what it leaves -/

/-- Memory reads the same at every address. -/
def SameMemory (s t : State) : Prop := ∀ a : Nat, t.mem.read a = s.mem.read a

/-- Every stored register is the same. -/
def SameRegs (s t : State) : Prop := ∀ r : Reg, t.regs.get r = s.regs.get r

/-- The model's own fields are the same (R5: no instruction changes a parameter). -/
def SameModel (s t : State) : Prop := t.inputs = s.inputs ∧ t.freeIdx = s.freeIdx ∧ t.cfg = s.cfg

/-- `t` is `s` after an instruction that writes `v` to register `c` and nothing else (R26, R31, R41): the register has
the value, cut to the register width, where it accepts the write; every other register, the status bits and every byte
of memory are as before; `pc` is the next address. -/
def WritesReg (s t : State) (c : Reg) (v : Word) : Prop :=
  (∀ r : Reg, t.regs.get r = if r = c ∧ s.accepts c = true then trim s.cfg v else s.regs.get r) ∧
    t.pc = s.nextPc ∧ t.sr = s.sr ∧ SameMemory s t ∧ SameModel s t

/-- `t` is `s` but for register `c`, which has the value `v`, cut to the register width, where it accepts the write
(R26), and for its program counter, of which nothing is said. -/
def Leaves (s t : State) (c : Reg) (v : Word) : Prop :=
  (∀ r : Reg, t.regs.get r = if r = c ∧ s.accepts c = true then trim s.cfg v else s.regs.get r) ∧
    t.sr = s.sr ∧ SameMemory s t ∧ SameModel s t

/-- `t` is `s` but for its program counter. -/
def OnlyPc (s t : State) (pc : Addr) : Prop :=
  t.pc = pc ∧ SameRegs s t ∧ t.sr = s.sr ∧ SameMemory s t ∧ SameModel s t

/-- `v` is a register value whose low 32 bits are `r`, and whose upper bits, on a 64-bit machine, are what the parameter
says (R271, R272): nothing is said of them where it is `any`. -/
def Narrow (s : State) (fill : UpperFill) (old : Word) (r : BitVec 32) (v : Word) : Prop :=
  v.setWidth 32 = r ∧
    (s.cfg.extQ = true → fill = .zero → v.extractLsb' 32 32 = 0) ∧
    (s.cfg.extQ = true → fill = .sign → v.extractLsb' 32 32 = if r.msb then BitVec.allOnes 32 else 0) ∧
    (s.cfg.extQ = true → fill = .keep → v.extractLsb' 32 32 = old.extractLsb' 32 32)

/-- `v` is the value a result computed at an operating width leaves in register `c` (R190, R262, R271): at 64 bits the
64-bit result `r64`, at 32 bits a value whose low 32 bits are the 32-bit result `r32`. -/
def ResultValue (s : State) (w : Width) (c : Reg) (r64 : Word) (r32 : BitVec 32) (v : Word) : Prop :=
  match w with
  | .w64 => v = r64
  | .w32 => Narrow s s.cfg.q0Upper (s.readReg c) r32 v

/-- The instruction completes, and all it does is to leave in register `c` a result computed at width `w`. -/
def Computes (i : Instr) (s : State) (w : Width) (c : Reg) (r64 : Word) (r32 : BitVec 32) : Prop :=
  ∃ t v, exec i s = .next t ∧ WritesReg s t c v ∧ ResultValue s w c r64 r32 v

/-- The lower half of a register value: what a 32-bit operation sees (R271). -/
def low (v : Word) : BitVec 32 := v.setWidth 32

/-- Memory answers at an address of the address space (R60, R78). -/
def Backed (c : Config) (a : Nat) : Prop := a < 2 ^ c.aw ∧ ∃ r ∈ c.backed, r.base ≤ a ∧ a < r.base + r.size

/-- An access of `sz` at `a` passes every check (R66, R78): it is aligned, or misaligned accesses are not refused; and the
bytes it is made of are not in `$vm` in user mode, are not to be translated, and memory answers each of them. -/
def Admitted (s : State) (a : Addr) (sz : Size) : Prop :=
  (a.toNat % sz.bytes = 0 ∨ s.cfg.misaligned ≠ .refuse) ∧
    (s.sr.k = true ∨ s.cfg.vmUserAccess = .ignore ∨ 0xFFFFF < (s.accessBase a sz).toNat) ∧
    (s.sr.p = false ∨ s.cfg.extP = false) ∧
    ∀ k < sz.bytes, Backed s.cfg ((s.accessBase a sz).toNat + k)

/-- The stop the spec names for an access that is not admitted: the first that applies of a misaligned address, `$vm` in
user mode and a translation (R66, R67), and an address without memory last (R78; that it comes last is the model's choice,
log entry 36). -/
def firstStop (s : State) (a : Addr) (sz : Size) : Stop :=
  if a.toNat % sz.bytes ≠ 0 ∧ s.cfg.misaligned = .refuse then .refused (.misalignedAccess a sz)
  else if s.sr.k = false ∧ s.cfg.vmUserAccess = .refuse ∧ (s.accessBase a sz).toNat ≤ 0xFFFFF then
    .refused (.vmUserAccess (s.accessBase a sz))
  else if s.sr.p = true ∧ s.cfg.extP = true then .refused (.translationNotSpecified (s.accessBase a sz))
  else .fault (.unbacked (s.accessBase a sz))

/-- `v` is the 64-bit value of the immediate `i` (R113): its low half is `i`, and so is the whole, but for the upper half
where `IMM_EXT_64` of a 64-bit machine says otherwise (R272): zero, or nothing said. -/
def ImmValue (s : State) (i : Int) (v : Word) : Prop :=
  low v = BitVec.ofInt 32 i ∧
    (s.cfg.extQ = false ∨ s.cfg.immExt64 = .same → v = BitVec.ofInt 64 i) ∧
    (s.cfg.extQ = true → s.cfg.immExt64 = .zero → v.extractLsb' 32 32 = 0)

/-- An immediate as an integer, by the extension its parameter says (R113, D8). -/
def immInt (ext : ImmExt) {n : Nat} (imm : BitVec n) : Int :=
  match ext with
  | .zero => imm.toNat
  | .sign => imm.toInt

/-- The byte of an `n`-byte value that stands `k` bytes above its address (R64). -/
def byteAt (o : ByteOrder) (n : Nat) (v : Word) (k : Nat) : Byte :=
  match o with
  | .little => v.extractLsb' (8 * k) 8
  | .big => v.extractLsb' (8 * (n - 1 - k)) 8

/-- The instruction completes, and all it does is to store the low bytes of `v` at `a`, in the machine's byte order
(R64, R67), from the address the access is made from: every other byte of memory, every register and the status bits are
as before. -/
def StoresAt (i : Instr) (s : State) (a : Addr) (sz : Size) (v : Word) : Prop :=
  ∃ t, exec i s = .next t ∧
    (∀ k < sz.bytes, t.mem.read ((s.accessBase a sz).toNat + k) = byteAt s.cfg.endian sz.bytes v k) ∧
    (∀ x : Nat, x < (s.accessBase a sz).toNat ∨ (s.accessBase a sz).toNat + sz.bytes ≤ x → t.mem.read x = s.mem.read x) ∧
    t.pc = s.nextPc ∧ SameRegs s t ∧ t.sr = s.sr ∧ SameModel s t

/-- `v` is what a load of `sz` at `a` makes of the old register value (R64, R153): its named bits are those of the bytes
in memory, and the others are what `LOAD_EXT` says. -/
def LoadedValue (s : State) (a : Addr) (sz : Size) (old v : Word) : Prop :=
  (∀ k < sz.bytes, s.mem.read ((s.accessBase a sz).toNat + k) = byteAt s.cfg.endian sz.bytes v k) ∧
    ∀ i < 64, 8 * sz.bytes ≤ i → v.getLsbD i =
      match s.cfg.loadExt with
      | .zero => false
      | .sign => v.getLsbD (8 * sz.bytes - 1)
      | .merge => old.getLsbD i

/-- The instruction completes, and all it does is to leave in register `c` the value loaded from `a`. -/
def LoadsFrom (i : Instr) (s : State) (c : Reg) (a : Addr) (sz : Size) : Prop :=
  ∃ t v, exec i s = .next t ∧ WritesReg s t c v ∧ LoadedValue s a sz (s.readReg c) v

/-- The 8-byte value at a vector (R76). -/
def vectorValue (s : State) (vec : Addr) : Nat :=
  (ofBytes s.cfg.endian (s.mem.readBytes (s.accessBase vec .qword).toNat 8)).toNat

/-- `v` is a register value that holds the return address in bits `AW - 1` to 0; its upper bits, on a 64-bit machine, are
what `IRD_WIDTH` says (R272): nothing is said of them where it is `any`. -/
def HoldsReturn (s : State) (ret : Addr) (v : Word) : Prop :=
  trim s.cfg v = v ∧ (∀ i < 32, v.getLsbD i = ret.getLsbD i) ∧
    (s.cfg.extQ = true → (∀ i < s.cfg.aw, v.getLsbD i = ret.getLsbD i) ∧
      ∀ i < 64, s.cfg.aw ≤ i →
        match s.cfg.irdUpper with
        | .zero => v.getLsbD i = false
        | .sign => v.getLsbD i = ret.getLsbD (s.cfg.aw - 1)
        | .keep => v.getLsbD i = (s.regs.get .ird).getLsbD i
        | .any => True)

/-- `t` is `s` after trap entry (R314): IRD holds the return address, K is set, `pc` is the low bits of the vector, as
many as `VEC_BITS` says; every other register, I, P, Q and every byte of memory are as before. -/
def Enters (s t : State) (vec ret : Addr) : Prop :=
  HoldsReturn s ret (t.regs.get .ird) ∧ (∀ r : Reg, r ≠ .ird → t.regs.get r = s.regs.get r) ∧
    t.sr = ⟨true, s.sr.i, s.sr.p, s.sr.q⟩ ∧ t.pc.toNat = vectorValue s vec % 2 ^ s.cfg.vectorBits ∧
    SameMemory s t ∧ t.cfg = s.cfg

/-- The read of a vector that trap entry makes, with K = 1, passes every check (R76, R314). -/
def VectorReadable (s : State) (vec : Addr) : Prop := Admitted { s with sr := { s.sr with k := true } } vec .qword

/-- The shift or rotation instruction of an operation (R210). -/
def shiftOf (op : ShiftOp) (c a : Reg) (n : BitVec 14) : Instr :=
  match op with
  | .shr => .shr c a n
  | .asr => .asr c a n
  | .shl => .shl c a n
  | .asl => .asl c a n
  | .ror => .ror c a n
  | .rol => .rol c a n

/-- Whether a division has a result (R283): the divisor is not zero, and not -1 under the most negative dividend. -/
def Divides {w : Nat} (a b : BitVec w) : Prop := b.toInt ≠ 0 ∧ ¬ (a.toInt = -(2 ^ (w - 1) : Int) ∧ b.toInt = -1)

/-- `q` is the quotient of `a` by `b` as integers, where there is one (R282, R285). -/
def IsQuotient (r : DivRound) {w : Nat} (a b q : BitVec w) : Prop :=
  Divides a b → q.toInt =
    match r with
    | .trunc => a.toInt.tdiv b.toInt
    | .floor => a.toInt.fdiv b.toInt

/-- `m` is the remainder of `a` by `b` as integers, where there is one (R282, R286). -/
def IsRemainder (r : DivRound) {w : Nat} (a b m : BitVec w) : Prop :=
  Divides a b → m.toInt =
    match r with
    | .trunc => a.toInt.tmod b.toInt
    | .floor => a.toInt.fmod b.toInt

/-- Bit `i` of a `w`-bit value `x` shifted or rotated by `n` (R212 to R217). -/
def shiftedBit (op : ShiftOp) {w : Nat} (x : BitVec w) (n i : Nat) : Bool :=
  match op with
  | .shr => if i + n < w then x.getLsbD (i + n) else false
  | .asr => if i + n < w then x.getLsbD (i + n) else x.getLsbD (w - 1)
  | .shl => if n ≤ i then x.getLsbD (i - n) else false
  | .asl => if n ≤ i then x.getLsbD (i - n) else false
  | .ror => x.getLsbD ((i + n) % w)
  | .rol => x.getLsbD ((i + w - n) % w)

/-- `r` is `x` shifted or rotated by `k`, in every form the rule of the operation gives (R212 to R217): as arithmetic,
bit by bit, and for a rotation as two shifts. -/
def ShiftResult (op : ShiftOp) {w : Nat} (x r : BitVec w) (k : Nat) : Prop :=
  match op with
  | .shr =>
    r.toNat = x.toNat / 2 ^ k ∧ ∀ i < w, r.getLsbD i = if i + k ≤ w - 1 then x.getLsbD (i + k) else false
  | .asr =>
    r.toInt = x.toInt / 2 ^ k ∧ ∀ i < w, r.getLsbD i = if i + k ≤ w - 1 then x.getLsbD (i + k) else x.getLsbD (w - 1)
  | .shl | .asl =>
    r.toNat = x.toNat * 2 ^ k % 2 ^ w ∧ ∀ i < w, r.getLsbD i = if k ≤ i then x.getLsbD (i - k) else false
  | .ror =>
    (∀ i < w, r.getLsbD i = x.getLsbD ((i + k) % w)) ∧ (k = 0 → r = x) ∧
      (0 < k → r = (x >>> k) ||| (x <<< (w - k)))
  | .rol =>
    (∀ i < w, r.getLsbD i = x.getLsbD ((i + w - k) % w)) ∧ (k = 0 → r = x) ∧
      (0 < k → r = (x <<< k) ||| (x >>> (w - k)) ∧ r = x.rotateRight (w - k))

/-- The low bits of `v`, as many as the operating width has, are the result computed at that width (R8, R262). -/
def LowResult (w : Width) (r64 : Word) (r32 : BitVec 32) (v : Word) : Prop :=
  match w with
  | .w64 => v = r64
  | .w32 => low v = r32

/-- What a conditional jump tests, as a relation between the register values (R172). -/
def Relation (isBorrow : Bool) (f : Cond) {w : Nat} (a b : BitVec w) : Prop :=
  match f with
  | .z => a = b
  | .c => if isBorrow then a.toNat < b.toNat else b.toNat ≤ a.toNat
  | .s => (a - b).toInt < 0
  | .v => a.toInt - b.toInt < -(2 ^ (w - 1) : Int) ∨ (2 ^ (w - 1) : Int) ≤ a.toInt - b.toInt

/-- What a conditional jump tests of its registers A and B, at the width of the comparison (R172, R262). -/
def Tests (s : State) (f : Cond) (a b : Reg) : Prop :=
  match s.compareWidth with
  | .w64 => Relation s.cfg.cIsBorrow f (s.readReg a) (s.readReg b)
  | .w32 => Relation s.cfg.cIsBorrow f (low (s.readReg a)) (low (s.readReg b))

/-- The instruction completes, and all it does is to go to the target where `p` holds and to the next address where it
does not (R170). -/
def JumpsWhen (i : Instr) (s : State) (p : Prop) (target : Addr) : Prop :=
  ∃ t, exec i s = .next t ∧ (p → OnlyPc s t target) ∧ (¬ p → OnlyPc s t s.nextPc)

/-- A status bit by its name (R35). -/
def statusBit (st : Status) : StatusBit → Bool
  | .k => st.k
  | .i => st.i
  | .p => st.p
  | .q => st.q

/-- The register an instruction writes (R10, R112): field C of all but stores, jumps and system instructions. -/
def dest : Instr → Option Reg
  | .add c _ _ | .sub c _ _ | .and c _ _ | .or c _ _ | .xor c _ _ | .mul c _ _ | .div c _ _ | .mod c _ _ => some c
  | .addi c _ _ | .subi c _ _ | .andi c _ _ | .ori c _ _ | .xori c _ _ => some c
  | .muli c _ _ | .divi c _ _ | .modi c _ _ => some c
  | .shr c _ _ | .asr c _ _ | .shl c _ _ | .asl c _ _ | .ror c _ _ | .rol c _ _ => some c
  | .mvu c _ | .mvuHh c _ | .mvuHl c _ => some c
  | .ldb c _ _ | .ldw c _ _ | .ldd c _ _ | .ldq c _ _ => some c
  | .stb .. | .stw .. | .std .. | .stq .. | .jmp .. => none
  | .jz .. | .jc .. | .js .. | .jv .. | .jnz .. | .jnc .. | .jns .. | .jnv .. => none
  | .csb _ | .ssb _ | .urt | .syscal => none

/-- The four system instructions (R230 to R233). -/
def isSystem : Instr → Bool
  | .csb _ => true
  | .ssb _ => true
  | .urt => true
  | .syscal => true
  | _ => false

/-- The four instructions that write memory (R63). -/
def isStore : Instr → Bool
  | .stb .. => true
  | .stw .. => true
  | .std .. => true
  | .stq .. => true
  | _ => false

/-- A word that is a reserved encoding of the implementation in every mode: a row of R120's table, where the row of the
shift counts is taken at the widest operating width `W` of the implementation (R100: no mode bit changes the decoding). A
count that is reserved in one mode only is not in it, and is the meaning's to refuse. DESIGN CHOICE (log entry 19). -/
def ReservedWord (c : Config) (w : BitVec 32) : Prop :=
  let op := (w.extractLsb' 27 5).toNat
  13 ≤ op ∨
    ((op = 11 ∨ op = 12) ∧ c.extQ = false) ∨
    ((op = 4 ∨ op = 5) ∧ w.extractLsb' 15 2 = 3 ∧ c.extQ = false) ∨
    (op = 0 ∧ 5 ≤ (w.extractLsb' 9 3).toNat ∧ c.extM = false) ∨
    (op = 1 ∧ 5 ≤ (w.extractLsb' 14 3).toNat ∧ c.extM = false) ∨
    (op = 2 ∧ 6 ≤ (w.extractLsb' 14 3).toNat) ∨
    (op = 2 ∧ c.shiftOver = .refuse ∧ c.shiftBound ≤ (w.extractLsb' 0 14).toNat) ∨
    (op = 8 ∧ 2 ≤ (w.extractLsb' 22 5).toNat) ∨
    (op = 8 ∧ 4 ≤ (w.extractLsb' 0 22).toNat % 2 ^ (c.fn2Hi.val + 1) / 2 ^ c.fn2Lo.val) ∨
    (c.unusedBits = .refuse ∧
      ((op = 0 ∧ w.extractLsb' 0 9 ≠ 0) ∨ (op = 6 ∧ w.extractLsb' 15 7 ≠ 0) ∨
        ((op = 9 ∨ op = 10) ∧ w.extractLsb' 0 27 ≠ 0) ∨
        (op = 8 ∧ ((w.extractLsb' 0 22).toNat / 2 ^ (c.fn2Hi.val + 1) ≠ 0 ∨
          (w.extractLsb' 0 22).toNat % 2 ^ c.fn2Lo.val ≠ 0))))

end Sys2Proof.Machine
end

