-- ==== Sys2Proof/Certificates/Slice0/Obligations.lean ====
section
/-! DEFINITION. The statements of the row, from the numbered rules of `spec/`: encoding, the step, memory, loads and
stores, the ALU, shifts, moves, jumps, system instructions, traps and reset, and the whole machine. A statement is about
every state, whatever the implementation parameters in its field `cfg`, unless it names one. A clause that rests on a
decision of the spec or on a choice of the model names the decision or the log entry in its docstring. -/

open Sys2Proof Sys2Proof.Machine

/-! ## Encoding -/

/-- R124: decoding the word of a well-formed instruction gives the instruction back, for every instruction, every
operand and every implementation. -/
def Obligations.DecodeInvertsEncode : Prop :=
  ∀ (c : Config) (i : Instr), WellFormed c i = true → decodeWord c (encode c i) = .ok i

/-- R120, R211: the decoder answers only instructions the implementation has, with a count that some mode admits (log
entry 19). -/
def Obligations.DecodedIsWellFormed : Prop :=
  ∀ (c : Config) (w : BitVec 32) (i : Instr), decodeWord c w = .ok i → WellFormed c i = true

/-- R114: where non-zero unused bits are reserved (decision D13), an instruction has one word only. -/
def Obligations.EncodeInvertsDecode : Prop :=
  ∀ (c : Config) (w : BitVec 32) (i : Instr), c.unusedBits = .refuse → decodeWord c w = .ok i → encode c i = w

/-- R64, R68: the bytes of an instruction, laid out in the machine's byte order, decode to it and leave what follows. -/
def Obligations.EncodedBytesDecode : Prop :=
  ∀ (c : Config) (i : Instr) (rest : List Byte), WellFormed c i = true →
    decodeBytes c (encodeBytes c i ++ rest) = .ok (i, rest)

/-- R120, R124: a word is rejected exactly when it is reserved in every mode. For the shift counts this is the model's
choice and not the table's row (log entry 19): on a machine with the 64-bit extension whose shifts Q widens, the decoder
rejects counts from 64 up, and a count of 32 to 63, which the table lists while Q = 0, decodes and is refused by the
meaning (`ShiftCountTooLarge`). -/
def Obligations.RejectedWordsAreReserved : Prop :=
  ∀ (c : Config) (w : BitVec 32), (∃ r, decodeWord c w = .error r) ↔ ReservedWord c w

/-- Words written out in the examples of the instruction rules decode to the instructions they are written for. -/
def Obligations.SpecWordsDecode : Prop :=
  decodeWord Config.reference 0x00C22000 = .ok (.add (.g 2) (.g 0) (.g 1)) ∧
    decodeWord Config.reference 0x0EB44004 = .ok (.subi .sp .sp 4) ∧
    decodeWord Config.reference 0x00C22E00 = .ok (.mod (.g 2) (.g 0) (.g 1)) ∧
    decodeWord Config.reference 0x08837FFD = .ok (.muli (.g 1) (.g 0) (-3)) ∧
    decodeWord Config.reference 0x10824004 = .ok (.asr (.g 1) (.g 0) 4) ∧
    decodeWord Config.reference 0x18448D15 = .ok (.mvu (.g 0) 0x48D15) ∧
    decodeWord Config.reference 0x20868006 = .ok (.stw (.g 1) (.g 2) 6) ∧
    decodeWord Config.reference 0x28B50000 = .ok (.ldd (.g 1) .sp 0) ∧
    decodeWord Config.reference 0x37C07FF8 = .ok (.jmp .pc (-8)) ∧
    decodeWord Config.reference 0x3FC223F0 = .ok (.jc .pc (.g 0) (.g 1) (-16)) ∧
    decodeWord Config.reference 0x40420000 = .ok (.ssb .i) ∧
    decodeWord Config.reference 0x48000000 = .ok .urt ∧
    decodeWord Config.reference 0x50000000 = .ok .syscal ∧
    decodeWord Config.launch 0x28758008 = .ok (.ldq (.g 0) .sp 8) ∧
    decodeWord Config.launch 0x60523456 = .ok (.mvuHl (.g 0) 0x123456)

/-- R123, which the spec derives: the all-zero word is `ADD ZR, ZR, ZR`, which only goes on to the next address; the
all-ones word is reserved. -/
def Obligations.ZeroWordIsNoOperation : Prop :=
  ∀ s : State, decodeWord s.cfg 0 = .ok (.add .zr .zr .zr) ∧
    (∃ t, exec (.add .zr .zr .zr) s = .next t ∧ OnlyPc s t s.nextPc) ∧
    decodeWord s.cfg (BitVec.allOnes 32) = .error .opcode

/-- R102, R103, R104, R106, R108: the fields of a word of formats 1, 2, 3, 5 and 7 stand at the bits of their tables, and
the word is the sum of its fields, each times its place. -/
def Obligations.FormatWords : Prop :=
  ∀ (op a b : BitVec 5) (c : Reg) (fn2 : BitVec 2) (fn3 : BitVec 3) (i22 : BitVec 22) (i15 : BitVec 15)
      (i9 : BitVec 9) (i14 : BitVec 14),
    ((encFormat1 op c i22).toNat = op.toNat * 2 ^ 27 + c.toBits.toNat * 2 ^ 22 + i22.toNat ∧
      (encFormat1 op c i22).extractLsb' 27 5 = op ∧ (encFormat1 op c i22).extractLsb' 22 5 = c.toBits ∧
      (encFormat1 op c i22).extractLsb' 0 22 = i22) ∧
    ((encFormat2 op c (.ofBits a) fn2 i15).toNat =
        op.toNat * 2 ^ 27 + c.toBits.toNat * 2 ^ 22 + a.toNat * 2 ^ 17 + fn2.toNat * 2 ^ 15 + i15.toNat ∧
      (encFormat2 op c (.ofBits a) fn2 i15).extractLsb' 27 5 = op ∧
      (encFormat2 op c (.ofBits a) fn2 i15).extractLsb' 22 5 = c.toBits ∧
      (encFormat2 op c (.ofBits a) fn2 i15).extractLsb' 17 5 = a ∧
      (encFormat2 op c (.ofBits a) fn2 i15).extractLsb' 15 2 = fn2 ∧
      (encFormat2 op c (.ofBits a) fn2 i15).extractLsb' 0 15 = i15 ∧
      ∀ cfg : Config, encode cfg (.jmp c i15) = encFormat2 6 c .zr 0 i15) ∧
    ((encFormat3 op c (.ofBits a) (.ofBits b) fn3 i9).toNat =
        op.toNat * 2 ^ 27 + c.toBits.toNat * 2 ^ 22 + a.toNat * 2 ^ 17 + b.toNat * 2 ^ 12 + fn3.toNat * 2 ^ 9 +
          i9.toNat ∧
      (encFormat3 op c (.ofBits a) (.ofBits b) fn3 i9).extractLsb' 27 5 = op ∧
      (encFormat3 op c (.ofBits a) (.ofBits b) fn3 i9).extractLsb' 22 5 = c.toBits ∧
      (encFormat3 op c (.ofBits a) (.ofBits b) fn3 i9).extractLsb' 17 5 = a ∧
      (encFormat3 op c (.ofBits a) (.ofBits b) fn3 i9).extractLsb' 12 5 = b ∧
      (encFormat3 op c (.ofBits a) (.ofBits b) fn3 i9).extractLsb' 9 3 = fn3 ∧
      (encFormat3 op c (.ofBits a) (.ofBits b) fn3 i9).extractLsb' 0 9 = i9) ∧
    ((encFormat5 op c (.ofBits a) fn3 i14).toNat =
        op.toNat * 2 ^ 27 + c.toBits.toNat * 2 ^ 22 + a.toNat * 2 ^ 17 + fn3.toNat * 2 ^ 14 + i14.toNat ∧
      (encFormat5 op c (.ofBits a) fn3 i14).extractLsb' 27 5 = op ∧
      (encFormat5 op c (.ofBits a) fn3 i14).extractLsb' 22 5 = c.toBits ∧
      (encFormat5 op c (.ofBits a) fn3 i14).extractLsb' 17 5 = a ∧
      (encFormat5 op c (.ofBits a) fn3 i14).extractLsb' 14 3 = fn3 ∧
      (encFormat5 op c (.ofBits a) fn3 i14).extractLsb' 0 14 = i14) ∧
    ((encFormat7 op).toNat = op.toNat * 2 ^ 27 ∧ (encFormat7 op).extractLsb' 27 5 = op ∧
      (encFormat7 op).extractLsb' 0 27 = 0)

/-! ## The step -/

/-- R303: at a boundary without a reset and without a hardware interrupt that is taken, where the four bytes at `pc` (at
the address `MISALIGNED` gives, where `pc` is misaligned and fetched nevertheless: log entry 11) may be fetched and decode to an instruction, the step is that instruction, run on the state whose boundary sample is
consumed; nothing else is done around it (log entries 8 and 38 for the two fields of the model's own). -/
def Obligations.StepRunsInstructionAtPc : Prop :=
  ∀ (s : State) (i : Instr) (rest : List Byte), s.sample.reset = false →
    s.takesInterrupt s.sample.irq = false → Admitted s s.pc .dword →
    decodeBytes s.cfg (s.mem.readBytes (s.accessBase s.pc .dword).toNat 4) = .ok (i, rest) →
    WellFormed s.cfg i = true ∧
      step s = exec i { s with inputs := s.inputs.tail, freeIdx := s.freeIdx + 1 }

/-- R64, R68, R88: a well-formed instruction whose word is stored where `pc` is fetched is the one the next step runs;
storing it changes no other byte and nothing else of the machine. -/
def Obligations.StoredInstructionRunsNext : Prop :=
  ∀ (s : State) (i : Instr), WellFormed s.cfg i = true → Admitted s s.pc .dword →
    let t := s.withFetchWord 32 (encode s.cfg i).toNat
    let b := (s.accessBase s.pc .dword).toNat
    step t = exec i t.beginStep ∧
      (∀ a : Nat, a < b ∨ b + 4 ≤ a → t.mem.read a = s.mem.read a) ∧
      t.regs = s.regs ∧ t.pc = s.pc ∧ t.sr = s.sr ∧ t.cfg = s.cfg

/-- R303: the four refusals of an instruction fetch, in their order: a misaligned `pc` where `MISALIGNED` is refuse, `$vm`
in user mode, a fetch that would be translated, a reserved encoding (decisions D3, D14, D23, D24; log entry 11 for the
address a misaligned fetch is made from). -/
def Obligations.FetchRefusals : Prop :=
  ∀ s : State, s.sample.reset = false → s.takesInterrupt s.sample.irq = false →
    let b := s.accessBase s.pc .dword
    (s.pc.toNat % 4 ≠ 0 → s.cfg.misaligned = .refuse → step s = .refused (.misalignedPc s.pc)) ∧
    (s.pc.toNat % 4 = 0 → b = s.pc) ∧
    (s.pc.toNat % 4 = 0 ∨ s.cfg.misaligned ≠ .refuse →
      (s.sr.k = false → s.cfg.vmUserAccess = .refuse → b.toNat ≤ 0xFFFFF → step s = .refused (.vmUserAccess b)) ∧
      ((s.sr.k = true ∨ s.cfg.vmUserAccess = .ignore ∨ 0xFFFFF < b.toNat) → s.sr.p = true → s.cfg.extP = true →
        step s = .refused (.translationNotSpecified b))) ∧
    (Admitted s s.pc .dword →
      ∀ r : Reserved, decodeWord s.cfg ((ofBytes s.cfg.endian (s.mem.readBytes b.toNat 4)).setWidth 32) = .error r →
        step s = .refused (.reservedEncoding r))

/-! ## Memory -/

/-- Two memories in canonical form that read the same at every address are the same data (log entry 5). -/
def Obligations.CanonicalMemoriesEqual : Prop :=
  ∀ m m' : Memory, m.wf = true → m'.wf = true → (∀ a : Nat, m.read a = m'.read a) → m = m'

/-- R64, R67: an admitted write stores the bytes of its value in the machine's byte order, leaves every other byte, and
changes nothing but memory. -/
def Obligations.WriteStoresItsBytes : Prop :=
  ∀ (s : State) (a : Addr) (sz : Size) (v : Word), Admitted s a sz →
    ∃ m : Memory, s.memWrite a sz v = .ok { s with mem := m } ∧
      (∀ k < sz.bytes, m.read ((s.accessBase a sz).toNat + k) = byteAt s.cfg.endian sz.bytes v k) ∧
      (∀ x : Nat, x < (s.accessBase a sz).toNat ∨ (s.accessBase a sz).toNat + sz.bytes ≤ x → m.read x = s.mem.read x)

/-- R66, R85: reading back what was just written gives its low bytes and zeros above, in either byte order. -/
def Obligations.ReadAfterWrite : Prop :=
  ∀ (s t : State) (a : Addr) (sz : Size) (v : Word), s.memWrite a sz v = .ok t →
    ∃ r : Word, t.memRead a sz = .ok r ∧
      ∀ i < 64, r.getLsbD i = (decide (i < 8 * sz.bytes) && v.getLsbD i)

/-- R64: after a double-word is stored, the four bytes and, where they are aligned, the two words inside it read as the
byte order says (decision D2: both orders are stated). -/
def Obligations.MixedWidthReads : Prop :=
  ∀ (s t : State) (a : Addr) (v : Word), s.memWrite a .dword v = .ok t →
    let b := s.accessBase a .dword
    (s.cfg.endian = .little →
      (∀ k < 4, t.memRead (b + BitVec.ofNat 36 k) .byte = .ok ((v.extractLsb' (8 * k) 8).setWidth 64)) ∧
      (b.toNat % 2 = 0 →
        ∀ k < 2, t.memRead (b + BitVec.ofNat 36 (2 * k)) .word = .ok ((v.extractLsb' (16 * k) 16).setWidth 64))) ∧
    (s.cfg.endian = .big →
      (∀ k < 4, t.memRead (b + BitVec.ofNat 36 k) .byte = .ok ((v.extractLsb' (8 * (3 - k)) 8).setWidth 64)) ∧
      (b.toNat % 2 = 0 → ∀ k < 2, t.memRead (b + BitVec.ofNat 36 (2 * k)) .word =
        .ok ((v.extractLsb' (16 * (1 - k)) 16).setWidth 64)))

/-- R66, R67, R78: which accesses of memory stop, and where: each condition on the state and the address is a stop of a
read and of a write alike, the first that applies in the order of the checks, and an access none of them applies to
completes (decisions D3, D23, D24, D35). That an address without memory is checked last is the model's choice (log
entry 36), and so is the address a misaligned access is made from where it is not refused (log entry 11). -/
def Obligations.AccessRefusals : Prop :=
  ∀ (s : State) (a : Addr) (sz : Size) (v : Word),
    let b := s.accessBase a sz
    let misaligned := a.toNat % sz.bytes ≠ 0 ∧ s.cfg.misaligned = .refuse
    let inVm := s.sr.k = false ∧ s.cfg.vmUserAccess = .refuse ∧ b.toNat ≤ 0xFFFFF
    let translated := s.sr.p = true ∧ s.cfg.extP = true
    let absent := ∃ k < sz.bytes, ¬ Backed s.cfg (b.toNat + k)
    let stops := fun e : Stop => s.memRead a sz = .error e ∧ s.memWrite a sz v = .error e
    (misaligned → stops (.refused (.misalignedAccess a sz))) ∧
    (¬ misaligned → inVm → stops (.refused (.vmUserAccess b))) ∧
    (¬ misaligned → ¬ inVm → translated → stops (.refused (.translationNotSpecified b))) ∧
    (¬ misaligned → ¬ inVm → ¬ translated → absent → stops (.fault (.unbacked b))) ∧
    (¬ misaligned → ¬ inVm → ¬ translated → ¬ absent →
      (∃ r, s.memRead a sz = .ok r) ∧ ∃ t, s.memWrite a sz v = .ok t)

/-- R31, R65, R113, R150, R170: the addresses the machine computes, modulo the size of the address space: the next
instruction, a load or store by the extension of its displacement (decision D8), a jump (decisions D5, D10). They are sums
of integers where immediates extend to 64 bits by their rule, and sums with the immediate `IMM_EXT_64` gives in any case
(R272). The address an access is made from: the one it names where that is aligned; else the aligned one below it, or the
one it names, where `MISALIGNED` says so (the model's choice, log entry 11). -/
def Obligations.AddressesWrap : Prop :=
  ∀ (s : State) (r : Reg) (d : BitVec 15),
    s.nextPc.toNat = (s.pc.toNat + 4) % 2 ^ s.cfg.aw ∧
    (∃ v, ImmValue s (immInt s.cfg.immExtMem d) v ∧
      (s.ea r d).toNat = ((s.readReg r).toNat + v.toNat) % 2 ^ s.cfg.aw) ∧
    (∀ (n : Nat) (offset : BitVec n), n ≤ 32 → ∃ v, ImmValue s offset.toInt v ∧
      (s.target r (s.immSigned offset)).toNat = ((s.readReg r).toNat + v.toNat) % 2 ^ s.cfg.aw) ∧
    (s.cfg.extQ = false ∨ s.cfg.immExt64 = .same →
      ((s.ea r d).toNat : Int) =
        (((s.readReg r).toNat : Int) + immInt s.cfg.immExtMem d) % (2 ^ s.cfg.aw : Int) ∧
      ∀ (n : Nat) (offset : BitVec n), n ≤ 32 →
        ((s.target r (s.immSigned offset)).toNat : Int) =
          (((s.readReg r).toNat : Int) + offset.toInt) % (2 ^ s.cfg.aw : Int)) ∧
    (∀ (a : Addr) (sz : Size),
      (a.toNat % sz.bytes = 0 → s.accessBase a sz = a) ∧
      (s.cfg.misaligned = .alignDown → (s.accessBase a sz).toNat = a.toNat - a.toNat % sz.bytes) ∧
      (s.cfg.misaligned = .straddle → s.accessBase a sz = a))

/-! ## Loads and stores -/

/-- R152, R154, R155, R156, R263: STB, STW, STD and STQ complete where the access is admitted, store the low bytes of C
at the effective address, and leave every other byte, every register and the status bits (STQ with Q = 0 only where
`LDST_Q_GATED` does not hold, R272). -/
def Obligations.StoresWriteMemory : Prop :=
  ∀ (s : State) (c a : Reg) (imm : BitVec 15),
    (Admitted s (s.ea a imm) .byte → StoresAt (.stb c a imm) s (s.ea a imm) .byte (s.readReg c)) ∧
    (Admitted s (s.ea a imm) .word → StoresAt (.stw c a imm) s (s.ea a imm) .word (s.readReg c)) ∧
    (Admitted s (s.ea a imm) .dword → StoresAt (.std c a imm) s (s.ea a imm) .dword (s.readReg c)) ∧
    (Admitted s (s.ea a imm) .qword → s.quadGated = false →
      StoresAt (.stq c a imm) s (s.ea a imm) .qword (s.readReg c))

/-- R152, R153, R157, R158, R159, R264: LDB, LDW, LDD and LDQ complete where the access is admitted and the write of
their destination is not refused, and all they do is to write it: the bits they name come from memory, the others are
what `LOAD_EXT` says (decision D9). A destination that accepts no write keeps its value (decision D33). -/
def Obligations.LoadsWriteRegister : Prop :=
  ∀ (s : State) (c a : Reg) (imm : BitVec 15), s.refusesWrite c = false →
    (Admitted s (s.ea a imm) .byte → LoadsFrom (.ldb c a imm) s c (s.ea a imm) .byte) ∧
    (Admitted s (s.ea a imm) .word → LoadsFrom (.ldw c a imm) s c (s.ea a imm) .word) ∧
    (Admitted s (s.ea a imm) .dword → LoadsFrom (.ldd c a imm) s c (s.ea a imm) .dword) ∧
    (Admitted s (s.ea a imm) .qword → s.quadGated = false → LoadsFrom (.ldq c a imm) s c (s.ea a imm) .qword)

/-- R152: a load or store whose access is not admitted has no next state, and stops with the first stop that applies to
its address (log entries 11 and 36 for what of it the model chose); STQ, LDQ, MVU.HH and MVU.HL are reserved with Q = 0
where `LDST_Q_GATED` holds (R272; log entry 42). -/
def Obligations.StoppedLoadsAndStores : Prop :=
  ∀ (s : State) (c a : Reg) (imm : BitVec 15) (up : BitVec 22),
    let stop := fun sz : Size => outcomeOf (.error (firstStop s (s.ea a imm) sz))
    (¬ Admitted s (s.ea a imm) .byte →
      exec (.stb c a imm) s = stop .byte ∧ exec (.ldb c a imm) s = stop .byte) ∧
    (¬ Admitted s (s.ea a imm) .word →
      exec (.stw c a imm) s = stop .word ∧ exec (.ldw c a imm) s = stop .word) ∧
    (¬ Admitted s (s.ea a imm) .dword →
      exec (.std c a imm) s = stop .dword ∧ exec (.ldd c a imm) s = stop .dword) ∧
    (¬ Admitted s (s.ea a imm) .qword → s.quadGated = false →
      exec (.stq c a imm) s = stop .qword ∧ exec (.ldq c a imm) s = stop .qword) ∧
    (s.cfg.ldstQGated = true → s.sr.q = false →
      exec (.stq c a imm) s = .refused (.reservedEncoding .needsQ) ∧
        exec (.ldq c a imm) s = .refused (.reservedEncoding .needsQ) ∧
        exec (.mvuHh c up) s = .refused (.reservedEncoding .needsQ) ∧
        exec (.mvuHl c up) s = .refused (.reservedEncoding .needsQ))

/-! ## Arithmetic and logic -/

/-- R262: opcodes 0 and 1 compute at 64 bits exactly with the 64-bit extension and Q = 1; the shifts and the comparison
of a conditional jump too, where `Q_SCOPE` takes them in (R272). -/
def Obligations.OperatingWidth : Prop :=
  ∀ s : State,
    (s.aluWidth = .w64 ↔ s.cfg.extQ = true ∧ s.sr.q = true) ∧
    (s.shiftWidth = .w64 ↔ s.cfg.extQ = true ∧ s.sr.q = true ∧ s.cfg.qShifts = true) ∧
    (s.compareWidth = .w64 ↔ s.cfg.extQ = true ∧ s.sr.q = true ∧ s.cfg.qCompare = true)

/-- R192 to R196, on a machine without the 64-bit extension: ADD, SUB, AND, OR and XOR of any registers complete, their
result modulo `2^32` is what they leave in C, and nothing else changes but `pc`; and their words. -/
def Obligations.BaseRegisterArithmetic : Prop :=
  ∀ (s : State) (c a b : Reg), s.cfg.extQ = false → s.refusesWrite c = false →
    let x := low (s.readReg a)
    let y := low (s.readReg b)
    let word := c.toBits.toNat * 2 ^ 22 + a.toBits.toNat * 2 ^ 17 + b.toBits.toNat * 2 ^ 12
    ((∃ t, ∃ r : BitVec 32, exec (.add c a b) s = .next t ∧ Leaves s t c (r.setWidth 64) ∧
        r = BitVec.ofNat 32 (x.toNat + y.toNat)) ∧ (encode s.cfg (.add c a b)).toNat = word) ∧
    ((∃ t, ∃ r : BitVec 32, exec (.sub c a b) s = .next t ∧ Leaves s t c (r.setWidth 64) ∧
        r = BitVec.ofInt 32 ((x.toNat : Int) - y.toNat)) ∧ (encode s.cfg (.sub c a b)).toNat = word + 0x200) ∧
    ((∃ t, ∃ r : BitVec 32, exec (.and c a b) s = .next t ∧ Leaves s t c (r.setWidth 64) ∧
        ∀ i < 32, r.getLsbD i = (x.getLsbD i && y.getLsbD i)) ∧ (encode s.cfg (.and c a b)).toNat = word + 0x400) ∧
    ((∃ t, ∃ r : BitVec 32, exec (.or c a b) s = .next t ∧ Leaves s t c (r.setWidth 64) ∧
        ∀ i < 32, r.getLsbD i = (x.getLsbD i || y.getLsbD i)) ∧ (encode s.cfg (.or c a b)).toNat = word + 0x600) ∧
    ((∃ t, ∃ r : BitVec 32, exec (.xor c a b) s = .next t ∧ Leaves s t c (r.setWidth 64) ∧
        ∀ i < 32, r.getLsbD i = (x.getLsbD i ^^ y.getLsbD i)) ∧ (encode s.cfg (.xor c a b)).toNat = word + 0x800)

/-- R190, R202, R262, R271, R281: ADD, SUB, AND, OR, XOR and MUL complete at either operating width, unless the write is refused;
all they do is to leave their result in C, its upper half by `Q0_UPPER` after a 32-bit operation (decision D26), and to
go on to the next address. -/
def Obligations.RegisterForms : Prop :=
  ∀ (s : State) (c a b : Reg), s.refusesWrite c = false →
    let x := s.readReg a
    let y := s.readReg b
    Computes (.add c a b) s s.aluWidth c (x + y) (low x + low y) ∧
      Computes (.sub c a b) s s.aluWidth c (x - y) (low x - low y) ∧
      Computes (.and c a b) s s.aluWidth c (x &&& y) (low x &&& low y) ∧
      Computes (.or c a b) s s.aluWidth c (x ||| y) (low x ||| low y) ∧
      Computes (.xor c a b) s s.aluWidth c (x ^^^ y) (low x ^^^ low y) ∧
      Computes (.mul c a b) s s.aluWidth c (BitVec.ofInt 64 (x.toInt * y.toInt))
        (BitVec.ofInt 32 ((low x).toInt * (low y).toInt))

/-- R191, R197 to R201, R281: ADDI, SUBI, ANDI, ORI, XORI and MULI complete at either operating width, unless the write
is refused; their second operand is the immediate, extended by `IMM_EXT_ALU` (decision D8; both extensions are stated),
and for MULI always signed, and to 64 bits as `IMM_EXT_64` says (R272). -/
def Obligations.ImmediateForms : Prop :=
  ∀ (s : State) (c a : Reg) (imm : BitVec 14), s.refusesWrite c = false →
    let x := s.readReg a
    (∃ y, ImmValue s imm.toInt y ∧
      Computes (.muli c a imm) s s.aluWidth c (BitVec.ofInt 64 (x.toInt * y.toInt))
        (BitVec.ofInt 32 ((low x).toInt * imm.toInt))) ∧
      ∃ y, ImmValue s (immInt s.cfg.immExtAlu imm) y ∧
        Computes (.addi c a imm) s s.aluWidth c (x + y) (low x + low y) ∧
        Computes (.subi c a imm) s s.aluWidth c (x - y) (low x - low y) ∧
        Computes (.andi c a imm) s s.aluWidth c (x &&& y) (low x &&& low y) ∧
        Computes (.ori c a imm) s s.aluWidth c (x ||| y) (low x ||| low y) ∧
        Computes (.xori c a imm) s s.aluWidth c (x ^^^ y) (low x ^^^ low y)

/-- R284, R287: MUL and MULI complete; the low `W` bits of what they leave in C are those of the signed product, which
are those of the unsigned product too; nothing else changes but `pc`; their words; and they are reserved encodings where
the MUL/DIV extension is absent. Nothing is said of bits the rules do not speak of (R271), and the product of a 64-bit
MULI is the one of R287 where its immediate extends by the rule R287 gives it (another `IMM_EXT_64`, R272:
`ImmediateForms`). -/
def Obligations.Multiplication : Prop :=
  ∀ (s : State) (c a b : Reg) (imm : BitVec 14), s.refusesWrite c = false →
    let x := s.readReg a
    let y := s.readReg b
    ((∃ t v, exec (.mul c a b) s = .next t ∧ Leaves s t c v ∧
        LowResult s.aluWidth (BitVec.ofInt 64 (x.toInt * y.toInt)) (BitVec.ofInt 32 ((low x).toInt * (low y).toInt)) v ∧
        LowResult s.aluWidth (BitVec.ofNat 64 (x.toNat * y.toNat)) (BitVec.ofNat 32 ((low x).toNat * (low y).toNat)) v) ∧
      (encode s.cfg (.mul c a b)).toNat =
        c.toBits.toNat * 2 ^ 22 + a.toBits.toNat * 2 ^ 17 + b.toBits.toNat * 2 ^ 12 + 0xA00 ∧
      (s.cfg.extM = false → decodeWord s.cfg (encode s.cfg (.mul c a b)) = .error (.absent .mulDiv))) ∧
    ((∃ t v, exec (.muli c a imm) s = .next t ∧ Leaves s t c v ∧
        (s.aluWidth = .w32 ∨ s.cfg.immExt64 = .same →
          LowResult s.aluWidth (BitVec.ofInt 64 (x.toInt * imm.toInt)) (BitVec.ofInt 32 ((low x).toInt * imm.toInt)) v)) ∧
      (encode s.cfg (.muli c a imm)).toNat =
        0x08014000 + c.toBits.toNat * 2 ^ 22 + a.toBits.toNat * 2 ^ 17 + imm.toNat ∧
      (s.cfg.extM = false → decodeWord s.cfg (encode s.cfg (.muli c a imm)) = .error (.absent .mulDiv)))

/-- R281, R282, R283, R285, R286, R288, R289: DIV, MOD, DIVI and MODI complete for all operands, unless the write is
refused; where the division has a result they leave the quotient or the remainder by `DIV_ROUND` (decision D25), and in
the two corner cases nothing is said of the value (log entry 30). The immediate is signed, extended to 64 bits as
`IMM_EXT_64` says (R272). -/
def Obligations.DivideForms : Prop :=
  ∀ (s : State) (c a b : Reg) (imm : BitVec 14), s.refusesWrite c = false →
    let x := s.readReg a
    let y := s.readReg b
    (∃ q64 q32, Computes (.div c a b) s s.aluWidth c q64 q32 ∧
      IsQuotient s.cfg.divRound x y q64 ∧ IsQuotient s.cfg.divRound (low x) (low y) q32) ∧
    (∃ m64 m32, Computes (.mod c a b) s s.aluWidth c m64 m32 ∧
      IsRemainder s.cfg.divRound x y m64 ∧ IsRemainder s.cfg.divRound (low x) (low y) m32) ∧
    (∃ i q64 q32, ImmValue s imm.toInt i ∧ Computes (.divi c a imm) s s.aluWidth c q64 q32 ∧
      IsQuotient s.cfg.divRound x i q64 ∧ IsQuotient s.cfg.divRound (low x) (imm.signExtend 32) q32) ∧
    (∃ i m64 m32, ImmValue s imm.toInt i ∧ Computes (.modi c a imm) s s.aluWidth c m64 m32 ∧
      IsRemainder s.cfg.divRound x i m64 ∧ IsRemainder s.cfg.divRound (low x) (imm.signExtend 32) m32)

/-- R282: where a division has a result, dividend = quotient times divisor plus remainder, and the remainder is smaller
in magnitude than the divisor; truncating, it has the sign of the dividend or is zero; rounding down, that of the
divisor or is zero (decision D25; both roundings are stated). -/
def Obligations.DivisionLaw : Prop :=
  ∀ (r : DivRound) (d m : DivOp) (w : Nat) (a b : BitVec w), 0 < w → Divides a b →
    let q := (divide r d a b).toInt
    let rest := (modulo r m a b).toInt
    a.toInt = q * b.toInt + rest ∧ rest.natAbs < b.toInt.natAbs ∧
      match r with
      | .trunc => rest = 0 ∨ (0 < rest ↔ 0 < a.toInt)
      | .floor => rest = 0 ∨ (0 < rest ↔ 0 < b.toInt)

/-- R26, R234, R325: with K = 0 no instruction changes PR through its destination field: where `PRIV_VIOLATION` is
refuse it has no next state, and else no register changes (decision D7). -/
def Obligations.UserWriteOfPr : Prop :=
  ∀ (i : Instr) (s t : State), dest i = some .pr → s.sr.k = false → exec i s = .next t →
    s.cfg.privViolation = .ignore ∧ t.regs = s.regs

/-! ## Shifts and rotations -/

/-- R210 to R217, R262: SHR, ASR, SHL, ASL, ROR and ROL with a count below the operating width complete, unless the write
is refused; each bit of the result is the one the rule names (ASR and ASL: general knowledge, R213, R215, log entries 32
and 39), the upper half by `Q0_UPPER` after a 32-bit operation. -/
def Obligations.ShiftForms : Prop :=
  ∀ (s : State) (op : ShiftOp) (c a : Reg) (n : BitVec 14), s.refusesWrite c = false →
    n.toNat < s.shiftWidth.bits →
    ∃ r64 r32, Computes (shiftOf op c a n) s s.shiftWidth c r64 r32 ∧
      (s.shiftWidth = .w64 → ∀ i < 64, r64.getLsbD i = shiftedBit op (s.readReg a) n.toNat i) ∧
      (s.shiftWidth = .w32 → ∀ i < 32, r32.getLsbD i = shiftedBit op (low (s.readReg a)) n.toNat i)

/-- R212, R214, R216, R217, where `SHIFT_OVER` is refuse: SHR, SHL, ROR and ROL with a count below `W` complete; the
low `W` bits of what they leave in C are the result in every form the rule gives, and nothing else changes but `pc`;
their words; and a count of `W` or more is reserved, in every mode by its decoding where no operating width is larger. -/
def Obligations.ShiftsAndRotations : Prop :=
  ∀ (s : State) (op : ShiftOp) (c a : Reg) (n : BitVec 14), op ∈ [ShiftOp.shr, .shl, .ror, .rol] →
    s.cfg.shiftOver = .refuse → s.refusesWrite c = false →
    (n.toNat < s.shiftWidth.bits →
      ∃ t v, exec (shiftOf op c a n) s = .next t ∧ Leaves s t c v ∧
        match s.shiftWidth with
        | .w64 => ShiftResult op (s.readReg a) v n.toNat
        | .w32 => ShiftResult op (low (s.readReg a)) (low v) n.toNat) ∧
    (encode s.cfg (shiftOf op c a n)).toNat =
      0x10000000 + c.toBits.toNat * 2 ^ 22 + a.toBits.toNat * 2 ^ 17 +
        (match op with
          | .shr => 0
          | .shl => 0x8000
          | .ror => 0x10000
          | _ => 0x14000) + n.toNat ∧
    (s.shiftWidth.bits ≤ n.toNat → exec (shiftOf op c a n) s = .refused (.reservedEncoding .shiftCount)) ∧
    (s.cfg.shiftBound ≤ n.toNat → decodeWord s.cfg (encode s.cfg (shiftOf op c a n)) = .error .shiftCount)

/-- R211: a count of the operating width or more is a reserved encoding where `SHIFT_OVER` is refuse; where it gives a
value the instruction completes and writes C only, and nothing is said of the value (decision D12; log entry 19). -/
def Obligations.ShiftCountTooLarge : Prop :=
  ∀ (s : State) (op : ShiftOp) (c a : Reg) (n : BitVec 14), s.shiftWidth.bits ≤ n.toNat →
    (s.cfg.shiftOver = .refuse → exec (shiftOf op c a n) s = .refused (.reservedEncoding .shiftCount)) ∧
    (s.cfg.shiftOver = .value → s.refusesWrite c = false →
      ∃ t v, exec (shiftOf op c a n) s = .next t ∧ WritesReg s t c v)

/-- R211, R215, R217: a count of 0 gives the operand; ASL does what SHL does (decision D27); a rotation left undoes the
rotation right by the same count, and shifting right undoes shifting left but for the bits that were lost. -/
def Obligations.ShiftLaws : Prop :=
  (∀ (op : ShiftOp) (w : Nat) (x : BitVec w), shiftValue op x 0 = x) ∧
    (∀ (s : State) (c a : Reg) (n : BitVec 14), n.toNat < s.shiftWidth.bits →
      exec (.asl c a n) s = exec (.shl c a n) s) ∧
    (∀ (w : Nat) (x : BitVec w) (n : Nat), n < w → shiftValue .rol (shiftValue .ror x n) n = x) ∧
    (∀ (w : Nat) (x : BitVec w) (n : Nat), (shiftValue .shr (shiftValue .shl x n) n).toNat = x.toNat % 2 ^ (w - n))

/-! ## Moves -/

/-- R140, R141, R272: MVU completes, unless the write is refused; it leaves the immediate in bits 31 to 10 of C and zeros
in bits 9 to 0 (derived by the spec), bits 63 to 32 by `MVU_UPPER` (decision D26), and goes on. -/
def Obligations.MoveUpper : Prop :=
  ∀ (s : State) (c : Reg) (imm : BitVec 22), s.refusesWrite c = false →
    ∃ t v r, exec (.mvu c imm) s = .next t ∧ WritesReg s t c v ∧ Narrow s s.cfg.mvuUpper (s.readReg c) r v ∧
      r.toNat = imm.toNat * 2 ^ 10

/-- R265, R266: MVU.HH and MVU.HL complete, unless the write is refused or `LDST_Q_GATED` turns them away; they place the
immediate in bits 63 to 42, or 53 to 32, of C; the other bits keep their value or are zero as `MVUH_OTHER_BITS` says
(decision D26). -/
def Obligations.MoveUpperHigh : Prop :=
  ∀ (s : State) (c : Reg) (imm : BitVec 22), s.quadGated = false → s.refusesWrite c = false →
    (∃ t v, exec (.mvuHh c imm) s = .next t ∧ WritesReg s t c v ∧ v.extractLsb' 42 22 = imm ∧
      v.extractLsb' 0 42 = match s.cfg.mvuhOther with
        | .keep => (s.readReg c).extractLsb' 0 42
        | .zero => 0) ∧
    (∃ t v, exec (.mvuHl c imm) s = .next t ∧ WritesReg s t c v ∧ v.extractLsb' 32 22 = imm ∧
      (v.extractLsb' 54 10 = match s.cfg.mvuhOther with
        | .keep => (s.readReg c).extractLsb' 54 10
        | .zero => 0) ∧
      v.extractLsb' 0 32 = match s.cfg.mvuhOther with
        | .keep => (s.readReg c).extractLsb' 0 32
        | .zero => 0)

/-- R250: the expansion of MVI leaves its 32-bit constant in a register that accepts writes, whatever the register held
and however immediates are extended, and changes no other register, no status bit and no byte of memory. -/
def Obligations.MviLoadsConstant : Prop :=
  ∀ (s : State) (d : Reg) (k : BitVec 32), s.accepts d = true →
    ∃ t, execAll (Pseudo.mvi d k).expand s t ∧ low (t.readReg d) = k ∧
      (∀ r : Reg, r ≠ d → t.regs.get r = s.regs.get r) ∧ t.sr = s.sr ∧ SameMemory s t ∧
      t.pc.toNat = (s.pc.toNat + 8) % 2 ^ s.cfg.aw

/-- R266: MVI, MVU.HL and MVU.HH with the slices of a 64-bit constant load it into a register that accepts writes, in
either mode and whatever MVU does to the upper half, where the two upper moves keep the bits they do not name
(decision D26). -/
def Obligations.ConstantOf64BitsLoads : Prop :=
  ∀ (s : State) (d : Reg) (k : Word), s.cfg.extQ = true → s.cfg.mvuhOther = .keep → s.quadGated = false →
    s.accepts d = true →
    ∃ t, execAll ((Pseudo.mvi d (k.extractLsb' 0 32)).expand ++
        [.mvuHl d (k.extractLsb' 32 22), .mvuHh d (k.extractLsb' 42 22)]) s t ∧
      t.readReg d = k ∧ (∀ r : Reg, r ≠ d → t.regs.get r = s.regs.get r) ∧ t.sr = s.sr ∧ SameMemory s t

/-- R251, R252: on a machine with 32-bit registers and addresses, PSH and then POP complete where the slot below SP may
be accessed. PSH stores the register as it reads after SP was decremented (so PSH SP stores the new SP); POP gives that
value to a destination that accepts it, and SP is as before, or, for POP SP, the loaded value plus 4. -/
def Obligations.PushThenPop : Prop :=
  ∀ (s : State) (source d : Reg), s.cfg.extQ = false → s.cfg.awExtra = 0 → s.refusesWrite d = false →
    Admitted s (wrap s.cfg ((low (s.readReg .sp) - 4).setWidth 64)) .dword →
    ∃ u t, exec (.subi .sp .sp 4) s = .next u ∧ low (u.readReg .sp) = low (s.readReg .sp) - 4 ∧
      execAll ((Pseudo.psh source).expand ++ (Pseudo.pop d).expand) s t ∧
      (s.accepts d = true → d ≠ .sp → low (t.readReg d) = low (u.readReg source)) ∧
      (d ≠ .sp → t.readReg .sp = s.readReg .sp) ∧
      (d = .sp → low (t.readReg .sp) = low (u.readReg source) + 4)

/-! ## Jumps -/

/-- R170, R174: JMP always completes, and only sets `pc` to base register plus signed byte offset, modulo `2^AW`
(decision D10: no memory access), the offset extended to 64 bits as `IMM_EXT_64` says (R272). -/
def Obligations.JumpCompletes : Prop :=
  ∀ (s : State) (c : Reg) (imm : BitVec 15),
    ∃ t v, exec (.jmp c imm) s = .next t ∧ ImmValue s imm.toInt v ∧ OnlyPc s t (s.target c v) ∧
      t.pc.toNat = ((s.readReg c).toNat + v.toNat) % 2 ^ s.cfg.aw ∧
      (s.cfg.extQ = false ∨ s.cfg.immExt64 = .same →
        (t.pc.toNat : Int) = (((s.readReg c).toNat : Int) + imm.toInt) % (2 ^ s.cfg.aw : Int))

/-- R170, R171, R172, R175 to R180, R182, R183: JZ, JC, JS, JV, JNZ, JNC, JNS and JNV always complete and only set `pc`:
to the target where the relation between their registers A and B holds, or for the last four does not hold, and else to
the next address. The relations are those of R172; C by `C_IS_BORROW` (decision D11); the target as for JMP. -/
def Obligations.ConditionalJumps : Prop :=
  ∀ (s : State) (c a b : Reg) (imm : BitVec 9), ∃ v, ImmValue s imm.toInt v ∧
    let there := s.target c v
    JumpsWhen (.jz c a b imm) s (Tests s .z a b) there ∧
      JumpsWhen (.jc c a b imm) s (Tests s .c a b) there ∧
      JumpsWhen (.js c a b imm) s (Tests s .s a b) there ∧
      JumpsWhen (.jv c a b imm) s (Tests s .v a b) there ∧
      JumpsWhen (.jnz c a b imm) s (¬ Tests s .z a b) there ∧
      JumpsWhen (.jnc c a b imm) s (¬ Tests s .c a b) there ∧
      JumpsWhen (.jns c a b imm) s (¬ Tests s .s a b) there ∧
      JumpsWhen (.jnv c a b imm) s (¬ Tests s .v a b) there

/-- R172: the signed comparison is S ≠ V, at every width. -/
def Obligations.SignedLessThan : Prop :=
  ∀ (w : Nat) (a b : BitVec w), 0 < w → ((condS a b != condV a b) = true ↔ a.toInt < b.toInt)

/-- R174, R355: with a pc-relative read of PC (decision D4), at a `JMP PC, 0` a run that no reset and no taken interrupt
disturbs never leaves the instruction: after any number of steps the machine is as it was (decision D32). Left out is a
machine with addresses wider than 32 bits whose extended offset has a free upper half (R272, `IMM_EXT_64`). -/
def Obligations.HaltLoopIsForever : Prop :=
  ∀ (s : State) (n : Nat), Inv s → s.ended → s.cfg.pcReadOffset = .zero → (∀ x ∈ s.inputs, x.reset = false) →
    (s.sr.i = false ∨ (s.sr.k = true ∧ s.cfg.intWhenK = false)) →
    (s.cfg.immExt64 ≠ .any ∨ s.cfg.awExtra = 0) →
    ∃ t, runs n s t ∧ t.pc = s.pc ∧ t.regs = s.regs ∧ t.sr = s.sr ∧ t.mem = s.mem ∧ t.cfg = s.cfg

/-! ## System instructions, traps and reset -/

/-- R36, R231, R232: with K = 1, SSB and CSB complete, write the bit they name unless it is K, and go on; with K = 0 they
only go on, or are refused, as `PRIV_VIOLATION` says (decisions D7 and D29). -/
def Obligations.StatusBitInstructions : Prop :=
  ∀ (s : State) (b : StatusBit),
    (s.sr.k = true →
      (∃ t, exec (.ssb b) s = .next t ∧ t.pc = s.nextPc ∧ SameRegs s t ∧ SameMemory s t ∧ SameModel s t ∧
        ∀ x : StatusBit, statusBit t.sr x = if x = b ∧ b ≠ .k then true else statusBit s.sr x) ∧
      (∃ t, exec (.csb b) s = .next t ∧ t.pc = s.nextPc ∧ SameRegs s t ∧ SameMemory s t ∧ SameModel s t ∧
        ∀ x : StatusBit, statusBit t.sr x = if x = b ∧ b ≠ .k then false else statusBit s.sr x)) ∧
    (s.sr.k = false → s.cfg.privViolation = .ignore →
      (∃ t, exec (.ssb b) s = .next t ∧ OnlyPc s t s.nextPc) ∧
      (∃ t, exec (.csb b) s = .next t ∧ OnlyPc s t s.nextPc)) ∧
    (s.sr.k = false → s.cfg.privViolation = .refuse →
      exec (.ssb b) s = .refused .privilegeViolation ∧ exec (.csb b) s = .refused .privilegeViolation)

/-- R230, R313, R314, R322: where its vector can be read, SYSCAL completes in either mode: IRD holds the address after
it (its upper bits by `IRD_WIDTH`, R272), K is 1, `pc` is the low bits of the software vector, as many as `VEC_BITS` says
(R76, R272), and nothing else changes (decisions D16 and D17). -/
def Obligations.SyscallEntersKernel : Prop :=
  ∀ s : State, VectorReadable s s.cfg.sIntVec →
    ∃ t, exec .syscal s = .next t ∧ Enters s t s.cfg.sIntVec s.nextPc ∧ SameModel s t

/-- R76: where the vectors of the implementation are slots as the spec's are, memory answers at a vector and no
translation is asked for, no check of the machine refuses the read that trap entry or reset makes of it, whatever the mode
was and however misaligned accesses are treated: the read answers the 8-byte value that stands there, and the trap is
entered, or the reset event done. -/
def Obligations.VectorsAreReadable : Prop :=
  ∀ s : State, s.cfg.wf = true →
    (∀ vec ∈ [s.cfg.sIntVec, s.cfg.hIntVec], ∀ ret : Addr, (s.sr.p = false ∨ s.cfg.extP = false) →
      (∀ k < 8, ∃ r ∈ s.cfg.backed, r.base ≤ vec.toNat + k ∧ vec.toNat + k < r.base + r.size) →
      (s.enterKernel ret).memRead vec .qword = .ok (ofBytes s.cfg.endian (s.mem.readBytes vec.toNat 8)) ∧
        ∃ t, s.trapEntry vec ret = .ok t) ∧
    ((s.cfg.resetSr.p = false ∨ s.cfg.extP = false) →
      (∀ k < 8, ∃ r ∈ s.cfg.backed, r.base ≤ s.cfg.rstVec.toNat + k ∧ s.cfg.rstVec.toNat + k < r.base + r.size) →
      s.clearForReset.memRead s.cfg.rstVec .qword =
          .ok (ofBytes s.cfg.endian (s.mem.readBytes s.cfg.rstVec.toNat 8)) ∧
        ∃ t, s.resetEvent = .ok t)

/-- R233, R320: URT always completes, in either mode: `pc` is loaded from IRD, modulo `2^AW` (log entry 40), K is 0, and
nothing else changes; and no other instruction takes a machine with K = 1 to K = 0 (decision D19). -/
def Obligations.TrapReturn : Prop :=
  (∀ s : State, ∃ t, exec .urt s = .next t ∧ t.pc.toNat = (s.readReg .ird).toNat % 2 ^ s.cfg.aw ∧
      t.sr = ⟨false, s.sr.i, s.sr.p, s.sr.q⟩ ∧ SameRegs s t ∧ SameMemory s t ∧ SameModel s t) ∧
    ∀ (i : Instr) (s t : State), exec i s = .next t → s.sr.k = true → t.sr.k = false → i = .urt

/-- R316, R321, R322: SYSCAL and then URT resume after the SYSCAL in user mode, with IRD the only register changed,
whatever the mode was. -/
def Obligations.SyscallThenReturn : Prop :=
  ∀ s : State, s.cfg.wf = true → VectorReadable s s.cfg.sIntVec →
    ∃ t, execAll [.syscal, .urt] s t ∧ t.pc = s.nextPc ∧ t.sr = ⟨false, s.sr.i, s.sr.p, s.sr.q⟩ ∧
      (∀ r : Reg, r ≠ .ird → t.regs.get r = s.regs.get r) ∧ SameMemory s t

/-- R311, R312, R314, R315: a request at a boundary without reset, with I = 1, and with K = 0 or `INT_WHEN_K`, is taken
instead of the instruction at `pc`, where the hardware vector can be read: IRD holds the address of that instruction, K
is 1, `pc` comes from the vector, and nothing else changes (decisions D16, D17, D18). -/
def Obligations.HardwareInterruptTaken : Prop :=
  ∀ s : State, s.sample.reset = false → s.sample.irq = true → s.sr.i = true →
    (s.sr.k = false ∨ s.cfg.intWhenK = true) → VectorReadable s s.cfg.hIntVec →
    ∃ t, step s = .next t ∧ Enters s t s.cfg.hIntVec s.pc ∧ t.inputs = s.inputs.tail

/-- R37, R311: without a request, with I = 0, or with K = 1 where `INT_WHEN_K` does not hold, the step is the one of a
boundary at which the environment does nothing (decision D18). -/
def Obligations.InterruptNotTaken : Prop :=
  ∀ s : State, s.sample.reset = false →
    (s.sample.irq = false ∨ s.sr.i = false ∨ (s.sr.k = true ∧ s.cfg.intWhenK = false)) →
    step s = step { s with inputs := Sample.quiet :: s.inputs.tail }

/-- R340, R341, R342: a reset, request or no request, gives the status bits their reset values, loads `pc` from the reset
vector where it can be read, and leaves memory (decision D21). That every stored register is then 0 is the model's choice
(log entry 3). -/
def Obligations.ResetEventHappens : Prop :=
  ∀ s : State, s.sample.reset = true → Admitted s.clearForReset s.cfg.rstVec .qword →
    ∃ t, step s = .next t ∧ t.sr = s.cfg.resetSr ∧ t.pc.toNat = vectorValue s s.cfg.rstVec % 2 ^ s.cfg.vectorBits ∧
      (∀ r : Reg, t.regs.get r = 0) ∧ SameMemory s t ∧ t.cfg = s.cfg

/-- R43, R341: the state after reset has K = 1 and I = P = Q = 0, `pc` is what the reset vector reads, memory lists
nothing, and ZR, SR and PC read as R342 says. The empty memory and the zeros in the registers are the model's choice (log
entries 3, 5 and 6). -/
def Obligations.ResetState : Prop :=
  State.reset.sr = ⟨true, false, false, false⟩ ∧
    State.reset.pc.toNat = vectorValue State.reset State.reset.cfg.rstVec % 2 ^ State.reset.cfg.vectorBits ∧
    State.reset.mem = [] ∧ State.reset.readReg .zr = 0 ∧ State.reset.readReg .sr = 1 ∧
    State.reset.readReg .pc = State.reset.pc.setWidth 64 ∧ ∀ r : Reg, State.reset.regs.get r = 0

/-! ## The whole machine -/

/-- R36: K changes in four events only, and so: reset gives it its reset value, a hardware interrupt sets it, SYSCAL sets
it, URT clears it, and every other instruction, SSB and CSB among them, leaves it. -/
def Obligations.KernelBitChanges : Prop :=
  ∀ s t : State, step s = .next t →
    (s.sample.reset = true → t.sr.k = s.cfg.resetSr.k) ∧
    (s.sample.reset = false → s.takesInterrupt s.sample.irq = true → t.sr.k = true) ∧
    (s.sample.reset = false → s.takesInterrupt s.sample.irq = false →
      ∃ i, s.beginStep.nextInstr = .ok i ∧
        (i = .syscal → t.sr.k = true) ∧ (i = .urt → t.sr.k = false) ∧
        (i ≠ .syscal → i ≠ .urt → t.sr.k = s.sr.k))

/-- From R41 and R63: no instruction but the four system instructions changes the status register; an ALU, shift, move,
multiply or load instruction changes no register but its destination and no memory; a store changes no register; a jump
changes neither registers nor memory; and only stores change memory. Which bytes a store changes is not said here: they
are the bytes `StoresWriteMemory` names, and no others. -/
def Obligations.NoSideEffects : Prop :=
  ∀ (i : Instr) (s t : State), exec i s = .next t →
    (isSystem i = false → t.sr = s.sr) ∧
    (∀ c, dest i = some c → ∀ r : Reg, r ≠ c → t.regs.get r = s.regs.get r) ∧
    (isSystem i = false → dest i = none → t.regs = s.regs) ∧
    (isStore i = false → t.mem = s.mem)

/-- R37, R38, R39, R234, R325: a step taken with K = 0, other than a reset, changes neither I nor P nor Q nor PR. -/
def Obligations.StatusAndPrNeedKernel : Prop :=
  ∀ s t : State, step s = .next t → s.sample.reset = false → s.sr.k = false →
    t.sr.i = s.sr.i ∧ t.sr.p = s.sr.p ∧ t.sr.q = s.sr.q ∧ t.regs.get .pr = s.regs.get .pr

/-- R77, R234: where an access to `$vm` with K = 0 is refused (decision D23), no step taken with K = 0 changes a byte of
`$vm`. -/
def Obligations.UserCannotWriteVm : Prop :=
  ∀ s t : State, step s = .next t → s.sr.k = false → s.cfg.vmUserAccess = .refuse →
    ∀ a : Nat, a ≤ 0xFFFFF → t.mem.read a = s.mem.read a

/-- R77, R234: where an access to `$vm` with K = 0 is refused (decision D23), what a step taken with K = 0 does cannot
depend on the contents of `$vm`: with any other contents the machine stops in the same way, or goes on to a state that
differs in memory only, and there only inside `$vm`. -/
def Obligations.UserCannotReadVm : Prop :=
  ∀ (s : State) (m : Memory), s.cfg.wf = true → s.sr.k = false → s.cfg.vmUserAccess = .refuse →
    (∀ a : Nat, 0xFFFFF < a → m.read a = s.mem.read a) →
    match step s with
    | .next t => ∃ m' : Memory, step { s with mem := m } = .next { t with mem := m' } ∧
        ∀ a : Nat, 0xFFFFF < a → m'.read a = t.mem.read a
    | .fault f => step { s with mem := m } = .fault f
    | .refused r => step { s with mem := m } = .refused r

/-- R24, R30, R60, R261: every step keeps the invariant of the machine: memory in canonical form and inside the address
space, `pc` an address, every register inside the register width. -/
def Obligations.StepKeepsInvariant : Prop :=
  ∀ s t : State, Inv s → step s = .next t → Inv t

/-- The invariant holds right after reset. -/
def Obligations.ResetHasInvariant : Prop := Inv State.reset

/-- R5, R310: a step changes no parameter of the implementation, consumes one sample of the environment, and moves the
model's counter of free values on by one (log entries 1, 8 and 38). -/
def Obligations.StepKeepsModel : Prop :=
  ∀ s t : State, step s = .next t →
    t.cfg = s.cfg ∧ t.inputs = s.inputs.tail ∧ t.freeIdx = s.freeIdx + 1

/-- R20, R25, R26, R261: ZR reads 0, SR the four status bits and zeros above (decision D20), PC the address of the
instruction or of the next one (decision D4); a write changes only the register it names, which then reads the value cut
to the register width, where it accepts it; ZR, SR, PC, and PR with K = 0, accept none (decisions D6 and D7). -/
def Obligations.RegisterReadAndWrite : Prop :=
  ∀ (s : State) (r : Reg) (v : Word), Inv s →
    s.readReg .zr = 0 ∧
    (s.readReg .sr).toNat = s.sr.k.toNat + 2 * s.sr.i.toNat + 4 * s.sr.p.toNat + 8 * s.sr.q.toNat ∧
    (s.cfg.pcReadOffset = .zero → (s.readReg .pc).toNat = s.pc.toNat) ∧
    (s.cfg.pcReadOffset = .four → (s.readReg .pc).toNat = (s.pc.toNat + 4) % 2 ^ s.cfg.aw) ∧
    (s.accepts r = true → ((s.setReg r v).readReg r).toNat = v.toNat % 2 ^ (if s.cfg.extQ then 64 else 32)) ∧
    (s.accepts r = false → s.setReg r v = s) ∧
    (s.accepts r = false ↔ r = .zr ∨ r = .sr ∨ r = .pc ∨ (r = .pr ∧ s.sr.k = false)) ∧
    (∀ x : Reg, x ≠ r → (s.setReg r v).readReg x = s.readReg x)

/-- R81, R82, R83: an entry of the virtual-memory table, stored as a quad-word at its place, is the entry read there. The
size of an entry is inferred by the spec; that entry `i` is the quad-word at address `8 i`, in the machine's byte order, is
the model's choice (log entry 43). Every other entry is as before; the fields of an entry stand at their bits; the address
of a byte of its page is the physical page times 4096 plus the offset, all 24 bits of the page number in it also where
addresses are narrower than 36 bits (the model's choice, log entry 44). -/
def Obligations.VmEntriesRoundTrip : Prop :=
  ∀ (s t : State) (index : Nat) (e : VmEntry) (offset : BitVec 12), index < vmEntryCount →
    s.memWrite (BitVec.ofNat 36 (8 * index)) .qword (vmEntryWord e) = .ok t →
    t.vmEntry index = e ∧ (∀ j : Nat, j ≠ index → t.vmEntry j = s.vmEntry j) ∧
      (vmEntryWord e).toNat = e.process.toNat * 2 ^ 48 + e.virtualPage.toNat * 2 ^ 24 + e.physicalPage.toNat ∧
      (e.address offset).toNat = e.physicalPage.toNat * 4096 + offset.toNat
end

