-- ==== Sys2Proof/Laws/Encoding.lean ====
section
/-! SUPPORT. The laws of the fields of a word: what a field holds is read back from its own bits and from no others, so
that a decoding proof never looks at single bits; and the register and status-bit numbers are read back too. -/

namespace Sys2Proof

/-- A field reads back what was put in it. -/
@[simp] theorem extract_field_same {n lo : Nat} (v : BitVec n) (h : lo + n ≤ 32 := by decide) :
    (field lo v).extractLsb' lo n = v := by
  ext i hi
  have h1 : lo + i < 32 := by omega
  simp [field, hi, h1]

/-- A field leaves the bits of the fields beside it zero. -/
theorem extract_field_disjoint {n lo : Nat} (v : BitVec n) (lo' n' : Nat) (h : lo + n ≤ lo' ∨ lo' + n' ≤ lo) :
    (field lo v).extractLsb' lo' n' = 0 := by
  ext i hi
  simp only [field, BitVec.getElem_extractLsb', BitVec.getLsbD_shiftLeft, BitVec.getLsbD_setWidth]
  rcases h with h | h
  · have h1 : v.getLsbD (lo' + i - lo) = false := BitVec.getLsbD_of_ge _ _ (by omega)
    simp [h1]
  · have h1 : lo' + i < lo := by omega
    simp [h1]

/-- Reading a field of two words put together reads it from both. -/
theorem extract_or (a b : BitVec 32) (lo n : Nat) :
    (a ||| b).extractLsb' lo n = a.extractLsb' lo n ||| b.extractLsb' lo n := by
  ext i hi
  simp

/-- The value of a field is its value times its place. -/
theorem field_toNat {n lo : Nat} (v : BitVec n) (h : lo + n ≤ 32) : (field lo v).toNat = v.toNat * 2 ^ lo := by
  have hv := v.isLt
  have hn : 2 ^ n ≤ 2 ^ 32 := Nat.pow_le_pow_right (by decide) (by omega)
  have hp : v.toNat * 2 ^ lo < 2 ^ 32 := calc
    v.toNat * 2 ^ lo < 2 ^ n * 2 ^ lo := by gcongr
    _ = 2 ^ (lo + n) := by rw [Nat.pow_add, Nat.mul_comm]
    _ ≤ 2 ^ 32 := Nat.pow_le_pow_right (by decide) h
  rw [field, BitVec.toNat_shiftLeft, BitVec.toNat_setWidth, Nat.mod_eq_of_lt (lt_of_lt_of_le hv hn),
    Nat.shiftLeft_eq, Nat.mod_eq_of_lt hp]

/-- A field put below everything a word holds adds its value times its place. -/
theorem or_field_toNat {n lo : Nat} (a : BitVec 32) (v : BitVec n) (h : lo + n ≤ 32)
    (ha : a.toNat % 2 ^ (lo + n) = 0) : (a ||| field lo v).toNat = a.toNat + v.toNat * 2 ^ lo := by
  have hlt : (field lo v).toNat < 2 ^ (lo + n) := by
    rw [field_toNat v h, Nat.pow_add, Nat.mul_comm]
    have hv := v.isLt
    gcongr
  obtain ⟨k, hk⟩ := Nat.dvd_of_mod_eq_zero ha
  rw [BitVec.toNat_or, ← field_toNat v h, hk]
  exact (Nat.two_pow_add_eq_or_of_lt hlt k).symm

@[simp] theorem Reg.ofBits_toBits (r : Reg) : Reg.ofBits r.toBits = r := by
  cases r with
  | g i => revert i; decide
  | _ => rfl

@[simp] theorem Reg.toBits_ofBits (b : BitVec 5) : (Reg.ofBits b).toBits = b := by
  revert b; decide

@[simp] theorem StatusBit.ofNat_toBits (b : StatusBit) : StatusBit.ofNat? b.toBits.toNat = some b := by
  cases b <;> rfl

/-- The number of the status bit a number names is that number. -/
theorem StatusBit.toBits_of_ofNat {n : Nat} {b : StatusBit} (h : StatusBit.ofNat? n = some b) :
    b.toBits.toNat = n := by
  unfold StatusBit.ofNat? at h
  split at h <;> first | (cases h; rfl) | cases h

end Sys2Proof
end

