-- ==== Sys2Proof/Laws/Memory.lean ====
section
/-! SUPPORT. The laws of the byte memory and of byte order: what a write changes and what it leaves, that every write
keeps the canonical form, and that the bytes of a value make the value again. -/

namespace Sys2Proof.Machine

/-! ## One byte -/

theorem Memory.read_filter_ne (m : Memory) {a k : Nat} (h : k ≠ a) :
    Memory.read (m.filter (fun e => e.1 != a)) k = m.read k := by
  induction m with
  | nil => rfl
  | cons e m ih =>
    obtain ⟨j, v⟩ := e
    by_cases hj : j = a
    · subst hj
      simp [Memory.read, h, ih]
    · simp [hj, Memory.read, ih]

theorem Memory.read_filter_same (m : Memory) (a : Nat) :
    Memory.read (m.filter (fun e => e.1 != a)) a = Memory.unlisted := by
  induction m with
  | nil => rfl
  | cons e m ih =>
    obtain ⟨j, v⟩ := e
    by_cases hj : j = a
    · subst hj
      simpa using ih
    · simp [hj, Memory.read, ih, Ne.symm hj]

theorem Memory.read_insert (m : Memory) (a : Nat) (b : Byte) (k : Nat) (h : ∀ e ∈ m, e.1 ≠ a) :
    (m.insert a b).read k = if k = a then b else m.read k := by
  induction m with
  | nil => simp [Memory.insert, Memory.read]
  | cons e m ih =>
    obtain ⟨j, v⟩ := e
    have hj : j ≠ a := h (j, v) (by simp)
    have ih := ih (fun e he => h e (by simp [he]))
    by_cases hlt : a < j
    · simp [Memory.insert, hlt, Memory.read]
    · by_cases hk : k = j
      · subst hk
        simp [Memory.insert, hlt, Memory.read, hj]
      · simp [Memory.insert, hlt, Memory.read, hk, ih]

/-- Reading after writing one byte: the byte written at its address, the old byte at every other. -/
theorem Memory.read_write (m : Memory) (a : Nat) (b : Byte) (k : Nat) :
    (m.write a b).read k = if k = a then b else m.read k := by
  unfold Memory.write
  by_cases hb : b = Memory.unlisted
  · by_cases hk : k = a
    · subst hk
      simp [hb, Memory.read_filter_same]
    · simp [hb, hk, Memory.read_filter_ne m hk]
  · rw [if_neg hb, Memory.read_insert _ _ _ _ (by simp)]
    by_cases hk : k = a
    · simp [hk]
    · simp [hk, Memory.read_filter_ne m hk]

/-! ## The canonical form -/

theorem Memory.wf_cons {a : Nat} {b : Byte} {m : Memory} :
    Memory.wf ((a, b) :: m) = true ↔ b ≠ Memory.unlisted ∧ (∀ e ∈ m, a < e.1) ∧ Memory.wf m = true := by
  simp [Memory.wf, and_assoc]

theorem Memory.wf_filter (m : Memory) (p : Host.Cell → Bool) (h : m.wf = true) : Memory.wf (m.filter p) = true := by
  induction m with
  | nil => rfl
  | cons e m ih =>
    obtain ⟨a, b⟩ := e
    obtain ⟨hb, hlt, hm⟩ := Memory.wf_cons.mp h
    by_cases hp : p (a, b) = true
    · rw [List.filter_cons_of_pos hp, Memory.wf_cons]
      exact ⟨hb, fun e he => hlt e (List.mem_filter.mp he).1, ih hm⟩
    · rw [List.filter_cons_of_neg hp]
      exact ih hm

theorem Memory.mem_insert {m : Memory} {a : Nat} {b : Byte} {e : Host.Cell} (h : e ∈ m.insert a b) :
    e = (a, b) ∨ e ∈ m := by
  induction m with
  | nil => simpa [Memory.insert] using h
  | cons x m ih =>
    obtain ⟨j, v⟩ := x
    unfold Memory.insert at h
    split at h
    · simpa using h
    · rcases List.mem_cons.mp h with rfl | h
      · simp
      · rcases ih h with rfl | h
        · simp
        · simp [h]

theorem Memory.wf_insert {m : Memory} {a : Nat} {b : Byte} (hm : m.wf = true) (hb : b ≠ Memory.unlisted)
    (h : ∀ e ∈ m, e.1 ≠ a) : Memory.wf (m.insert a b) = true := by
  induction m with
  | nil => simpa [Memory.insert, Memory.wf] using hb
  | cons x m ih =>
    obtain ⟨j, v⟩ := x
    obtain ⟨hv, hlt, hm'⟩ := Memory.wf_cons.mp hm
    have hja : j ≠ a := h (j, v) (by simp)
    unfold Memory.insert
    split
    · rename_i haj
      rw [Memory.wf_cons]
      refine ⟨hb, ?_, hm⟩
      intro e he
      rcases List.mem_cons.mp he with rfl | he
      · exact haj
      · exact haj.trans (hlt e he)
    · rename_i haj
      rw [Memory.wf_cons]
      refine ⟨hv, ?_, ih hm' fun e he => h e (by simp [he])⟩
      intro e he
      rcases Memory.mem_insert he with rfl | he
      · show j < a
        omega
      · exact hlt e he

/-- Writing one byte keeps the canonical form. -/
theorem Memory.wf_write {m : Memory} (h : m.wf = true) (a : Nat) (b : Byte) : Memory.wf (m.write a b) = true := by
  unfold Memory.write
  split
  · exact Memory.wf_filter m _ h
  · rename_i hb
    exact Memory.wf_insert (Memory.wf_filter m _ h) hb (by simp)

/-- Writing consecutive bytes keeps the canonical form. -/
theorem Memory.wf_writeBytes {m : Memory} (h : m.wf = true) (a : Nat) (bs : List Byte) :
    Memory.wf (m.writeBytes a bs) = true := by
  induction bs generalizing m a with
  | nil => exact h
  | cons b bs ih => exact ih (Memory.wf_write h a b) (a + 1)

/-- The addresses listed after a write are those listed before, and the one written. -/
theorem Memory.mem_write {m : Memory} {a : Nat} {b : Byte} {e : Host.Cell} (h : e ∈ m.write a b) :
    e.1 = a ∨ e ∈ m := by
  unfold Memory.write at h
  split at h
  · exact .inr (List.mem_filter.mp h).1
  · rcases Memory.mem_insert h with rfl | h
    · exact .inl rfl
    · exact .inr (List.mem_filter.mp h).1

/-- The addresses listed after writing consecutive bytes. -/
theorem Memory.mem_writeBytes {m : Memory} {a : Nat} {bs : List Byte} {e : Host.Cell}
    (h : e ∈ m.writeBytes a bs) : (a ≤ e.1 ∧ e.1 < a + bs.length) ∨ e ∈ m := by
  induction bs generalizing m a with
  | nil => exact .inr h
  | cons b bs ih =>
    rcases ih h with ⟨h1, h2⟩ | h
    · left
      simp only [List.length_cons]
      omega
    · rcases Memory.mem_write h with h | h
      · left
        simp only [List.length_cons]
        omega
      · exact .inr h

/-! ## Consecutive bytes -/

@[simp] theorem Memory.length_readBytes (m : Memory) (a n : Nat) : (m.readBytes a n).length = n := by
  induction n generalizing a with
  | zero => rfl
  | succ n ih => simp [Memory.readBytes, ih]

theorem Memory.getElem_readBytes (m : Memory) (a n k : Nat) (h : k < (m.readBytes a n).length) :
    (m.readBytes a n)[k] = m.read (a + k) := by
  induction n generalizing a k with
  | zero => simp [Memory.readBytes] at h
  | succ n ih =>
    cases k with
    | zero => simp [Memory.readBytes]
    | succ k =>
      simp only [Memory.readBytes, List.getElem_cons_succ, ih]
      congr 1
      omega

/-- Reading one byte after writing consecutive bytes. -/
theorem Memory.read_writeBytes (m : Memory) (a : Nat) (bs : List Byte) (k : Nat) :
    (m.writeBytes a bs).read k = if a ≤ k then (bs[k - a]?).getD (m.read k) else m.read k := by
  induction bs generalizing m a with
  | nil => simp [Memory.writeBytes]
  | cons b bs ih =>
    simp only [Memory.writeBytes, ih, Memory.read_write]
    by_cases h1 : a + 1 ≤ k
    · have h2 : a ≤ k := by omega
      have h3 : k ≠ a := by omega
      have h4 : k - a = (k - (a + 1)) + 1 := by omega
      simp [h1, h2, h3, h4]
    · by_cases h2 : k = a
      · subst h2
        simp
      · have h3 : ¬ a ≤ k := by omega
        simp [h1, h2, h3]

/-- Every byte outside the ones written is as it was. -/
theorem Memory.read_writeBytes_outside (m : Memory) (a : Nat) (bs : List Byte) (k : Nat)
    (h : k < a ∨ a + bs.length ≤ k) : (m.writeBytes a bs).read k = m.read k := by
  rw [Memory.read_writeBytes]
  split
  · have h2 : bs.length ≤ k - a := by omega
    simp [List.getElem?_eq_none h2]
  · rfl

/-- Reading back the bytes written. -/
theorem Memory.readBytes_writeBytes (m : Memory) (a : Nat) (bs : List Byte) :
    (m.writeBytes a bs).readBytes a bs.length = bs := by
  apply List.ext_getElem (by simp)
  intro k h1 h2
  rw [Memory.getElem_readBytes, Memory.read_writeBytes]
  have h3 : a + k - a = k := by omega
  simp [h3, h2]

/-- Reading bytes that a write did not touch. -/
theorem Memory.readBytes_congr {m m' : Memory} {a n : Nat} (h : ∀ k < n, m.read (a + k) = m'.read (a + k)) :
    m.readBytes a n = m'.readBytes a n := by
  apply List.ext_getElem (by simp)
  intro k h1 h2
  rw [Memory.getElem_readBytes, Memory.getElem_readBytes]
  exact h k (by simpa using h1)

/-! ## Byte order -/

@[simp] theorem length_bytesLE (n : Nat) (v : Word) : (bytesLE n v).length = n := by
  induction n generalizing v with
  | zero => rfl
  | succ n ih => simp [bytesLE, ih]

@[simp] theorem length_toBytes (o : ByteOrder) (n : Nat) (v : Word) : (toBytes o n v).length = n := by
  cases o <;> simp [toBytes]

/-- Byte `k` of a value is bits `8k+7` to `8k` (R64). -/
theorem getElem_bytesLE (n : Nat) (v : Word) (k : Nat) (h : k < (bytesLE n v).length) :
    (bytesLE n v)[k] = v.extractLsb' (8 * k) 8 := by
  induction n generalizing v k with
  | zero => simp [bytesLE] at h
  | succ n ih =>
    cases k with
    | zero =>
      ext i hi
      simp [bytesLE]
    | succ k =>
      simp only [bytesLE, List.getElem_cons_succ, ih]
      ext i hi
      simp only [BitVec.getElem_extractLsb', BitVec.getLsbD_ushiftRight]
      congr 1
      omega

/-- Bit `i` of the value of a list of bytes. -/
theorem getLsbD_wordLE (bs : List Byte) (i : Nat) :
    (wordLE bs).getLsbD i = (decide (i < 64) && ((bs[i / 8]?).getD 0).getLsbD (i % 8)) := by
  induction bs generalizing i with
  | nil => simp [wordLE]
  | cons b bs ih =>
    simp only [wordLE, BitVec.getLsbD_or, BitVec.getLsbD_setWidth, BitVec.getLsbD_shiftLeft, ih]
    by_cases h64 : i < 64
    · by_cases h8 : i < 8
      · have h1 : i / 8 = 0 := by omega
        have h2 : i % 8 = i := by omega
        simp [h64, h8, h1, h2]
      · have h1 : i / 8 = (i - 8) / 8 + 1 := by omega
        have h2 : (i - 8) % 8 = i % 8 := by omega
        have h3 : i - 8 < 64 := by omega
        have h4 : b.getLsbD i = false := BitVec.getLsbD_of_ge b i (by omega)
        simp [h64, h8, h1, h2, h3, h4]
    · simp [h64]

/-- The bytes of a value make the value again, cut to the number of bytes. -/
theorem ofBytes_toBytes (o : ByteOrder) (n : Nat) (hn : n ≤ 8) (v : Word) (i : Nat) :
    (ofBytes o (toBytes o n v)).getLsbD i = (decide (i < 8 * n) && v.getLsbD i) := by
  have h : ofBytes o (toBytes o n v) = wordLE (bytesLE n v) := by cases o <;> simp [ofBytes, toBytes]
  rw [h, getLsbD_wordLE]
  by_cases h1 : i < 8 * n
  · have h2 : i / 8 < (bytesLE n v).length := by simp; omega
    have h3 : i < 64 := by omega
    have h4 : 8 * (i / 8) + i % 8 = i := by omega
    have h5 : i % 8 < 8 := by omega
    rw [List.getElem?_eq_getElem h2, getElem_bytesLE]
    simp [h1, h3, h4, h5]
  · have h2 : (bytesLE n v).length ≤ i / 8 := by simp; omega
    rw [List.getElem?_eq_none h2]
    simp [h1]

/-- A quad-word survives its way through memory. -/
theorem ofBytes_toBytes_eight (o : ByteOrder) (v : Word) : ofBytes o (toBytes o 8 v) = v := by
  apply BitVec.eq_of_getLsbD_eq
  intro i hi
  rw [ofBytes_toBytes o 8 (by decide)]
  simp [hi]

end Sys2Proof.Machine
end

