-- ==== Sys2Proof/Laws/State.lean ====
section
/-! SUPPORT. One lemma per field per update of the state, so that no later proof unfolds a record update. -/

namespace Sys2Proof.Machine

variable (s : State) (r c : Reg) (v offset : Word)

@[simp] theorem State.setReg_pc : (s.setReg r v).pc = s.pc := rfl
@[simp] theorem State.setReg_sr : (s.setReg r v).sr = s.sr := rfl
@[simp] theorem State.setReg_mem : (s.setReg r v).mem = s.mem := rfl
@[simp] theorem State.setReg_inputs : (s.setReg r v).inputs = s.inputs := rfl
@[simp] theorem State.setReg_freeIdx : (s.setReg r v).freeIdx = s.freeIdx := rfl
@[simp] theorem State.setReg_cfg : (s.setReg r v).cfg = s.cfg := rfl
theorem State.setReg_regs :
    (s.setReg r v).regs = if s.accepts r then s.regs.set r (trim s.cfg v) else s.regs := rfl

@[simp] theorem State.advance_regs : s.advance.regs = s.regs := rfl
@[simp] theorem State.advance_pc : s.advance.pc = s.nextPc := rfl
@[simp] theorem State.advance_sr : s.advance.sr = s.sr := rfl
@[simp] theorem State.advance_mem : s.advance.mem = s.mem := rfl
@[simp] theorem State.advance_inputs : s.advance.inputs = s.inputs := rfl
@[simp] theorem State.advance_freeIdx : s.advance.freeIdx = s.freeIdx := rfl
@[simp] theorem State.advance_cfg : s.advance.cfg = s.cfg := rfl

@[simp] theorem State.jumpTo_regs : (s.jumpTo c offset).regs = s.regs := rfl
@[simp] theorem State.jumpTo_pc : (s.jumpTo c offset).pc = s.target c offset := rfl
@[simp] theorem State.jumpTo_sr : (s.jumpTo c offset).sr = s.sr := rfl
@[simp] theorem State.jumpTo_mem : (s.jumpTo c offset).mem = s.mem := rfl
@[simp] theorem State.jumpTo_inputs : (s.jumpTo c offset).inputs = s.inputs := rfl
@[simp] theorem State.jumpTo_freeIdx : (s.jumpTo c offset).freeIdx = s.freeIdx := rfl
@[simp] theorem State.jumpTo_cfg : (s.jumpTo c offset).cfg = s.cfg := rfl

@[simp] theorem State.beginStep_regs : s.beginStep.regs = s.regs := rfl
@[simp] theorem State.beginStep_pc : s.beginStep.pc = s.pc := rfl
@[simp] theorem State.beginStep_sr : s.beginStep.sr = s.sr := rfl
@[simp] theorem State.beginStep_mem : s.beginStep.mem = s.mem := rfl
@[simp] theorem State.beginStep_inputs : s.beginStep.inputs = s.inputs.tail := rfl
@[simp] theorem State.beginStep_freeIdx : s.beginStep.freeIdx = s.freeIdx + 1 := rfl
@[simp] theorem State.beginStep_cfg : s.beginStep.cfg = s.cfg := rfl

variable (ret : Addr)

@[simp] theorem State.enterKernel_regs :
    (s.enterKernel ret).regs = s.regs.set .ird (trim s.cfg (s.returnValue ret)) := rfl
@[simp] theorem State.enterKernel_pc : (s.enterKernel ret).pc = s.pc := rfl
@[simp] theorem State.enterKernel_sr : (s.enterKernel ret).sr = { s.sr with k := true } := rfl
@[simp] theorem State.enterKernel_mem : (s.enterKernel ret).mem = s.mem := rfl
@[simp] theorem State.enterKernel_inputs : (s.enterKernel ret).inputs = s.inputs := rfl
@[simp] theorem State.enterKernel_freeIdx : (s.enterKernel ret).freeIdx = s.freeIdx := rfl
@[simp] theorem State.enterKernel_cfg : (s.enterKernel ret).cfg = s.cfg := rfl

@[simp] theorem State.clearForReset_regs : s.clearForReset.regs = Regs.reset := rfl
@[simp] theorem State.clearForReset_pc : s.clearForReset.pc = s.pc := rfl
@[simp] theorem State.clearForReset_sr : s.clearForReset.sr = s.cfg.resetSr := rfl
@[simp] theorem State.clearForReset_mem : s.clearForReset.mem = s.mem := rfl
@[simp] theorem State.clearForReset_inputs : s.clearForReset.inputs = s.inputs := rfl
@[simp] theorem State.clearForReset_freeIdx : s.clearForReset.freeIdx = s.freeIdx := rfl
@[simp] theorem State.clearForReset_cfg : s.clearForReset.cfg = s.cfg := rfl

@[simp] theorem State.trapReturn_regs : s.trapReturn.regs = s.regs := rfl
@[simp] theorem State.trapReturn_pc : s.trapReturn.pc = wrap s.cfg (s.readReg .ird) := rfl
@[simp] theorem State.trapReturn_sr : s.trapReturn.sr = { s.sr with k := false } := rfl
@[simp] theorem State.trapReturn_mem : s.trapReturn.mem = s.mem := rfl
@[simp] theorem State.trapReturn_inputs : s.trapReturn.inputs = s.inputs := rfl
@[simp] theorem State.trapReturn_freeIdx : s.trapReturn.freeIdx = s.freeIdx := rfl
@[simp] theorem State.trapReturn_cfg : s.trapReturn.cfg = s.cfg := rfl

/-! ## Registers -/

/-- A register set reads back what was stored, and no other register changes. -/
theorem Regs.get_set (r : Regs) (i j : Reg) (v : Word) :
    (r.set i v).get j = if j = i ∧ i ≠ .zr ∧ i ≠ .sr ∧ i ≠ .pc then v else r.get j := by
  cases i <;> cases j <;> simp [Regs.get, Regs.set]
  case g.g a b => simp [Vector.getElem_set, Fin.ext_iff, eq_comm]

/-- The three registers without storage accept no write. -/
theorem State.accepts_storage (h : s.accepts r = true) : r ≠ .zr ∧ r ≠ .sr ∧ r ≠ .pc := by
  cases r <;> simp_all [State.accepts]

/-- Every stored register after a register write (R26). -/
theorem State.setReg_get (q : Reg) :
    (s.setReg r v).regs.get q = if q = r ∧ s.accepts r = true then trim s.cfg v else s.regs.get q := by
  by_cases h : s.accepts r = true
  · have := s.accepts_storage r h
    simp [State.setReg_regs, h, Regs.get_set, this]
  · simp [State.setReg_regs, h]

/-- Cutting to the register width twice is cutting once. -/
@[simp] theorem trim_trim (cfg : Config) (x : Word) : trim cfg (trim cfg x) = trim cfg x := by
  unfold trim
  split
  · rfl
  · ext i hi
    simp [BitVec.getElem_setWidth]

/-- The value of an address modulo the size of the address space. -/
theorem wrap_toNat (cfg : Config) (x : Word) : (wrap cfg x).toNat = x.toNat % 2 ^ cfg.aw := by
  have hpos : 0 < 2 ^ cfg.aw := Nat.two_pow_pos _
  have haw : cfg.aw ≤ 36 := by
    have := cfg.awExtra.isLt
    unfold Config.aw
    omega
  have hle : 2 ^ cfg.aw ≤ 2 ^ 36 := Nat.pow_le_pow_right (by decide) haw
  have hlt : x.toNat % 2 ^ cfg.aw < 2 ^ 36 := lt_of_lt_of_le (Nat.mod_lt _ hpos) hle
  simp only [wrap, BitVec.toNat_ofNat]
  exact Nat.mod_eq_of_lt hlt

/-- Every address the machine computes lies in the address space. -/
theorem wrap_lt (cfg : Config) (x : Word) : (wrap cfg x).toNat < 2 ^ cfg.aw := by
  rw [wrap_toNat]
  exact Nat.mod_lt _ (Nat.two_pow_pos _)

end Sys2Proof.Machine
end

