-- ==== Sys2Proof/Laws/Ops.lean ====
section
/-! SUPPORT. One lemma per shared operation that says everything it can do: a later proof cites it instead of unfolding
the operation. The last one says what a step can do. -/

namespace Sys2Proof.Machine

open Sys2Proof

/-! ## Outcomes -/

theorem outcomeOf_next {e : Except Stop State} {t : State} : outcomeOf e = .next t ↔ e = .ok t := by
  rcases e with (f | r) | s <;> simp [outcomeOf]

/-! ## Accesses of memory -/

theorem backedRange_iff {c : Config} {a n : Nat} :
    backedRange c a n = true ↔ ∀ k < n, Backed c (a + k) := by
  simp [backedRange, backedAt, Backed]

/-- None of the checks stops an access that is made from an address exactly when the address is not in `$vm` in user
mode, not to be translated, and memory answers (R66, R78). -/
theorem baseStop_none {s : State} {b : Addr} {sz : Size} :
    s.baseStop b sz = none ↔
      (s.sr.k = true ∨ s.cfg.vmUserAccess = .ignore ∨ 0xFFFFF < b.toNat) ∧ (s.sr.p = false ∨ s.cfg.extP = false) ∧
        ∀ k < sz.bytes, Backed s.cfg (b.toNat + k) := by
  unfold State.baseStop
  rw [← backedRange_iff, ← Nat.not_le]
  split
  · simp_all
  · split
    · simp_all
    · split <;> simp_all; cases h : s.cfg.vmUserAccess <;> cases hk : s.sr.k <;> cases hp : s.sr.p <;> simp_all

/-- An access is refused for its alignment exactly when it is misaligned and `MISALIGNED` is refuse (R66). -/
theorem refusesMisaligned_iff {s : State} {a : Addr} {sz : Size} :
    s.refusesMisaligned a sz = true ↔ a.toNat % sz.bytes ≠ 0 ∧ s.cfg.misaligned = .refuse := by
  simp [State.refusesMisaligned]

/-- An aligned access is made from the address it names. -/
theorem accessBase_aligned {s : State} {a : Addr} {sz : Size} (h : a.toNat % sz.bytes = 0) : s.accessBase a sz = a := by
  simp [State.accessBase, h]

/-- The stop of a reserved encoding is its refusal (R121). -/
@[simp] theorem reserved_eq (s : State) (r : Reserved) : s.reserved r = .refused (.reservedEncoding r) := by
  unfold State.reserved
  cases s.cfg.reservedEnc
  rfl

/-- An access is stopped by none of the checks exactly when it is admitted (R66). -/
theorem accessStop_none {s : State} {a : Addr} {sz : Size} : s.accessStop a sz = none ↔ Admitted s a sz := by
  unfold State.accessStop Admitted
  rw [← baseStop_none]
  by_cases h : s.refusesMisaligned a sz = true
  · have := refusesMisaligned_iff.mp h
    simp [h, this]
  · have := mt refusesMisaligned_iff.mpr h
    simp only [h, Bool.false_eq_true, if_false]
    tauto

/-- An access that is not admitted is stopped, by the first stop that applies (R66, R78). -/
theorem accessStop_some {s : State} {a : Addr} {sz : Size} (h : ¬ Admitted s a sz) :
    s.accessStop a sz = some (firstStop s a sz) := by
  rw [← accessStop_none] at h
  unfold State.accessStop State.baseStop at h ⊢
  unfold firstStop
  simp only [← refusesMisaligned_iff]
  cases h1 : s.refusesMisaligned a sz
  · cases hk : s.sr.k <;> cases hp : s.sr.p <;> cases he : s.cfg.extP <;> cases hv : s.cfg.vmUserAccess <;>
      simp_all <;> split <;> simp_all
  · simp

/-- A read of memory that completes: the access is admitted, and the value is that of its bytes. -/
theorem memRead_ok {s : State} {a : Addr} {sz : Size} {v : Word} :
    s.memRead a sz = .ok v ↔ Admitted s a sz ∧ v = ofBytes s.cfg.endian (s.mem.readBytes (s.accessBase a sz).toNat sz.bytes) := by
  rw [← accessStop_none]
  unfold State.memRead
  cases s.accessStop a sz <;> simp [eq_comm]

/-- A write of memory that completes: the access is admitted, and only memory changes. -/
theorem memWrite_ok {s t : State} {a : Addr} {sz : Size} {v : Word} :
    s.memWrite a sz v = .ok t ↔
      Admitted s a sz ∧
        t = { s with mem := s.mem.writeBytes (s.accessBase a sz).toNat (toBytes s.cfg.endian sz.bytes v) } := by
  rw [← accessStop_none]
  unfold State.memWrite
  cases s.accessStop a sz <;> simp [eq_comm]

/-! ## Operands -/

/-- An address has at most 36 bits (R62). -/
theorem aw_le (c : Config) : c.aw ≤ 36 := by
  have := c.awExtra.isLt
  unfold Config.aw
  omega

/-- An immediate extended by a parameter has the value the rules give it (R113, R272). -/
theorem immBy_value (s : State) (ext : ImmExt) {n : Nat} (hn : n ≤ 32) (imm : BitVec n) :
    ImmValue s (immInt ext imm) (s.immBy ext imm) := by
  have key : ∀ v : Word, v = BitVec.ofInt 64 (immInt ext imm) → ImmValue s (immInt ext imm) (s.immUpper v) := by
    intro v hv
    have hl : low v = BitVec.ofInt 32 (immInt ext imm) := by
      subst hv
      apply BitVec.eq_of_toNat_eq
      simp only [low, BitVec.toNat_setWidth, BitVec.toNat_ofInt]
      omega
    unfold State.immUpper
    cases hq : s.cfg.extQ
    · exact ⟨hl, fun _ => hv, fun h => absurd h (by simp [hq])⟩
    · cases hm : s.cfg.immExt64
      · exact ⟨hl, fun _ => hv, fun _ h => by simp [hm] at h⟩
      · refine ⟨by simpa [low] using hl, by simp [hq, hm], fun _ _ => ?_⟩
        ext i hi
        simp
      · refine ⟨?_, by simp [hq, hm], by simp [hm]⟩
        rw [← hl]
        ext i hi
        have h := BitVec.getLsbD_append (x := Config.freeUpper s.freeIdx) (y := v.setWidth 32) (i := i)
        simp only [hi] at h
        simpa [low, hi] using h
  cases ext
  · exact key _ (by simp [immInt])
  · exact key _ (by rw [immInt, ← BitVec.toInt_signExtend_of_le (by omega : n ≤ 64), BitVec.ofInt_toInt])

/-! ## Completing an instruction -/

/-- An instruction that writes a register completes unless the write is refused, and then it is the register write and
the advance of `pc`. -/
theorem retire_next {s t : State} {c : Reg} {v : Word} :
    s.retire c v = .next t ↔ s.refusesWrite c = false ∧ t = (s.setReg c v).advance := by
  unfold State.retire
  cases s.refusesWrite c <;> simp [eq_comm]

/-- What the register write and the advance of `pc` change. -/
theorem writesReg_setReg_advance (s : State) (c : Reg) (v : Word) : WritesReg s (s.setReg c v).advance c v :=
  ⟨fun r => s.setReg_get c v r, rfl, rfl, fun _ => rfl, rfl, rfl, rfl⟩

/-- A load that completes. -/
theorem loadOp_next {s t : State} {sz : Size} {c a : Reg} {imm : BitVec 15} :
    s.loadOp sz c a imm = .next t ↔
      Admitted s (s.ea a imm) sz ∧ s.refusesWrite c = false ∧
        t = (s.setReg c (loadValue s.cfg.loadExt sz (s.readReg c)
          (ofBytes s.cfg.endian (s.mem.readBytes (s.accessBase (s.ea a imm) sz).toNat sz.bytes)))).advance := by
  unfold State.loadOp
  cases h : s.memRead (s.ea a imm) sz with
  | error e =>
    have : ¬ Admitted s (s.ea a imm) sz := fun hadm => by
      rw [memRead_ok.mpr ⟨hadm, rfl⟩] at h
      cases h
    rcases e with f | r <;> simp [outcomeOf, this]
  | ok v =>
    obtain ⟨hadm, rfl⟩ := memRead_ok.mp h
    simp [retire_next, hadm]

/-- A store that completes. -/
theorem storeOp_next {s t : State} {sz : Size} {c a : Reg} {imm : BitVec 15} :
    s.storeOp sz c a imm = .next t ↔
      Admitted s (s.ea a imm) sz ∧
        t = State.advance { s with
          mem := s.mem.writeBytes (s.accessBase (s.ea a imm) sz).toNat
            (toBytes s.cfg.endian sz.bytes (s.readReg c)) } := by
  unfold State.storeOp
  cases h : s.memWrite (s.ea a imm) sz (s.readReg c) with
  | error e =>
    have : ¬ Admitted s (s.ea a imm) sz := fun hadm => by
      rw [memWrite_ok.mpr ⟨hadm, rfl⟩] at h
      cases h
    rcases e with f | r <;> simp [outcomeOf, this]
  | ok u =>
    obtain ⟨hadm, rfl⟩ := memWrite_ok.mp h
    simp [hadm, eq_comm]

/-! ## Traps and reset -/

/-- The number of the address a vector holds (R76, `VEC_BITS`). -/
theorem vector_toNat (c : Config) (v : Nat) :
    (BitVec.ofNat 36 (v % 2 ^ c.vectorBits)).toNat = v % 2 ^ c.vectorBits := by
  have h36 : 2 ^ c.vectorBits ≤ 2 ^ 36 :=
    Nat.pow_le_pow_right (by decide) (le_trans (min_le_right _ _) (aw_le c))
  rw [BitVec.toNat_ofNat]
  exact Nat.mod_eq_of_lt (lt_of_lt_of_le (Nat.mod_lt _ (Nat.two_pow_pos _)) h36)

/-- What a vector holds is an address of the address space (R30). -/
theorem vector_lt (c : Config) (v : Nat) :
    (BitVec.ofNat 36 (v % 2 ^ c.vectorBits)).toNat < 2 ^ c.aw := by
  rw [vector_toNat]
  exact lt_of_lt_of_le (Nat.mod_lt _ (Nat.two_pow_pos _)) (Nat.pow_le_pow_right (by decide) (min_le_right _ _))

/-- What trap entry writes in IRD holds the return address (R314, R272). -/
theorem returnValue_holds (s : State) (ret : Addr) : HoldsReturn s ret (trim s.cfg (s.returnValue ret)) := by
  have bit : ∀ i < 64, (s.returnValue ret).getLsbD i =
      if i < s.cfg.aw then ret.getLsbD i else
        match s.cfg.irdUpper with
        | .zero => false
        | .sign => ret.getLsbD (s.cfg.aw - 1)
        | .keep => (s.readReg .ird).getLsbD i
        | .any => (Config.freeUpper s.freeIdx ++ (0 : BitVec 32)).getLsbD i := by
    intro i hi
    have haw := aw_le s.cfg
    have hmask : (BitVec.ofNat 64 (2 ^ s.cfg.aw - 1)).getLsbD i = decide (i < s.cfg.aw) := by
      rw [BitVec.getLsbD_ofNat, Nat.testBit_two_pow_sub_one]
      simp [hi]
    simp only [State.returnValue, BitVec.getLsbD_or, BitVec.getLsbD_and, BitVec.getLsbD_not, hmask, hi,
      BitVec.getLsbD_setWidth, decide_true, Bool.true_and]
    by_cases h : i < s.cfg.aw
    · simp [h]
    · simp only [h, decide_false, Bool.not_false, Bool.and_true, Bool.and_false, Bool.or_false, if_false]
      cases s.cfg.irdUpper
      · simp
      · by_cases hb : ret.getLsbD (s.cfg.aw - 1) = true
        · dsimp only
          rw [if_pos hb, BitVec.getLsbD_allOnes, hb]
          simpa using hi
        · dsimp only
          rw [if_neg hb]
          simp_all
      · rfl
      · rfl
  have haw : 32 ≤ s.cfg.aw := by unfold Config.aw; omega
  refine ⟨trim_trim _ _, fun i hi => ?_, fun hq => ?_⟩
  · have : (trim s.cfg (s.returnValue ret)).getLsbD i = (s.returnValue ret).getLsbD i := by
      unfold trim
      split
      · rfl
      · simp [BitVec.getLsbD_setWidth, hi]; intro h; omega
    rw [this, bit i (by omega), if_pos (by omega)]
  · have : trim s.cfg (s.returnValue ret) = s.returnValue ret := by simp [trim, hq]
    have := aw_le s.cfg
    rw [‹trim _ _ = _›]
    refine ⟨fun i hi => by rw [bit i (by omega), if_pos hi], fun i hi h => ?_⟩
    rw [bit i hi, if_neg (by omega)]
    cases s.cfg.irdUpper
    · rfl
    · rfl
    · simp [State.readReg, trim, hq]
    · trivial

/-- A load of `pc` from a vector that completes (R76). -/
theorem loadPc_ok {s t : State} {vec : Addr} :
    s.loadPc vec = .ok t ↔
      Admitted s vec .qword ∧
        t = { s with pc := BitVec.ofNat 36 (vectorValue s vec % 2 ^ s.cfg.vectorBits) } := by
  unfold State.loadPc
  cases h : s.memRead vec .qword with
  | error e =>
    have : ¬ Admitted s vec .qword := fun hadm => by
      rw [memRead_ok.mpr ⟨hadm, rfl⟩] at h
      cases h
    simp [this]
  | ok v =>
    obtain ⟨hadm, rfl⟩ := memRead_ok.mp h
    simp [hadm, Size.bytes, vectorValue, eq_comm]

/-- Trap entry that completes (R314). -/
theorem trapEntry_ok {s t : State} {vec ret : Addr} :
    s.trapEntry vec ret = .ok t ↔
      Admitted (s.enterKernel ret) vec .qword ∧
        t = { s.enterKernel ret with
          pc := BitVec.ofNat 36 (vectorValue s vec % 2 ^ s.cfg.vectorBits) } :=
  loadPc_ok

/-- The reset event that completes (R341, R342). -/
theorem resetEvent_ok {s t : State} :
    s.resetEvent = .ok t ↔
      Admitted s.clearForReset s.cfg.rstVec .qword ∧
        t = { s.clearForReset with
          pc := BitVec.ofNat 36 (vectorValue s s.cfg.rstVec % 2 ^ s.cfg.vectorBits) } :=
  loadPc_ok

/-! ## The other shared operations -/

/-- SSB and CSB (R231, R232). -/
theorem statusOp_next {s t : State} {b : StatusBit} {v : Bool} :
    s.statusOp b v = .next t ↔
      (s.sr.k = true ∧ t = State.advance { s with sr := writeStatusBit s.sr b v }) ∨
        (s.sr.k = false ∧ s.cfg.privViolation = .ignore ∧ t = s.advance) := by
  unfold State.statusOp
  by_cases hk : s.sr.k = true
  · simp [hk, eq_comm]
  · have hk' : s.sr.k = false := by simpa using hk
    cases hp : s.cfg.privViolation <;> simp [hk', eq_comm (a := t)]

/-- A conditional jump always completes (R170). -/
theorem condJump_next {s t : State} {holds : Bool} {c : Reg} {imm : BitVec 9} :
    s.condJump holds c imm = .next t ↔ t = if holds then s.jumpTo c (s.immSigned imm) else s.advance := by
  unfold State.condJump
  cases holds <;> simp [eq_comm]

/-- A shift or rotation that completes: with a count below the width, or with a larger one where `SHIFT_OVER` gives it
a value (R211). -/
theorem shiftInstr_next {s t : State} {op : ShiftOp} {c a : Reg} {n : BitVec 14} :
    s.shiftInstr op c a n = .next t ↔
      (n.toNat < s.shiftWidth.bits ∧
        s.retireAlu s.shiftWidth c (atWidth1 s.shiftWidth (fun _ x => shiftValue op x n.toNat) (s.readReg a)) = .next t) ∨
      (s.shiftWidth.bits ≤ n.toNat ∧ s.cfg.shiftOver = .value ∧
        s.retireAlu s.shiftWidth c
          (atWidth1 s.shiftWidth (fun w x => Config.shiftOverValue op w x n.toNat) (s.readReg a)) = .next t) := by
  unfold State.shiftInstr
  by_cases h : n.toNat < s.shiftWidth.bits
  · have h' : ¬ s.shiftWidth.bits ≤ n.toNat := by omega
    simp [h, h']
  · have h' : s.shiftWidth.bits ≤ n.toNat := by omega
    cases s.cfg.shiftOver <;> simp [h, h', outcomeOf]

/-- The instruction at `pc` (R303): the fetch is admitted, and its word decodes. -/
theorem nextInstr_ok {s : State} {i : Instr} :
    s.nextInstr = .ok i ↔
      Admitted s s.pc .dword ∧
        decodeWord s.cfg ((ofBytes s.cfg.endian (s.mem.readBytes (s.accessBase s.pc .dword).toNat 4)).setWidth 32) =
          .ok i := by
  unfold State.nextInstr State.fetch
  by_cases h4 : s.refusesMisaligned s.pc .dword = true
  · have : ¬ Admitted s s.pc .dword := fun hadm => by
      have := accessStop_none.mpr hadm
      simp [State.accessStop, h4] at this
    simp [h4, this]
  · simp only [h4, Bool.false_eq_true, if_false]
    cases h : s.memRead s.pc .dword with
    | error e =>
      have : ¬ Admitted s s.pc .dword := fun hadm => by
        rw [memRead_ok.mpr ⟨hadm, rfl⟩] at h
        cases h
      simp [this]
    | ok v =>
      obtain ⟨hadm, rfl⟩ := memRead_ok.mp h
      simp only [hadm, true_and, Size.bytes]
      split <;> simp_all

/-- What a step can do (R303): the reset event, the entry of a hardware interrupt, or the instruction at `pc`. -/
theorem step_next {s t : State} :
    step s = .next t ↔
      (s.sample.reset = true ∧ s.beginStep.resetEvent = .ok t) ∨
      (s.sample.reset = false ∧ s.takesInterrupt s.sample.irq = true ∧
        s.beginStep.trapEntry s.cfg.hIntVec s.pc = .ok t) ∨
      (s.sample.reset = false ∧ s.takesInterrupt s.sample.irq = false ∧
        ∃ i, s.beginStep.nextInstr = .ok i ∧ exec i s.beginStep = .next t) := by
  unfold step
  cases h1 : s.sample.reset <;> cases h2 : s.takesInterrupt s.sample.irq <;> simp [outcomeOf_next]
  cases h3 : s.beginStep.nextInstr with
  | error e => rcases e with f | r <;> simp [outcomeOf]
  | ok i => simp

end Sys2Proof.Machine
end

