-- ==== Sys2Proof/Laws/Exec.lean ====
section
/-! SUPPORT. What an instruction can do, said once: if `exec` answers a next state, the instruction wrote its destination
register, or stored, or only moved `pc`, or wrote a status bit, or returned from a trap, or entered one. -/

namespace Sys2Proof.Machine

open Sys2Proof

/-- An instruction with a destination register that completes: one register write, and the next address. -/
theorem exec_next_dest {i : Instr} {s t : State} {c : Reg} (hd : dest i = some c) (h : exec i s = .next t) :
    ∃ v, s.refusesWrite c = false ∧ t = (s.setReg c v).advance := by
  have base : ∀ {v}, s.retire c v = .next t → ∃ v, s.refusesWrite c = false ∧ t = (s.setReg c v).advance :=
    fun h => ⟨_, retire_next.mp h⟩
  have shift : ∀ {op a n}, s.shiftInstr op c a n = .next t →
      ∃ v, s.refusesWrite c = false ∧ t = (s.setReg c v).advance := fun h => by
    rcases shiftInstr_next.mp h with ⟨_, h⟩ | ⟨_, _, h⟩ <;> exact base h
  have load : ∀ {sz a imm}, s.loadOp sz c a imm = .next t →
      ∃ v, s.refusesWrite c = false ∧ t = (s.setReg c v).advance := fun h =>
    have ⟨_, hr, ht⟩ := loadOp_next.mp h
    ⟨_, hr, ht⟩
  cases i <;> simp only [dest, Option.some.injEq, reduceCtorEq] at hd <;> subst hd
  case ldq =>
    change execLdq _ _ _ _ = _ at h
    unfold execLdq at h
    split at h
    · cases h
    · exact load h
  case mvuHh =>
    change execMvuHh _ _ _ = _ at h
    unfold execMvuHh at h
    split at h
    · cases h
    · exact base h
  case mvuHl =>
    change execMvuHl _ _ _ = _ at h
    unfold execMvuHl at h
    split at h
    · cases h
    · exact base h
  all_goals first | exact base h | exact shift h | exact load h

/-- A store that completes: the bytes at its effective address, and the next address. -/
theorem exec_next_store {i : Instr} {s t : State} (hi : isStore i = true) (h : exec i s = .next t) :
    ∃ sz c a imm, Admitted s (s.ea a imm) sz ∧
      t = State.advance { s with
        mem := s.mem.writeBytes (s.accessBase (s.ea a imm) sz).toNat (toBytes s.cfg.endian sz.bytes (s.readReg c)) } := by
  cases i <;> simp only [isStore, reduceCtorEq] at hi
  case stq =>
    change execStq _ _ _ _ = _ at h
    unfold execStq at h
    split at h
    · cases h
    · exact ⟨_, _, _, _, storeOp_next.mp h⟩
  all_goals exact ⟨_, _, _, _, storeOp_next.mp h⟩

/-- A jump that completes, which every jump does: only `pc`. -/
theorem exec_next_jump {i : Instr} {s t : State} (hs : isStore i = false) (hy : isSystem i = false)
    (hd : dest i = none) (h : exec i s = .next t) : ∃ v, t = { s with pc := wrap s.cfg v } := by
  cases i <;> simp only [isStore, isSystem, dest, reduceCtorEq] at hs hy hd
  case jmp =>
    cases h
    exact ⟨_, rfl⟩
  all_goals
    have h := condJump_next.mp h
    split at h <;> (subst h; exact ⟨_, rfl⟩)

/-- What an instruction that completes can do. -/
theorem exec_next {i : Instr} {s t : State} (h : exec i s = .next t) :
    (∃ c v, dest i = some c ∧ s.refusesWrite c = false ∧ t = (s.setReg c v).advance) ∨
    (isStore i = true ∧ ∃ sz c a imm, Admitted s (s.ea a imm) sz ∧
      t = State.advance { s with
        mem := s.mem.writeBytes (s.accessBase (s.ea a imm) sz).toNat (toBytes s.cfg.endian sz.bytes (s.readReg c)) }) ∨
    (isStore i = false ∧ isSystem i = false ∧ dest i = none ∧ ∃ v, t = { s with pc := wrap s.cfg v }) ∨
    (s.sr.k = true ∧ ∃ b v, (i = .ssb b ∨ i = .csb b) ∧ t = State.advance { s with sr := writeStatusBit s.sr b v }) ∨
    (s.sr.k = false ∧ (∃ b, i = .ssb b ∨ i = .csb b) ∧ t = s.advance) ∨
    (i = .urt ∧ t = s.trapReturn) ∨
    (i = .syscal ∧ s.trapEntry s.cfg.sIntVec s.nextPc = .ok t) := by
  cases hd : dest i with
  | some c =>
    obtain ⟨v, hr, ht⟩ := exec_next_dest hd h
    exact .inl ⟨c, v, rfl, hr, ht⟩
  | none =>
    cases hs : isStore i with
    | true => exact .inr (.inl ⟨rfl, exec_next_store hs h⟩)
    | false =>
      cases hy : isSystem i with
      | false => exact .inr (.inr (.inl ⟨rfl, rfl, rfl, exec_next_jump hs hy hd h⟩))
      | true =>
        refine .inr (.inr (.inr ?_))
        cases i <;> simp only [isSystem, reduceCtorEq] at hy
        case csb b =>
          rcases statusOp_next.mp h with ⟨hk, ht⟩ | ⟨hk, _, ht⟩
          · exact .inl ⟨hk, b, false, .inr rfl, ht⟩
          · exact .inr (.inl ⟨hk, ⟨b, .inr rfl⟩, ht⟩)
        case ssb b =>
          rcases statusOp_next.mp h with ⟨hk, ht⟩ | ⟨hk, _, ht⟩
          · exact .inl ⟨hk, b, true, .inl rfl, ht⟩
          · exact .inr (.inl ⟨hk, ⟨b, .inl rfl⟩, ht⟩)
        case urt =>
          cases h
          exact .inr (.inr (.inl ⟨rfl, rfl⟩))
        case syscal => exact .inr (.inr (.inr ⟨rfl, outcomeOf_next.mp h⟩))

end Sys2Proof.Machine
end

