-- ==== Sys2Proof/Laws/PerInstr.lean ====
section
/-! SUPPORT. The laws made per instruction. Family `TableRow`: the word of an instruction has the opcode and function
bits of its row of `opcode_table.json`, and zero in the bits the row says should be zero (`30_encoding.md` R110, R111,
R114). -/

namespace Sys2Proof

/-! ## One lemma per format: which bits a mask leaves of its fields -/

theorem format1_masked (op : BitVec 5) (c : BitVec 5) (imm : BitVec 22) :
    (field 27 op ||| field 22 c ||| field 0 imm) &&& 0xF8000000 = field 27 op := by
  ext i hi
  interval_cases i <;> simp [field]

theorem format2_masked (op : BitVec 5) (c : BitVec 5) (a : BitVec 5) (fn : BitVec 2) (imm : BitVec 15) :
    (field 27 op ||| field 22 c ||| field 17 a ||| field 15 fn ||| field 0 imm) &&& 0xF8018000 = field 27 op ||| field 15 fn := by
  ext i hi
  interval_cases i <;> simp [field]

theorem jmp_masked (op : BitVec 5) (c : BitVec 5) (imm : BitVec 15) :
    (field 27 op ||| field 22 c ||| field 0 imm) &&& 0xF8000000 = field 27 op := by
  ext i hi
  interval_cases i <;> simp [field]

theorem jmp_sbz (op : BitVec 5) (c : BitVec 5) (imm : BitVec 15) :
    (field 27 op ||| field 22 c ||| field 0 imm) &&& 0x003F8000 = 0 := by
  ext i hi
  interval_cases i <;> simp [field]

theorem format3_masked (op : BitVec 5) (c : BitVec 5) (a : BitVec 5) (b : BitVec 5) (fn : BitVec 3) (imm : BitVec 9) :
    (field 27 op ||| field 22 c ||| field 17 a ||| field 12 b ||| field 9 fn ||| field 0 imm) &&& 0xF8000E00 = field 27 op ||| field 9 fn := by
  ext i hi
  interval_cases i <;> simp [field]

theorem format4_masked (op : BitVec 5) (c : BitVec 5) (a : BitVec 5) (b : BitVec 5) (fn : BitVec 3) :
    (field 27 op ||| field 22 c ||| field 17 a ||| field 12 b ||| field 9 fn) &&& 0xF8000E00 = field 27 op ||| field 9 fn := by
  ext i hi
  interval_cases i <;> simp [field]

theorem format4_sbz (op : BitVec 5) (c : BitVec 5) (a : BitVec 5) (b : BitVec 5) (fn : BitVec 3) :
    (field 27 op ||| field 22 c ||| field 17 a ||| field 12 b ||| field 9 fn) &&& 0x000001FF = 0 := by
  ext i hi
  interval_cases i <;> simp [field]

theorem format5_masked (op : BitVec 5) (c : BitVec 5) (a : BitVec 5) (fn : BitVec 3) (imm : BitVec 14) :
    (field 27 op ||| field 22 c ||| field 17 a ||| field 14 fn ||| field 0 imm) &&& 0xF801C000 = field 27 op ||| field 14 fn := by
  ext i hi
  interval_cases i <;> simp [field]

theorem format8_masked (op : BitVec 5) (fn : BitVec 5) (b : BitVec 5) :
    (field 27 op ||| field 22 fn ||| field 17 b) &&& 0xFFC00000 = field 27 op ||| field 22 fn := by
  ext i hi
  interval_cases i <;> simp [field]

theorem format8_sbz (op : BitVec 5) (fn : BitVec 5) (b : BitVec 5) :
    (field 27 op ||| field 22 fn ||| field 17 b) &&& 0x0001FFFF = 0 := by
  ext i hi
  interval_cases i <;> simp [field]

/-- JMP is format 2 with its A and FN1 fields zero. -/
theorem encFormat2_jmp (op : BitVec 5) (c : Reg) (imm : BitVec 15) :
    encFormat2 op c .zr 0 imm = field 27 op ||| field 22 c.toBits ||| field 0 imm := by
  simp [encFormat2, Reg.toBits, field]

end Sys2Proof

namespace Sys2Proof.Laws

/-- The word of the instruction agrees with its row of the table, where FN2 is at bits 21 to 17 as in the table. -/
def TableRow.Statement (i : Instr) : Prop :=
  ∀ cfg : Config, cfg.fn2Lo.val = 17 →
    encode cfg i &&& i.tableRow.mask = i.tableRow.pattern ∧ encode cfg i &&& i.tableRow.sbz = 0

theorem TableRow.add (c a b : Reg) : TableRow.Statement (.add c a b) := by
  intro cfg _
  simp only [encode, encFormat4, Instr.tableRow, format4_masked, format4_sbz]
  exact ⟨rfl, trivial⟩

theorem TableRow.sub (c a b : Reg) : TableRow.Statement (.sub c a b) := by
  intro cfg _
  simp only [encode, encFormat4, Instr.tableRow, format4_masked, format4_sbz]
  exact ⟨rfl, trivial⟩

theorem TableRow.and (c a b : Reg) : TableRow.Statement (.and c a b) := by
  intro cfg _
  simp only [encode, encFormat4, Instr.tableRow, format4_masked, format4_sbz]
  exact ⟨rfl, trivial⟩

theorem TableRow.or (c a b : Reg) : TableRow.Statement (.or c a b) := by
  intro cfg _
  simp only [encode, encFormat4, Instr.tableRow, format4_masked, format4_sbz]
  exact ⟨rfl, trivial⟩

theorem TableRow.xor (c a b : Reg) : TableRow.Statement (.xor c a b) := by
  intro cfg _
  simp only [encode, encFormat4, Instr.tableRow, format4_masked, format4_sbz]
  exact ⟨rfl, trivial⟩

theorem TableRow.mul (c a b : Reg) : TableRow.Statement (.mul c a b) := by
  intro cfg _
  simp only [encode, encFormat4, Instr.tableRow, format4_masked, format4_sbz]
  exact ⟨rfl, trivial⟩

theorem TableRow.div (c a b : Reg) : TableRow.Statement (.div c a b) := by
  intro cfg _
  simp only [encode, encFormat4, Instr.tableRow, format4_masked, format4_sbz]
  exact ⟨rfl, trivial⟩

theorem TableRow.mod (c a b : Reg) : TableRow.Statement (.mod c a b) := by
  intro cfg _
  simp only [encode, encFormat4, Instr.tableRow, format4_masked, format4_sbz]
  exact ⟨rfl, trivial⟩

theorem TableRow.addi (c a : Reg) (imm : BitVec 14) : TableRow.Statement (.addi c a imm) := by
  intro cfg _
  simp only [encode, encFormat5, Instr.tableRow, format5_masked]
  exact ⟨rfl, BitVec.and_zero⟩

theorem TableRow.subi (c a : Reg) (imm : BitVec 14) : TableRow.Statement (.subi c a imm) := by
  intro cfg _
  simp only [encode, encFormat5, Instr.tableRow, format5_masked]
  exact ⟨rfl, BitVec.and_zero⟩

theorem TableRow.andi (c a : Reg) (imm : BitVec 14) : TableRow.Statement (.andi c a imm) := by
  intro cfg _
  simp only [encode, encFormat5, Instr.tableRow, format5_masked]
  exact ⟨rfl, BitVec.and_zero⟩

theorem TableRow.ori (c a : Reg) (imm : BitVec 14) : TableRow.Statement (.ori c a imm) := by
  intro cfg _
  simp only [encode, encFormat5, Instr.tableRow, format5_masked]
  exact ⟨rfl, BitVec.and_zero⟩

theorem TableRow.xori (c a : Reg) (imm : BitVec 14) : TableRow.Statement (.xori c a imm) := by
  intro cfg _
  simp only [encode, encFormat5, Instr.tableRow, format5_masked]
  exact ⟨rfl, BitVec.and_zero⟩

theorem TableRow.muli (c a : Reg) (imm : BitVec 14) : TableRow.Statement (.muli c a imm) := by
  intro cfg _
  simp only [encode, encFormat5, Instr.tableRow, format5_masked]
  exact ⟨rfl, BitVec.and_zero⟩

theorem TableRow.divi (c a : Reg) (imm : BitVec 14) : TableRow.Statement (.divi c a imm) := by
  intro cfg _
  simp only [encode, encFormat5, Instr.tableRow, format5_masked]
  exact ⟨rfl, BitVec.and_zero⟩

theorem TableRow.modi (c a : Reg) (imm : BitVec 14) : TableRow.Statement (.modi c a imm) := by
  intro cfg _
  simp only [encode, encFormat5, Instr.tableRow, format5_masked]
  exact ⟨rfl, BitVec.and_zero⟩

theorem TableRow.shr (c a : Reg) (n : BitVec 14) : TableRow.Statement (.shr c a n) := by
  intro cfg _
  simp only [encode, encFormat5, Instr.tableRow, format5_masked]
  exact ⟨rfl, BitVec.and_zero⟩

theorem TableRow.asr (c a : Reg) (n : BitVec 14) : TableRow.Statement (.asr c a n) := by
  intro cfg _
  simp only [encode, encFormat5, Instr.tableRow, format5_masked]
  exact ⟨rfl, BitVec.and_zero⟩

theorem TableRow.shl (c a : Reg) (n : BitVec 14) : TableRow.Statement (.shl c a n) := by
  intro cfg _
  simp only [encode, encFormat5, Instr.tableRow, format5_masked]
  exact ⟨rfl, BitVec.and_zero⟩

theorem TableRow.asl (c a : Reg) (n : BitVec 14) : TableRow.Statement (.asl c a n) := by
  intro cfg _
  simp only [encode, encFormat5, Instr.tableRow, format5_masked]
  exact ⟨rfl, BitVec.and_zero⟩

theorem TableRow.ror (c a : Reg) (n : BitVec 14) : TableRow.Statement (.ror c a n) := by
  intro cfg _
  simp only [encode, encFormat5, Instr.tableRow, format5_masked]
  exact ⟨rfl, BitVec.and_zero⟩

theorem TableRow.rol (c a : Reg) (n : BitVec 14) : TableRow.Statement (.rol c a n) := by
  intro cfg _
  simp only [encode, encFormat5, Instr.tableRow, format5_masked]
  exact ⟨rfl, BitVec.and_zero⟩

theorem TableRow.mvu (c : Reg) (imm : BitVec 22) : TableRow.Statement (.mvu c imm) := by
  intro cfg _
  simp only [encode, encFormat1, Instr.tableRow, format1_masked]
  exact ⟨rfl, BitVec.and_zero⟩

theorem TableRow.stb (c a : Reg) (imm : BitVec 15) : TableRow.Statement (.stb c a imm) := by
  intro cfg _
  simp only [encode, encFormat2, Instr.tableRow, format2_masked]
  exact ⟨rfl, BitVec.and_zero⟩

theorem TableRow.stw (c a : Reg) (imm : BitVec 15) : TableRow.Statement (.stw c a imm) := by
  intro cfg _
  simp only [encode, encFormat2, Instr.tableRow, format2_masked]
  exact ⟨rfl, BitVec.and_zero⟩

theorem TableRow.std (c a : Reg) (imm : BitVec 15) : TableRow.Statement (.std c a imm) := by
  intro cfg _
  simp only [encode, encFormat2, Instr.tableRow, format2_masked]
  exact ⟨rfl, BitVec.and_zero⟩

theorem TableRow.stq (c a : Reg) (imm : BitVec 15) : TableRow.Statement (.stq c a imm) := by
  intro cfg _
  simp only [encode, encFormat2, Instr.tableRow, format2_masked]
  exact ⟨rfl, BitVec.and_zero⟩

theorem TableRow.ldb (c a : Reg) (imm : BitVec 15) : TableRow.Statement (.ldb c a imm) := by
  intro cfg _
  simp only [encode, encFormat2, Instr.tableRow, format2_masked]
  exact ⟨rfl, BitVec.and_zero⟩

theorem TableRow.ldw (c a : Reg) (imm : BitVec 15) : TableRow.Statement (.ldw c a imm) := by
  intro cfg _
  simp only [encode, encFormat2, Instr.tableRow, format2_masked]
  exact ⟨rfl, BitVec.and_zero⟩

theorem TableRow.ldd (c a : Reg) (imm : BitVec 15) : TableRow.Statement (.ldd c a imm) := by
  intro cfg _
  simp only [encode, encFormat2, Instr.tableRow, format2_masked]
  exact ⟨rfl, BitVec.and_zero⟩

theorem TableRow.ldq (c a : Reg) (imm : BitVec 15) : TableRow.Statement (.ldq c a imm) := by
  intro cfg _
  simp only [encode, encFormat2, Instr.tableRow, format2_masked]
  exact ⟨rfl, BitVec.and_zero⟩

theorem TableRow.jmp (c : Reg) (imm : BitVec 15) : TableRow.Statement (.jmp c imm) := by
  intro cfg _
  simp only [encode, encFormat2_jmp, Instr.tableRow, jmp_masked, jmp_sbz]
  exact ⟨rfl, trivial⟩

theorem TableRow.jz (c a b : Reg) (imm : BitVec 9) : TableRow.Statement (.jz c a b imm) := by
  intro cfg _
  simp only [encode, encFormat3, Instr.tableRow, format3_masked]
  exact ⟨rfl, BitVec.and_zero⟩

theorem TableRow.jc (c a b : Reg) (imm : BitVec 9) : TableRow.Statement (.jc c a b imm) := by
  intro cfg _
  simp only [encode, encFormat3, Instr.tableRow, format3_masked]
  exact ⟨rfl, BitVec.and_zero⟩

theorem TableRow.js (c a b : Reg) (imm : BitVec 9) : TableRow.Statement (.js c a b imm) := by
  intro cfg _
  simp only [encode, encFormat3, Instr.tableRow, format3_masked]
  exact ⟨rfl, BitVec.and_zero⟩

theorem TableRow.jv (c a b : Reg) (imm : BitVec 9) : TableRow.Statement (.jv c a b imm) := by
  intro cfg _
  simp only [encode, encFormat3, Instr.tableRow, format3_masked]
  exact ⟨rfl, BitVec.and_zero⟩

theorem TableRow.jnz (c a b : Reg) (imm : BitVec 9) : TableRow.Statement (.jnz c a b imm) := by
  intro cfg _
  simp only [encode, encFormat3, Instr.tableRow, format3_masked]
  exact ⟨rfl, BitVec.and_zero⟩

theorem TableRow.jnc (c a b : Reg) (imm : BitVec 9) : TableRow.Statement (.jnc c a b imm) := by
  intro cfg _
  simp only [encode, encFormat3, Instr.tableRow, format3_masked]
  exact ⟨rfl, BitVec.and_zero⟩

theorem TableRow.jns (c a b : Reg) (imm : BitVec 9) : TableRow.Statement (.jns c a b imm) := by
  intro cfg _
  simp only [encode, encFormat3, Instr.tableRow, format3_masked]
  exact ⟨rfl, BitVec.and_zero⟩

theorem TableRow.jnv (c a b : Reg) (imm : BitVec 9) : TableRow.Statement (.jnv c a b imm) := by
  intro cfg _
  simp only [encode, encFormat3, Instr.tableRow, format3_masked]
  exact ⟨rfl, BitVec.and_zero⟩

theorem TableRow.csb (b : StatusBit) : TableRow.Statement (.csb b) := by
  intro cfg h
  simp only [encode, encFormat8, h, Instr.tableRow, format8_masked, format8_sbz]
  exact ⟨rfl, trivial⟩

theorem TableRow.ssb (b : StatusBit) : TableRow.Statement (.ssb b) := by
  intro cfg h
  simp only [encode, encFormat8, h, Instr.tableRow, format8_masked, format8_sbz]
  exact ⟨rfl, trivial⟩

theorem TableRow.urt : TableRow.Statement .urt := by
  intro cfg _
  simp only [encode, encFormat7, Instr.tableRow]
  decide

theorem TableRow.syscal : TableRow.Statement .syscal := by
  intro cfg _
  simp only [encode, encFormat7, Instr.tableRow]
  decide

theorem TableRow.mvuHh (c : Reg) (imm : BitVec 22) : TableRow.Statement (.mvuHh c imm) := by
  intro cfg _
  simp only [encode, encFormat1, Instr.tableRow, format1_masked]
  exact ⟨rfl, BitVec.and_zero⟩

theorem TableRow.mvuHl (c : Reg) (imm : BitVec 22) : TableRow.Statement (.mvuHl c imm) := by
  intro cfg _
  simp only [encode, encFormat1, Instr.tableRow, format1_masked]
  exact ⟨rfl, BitVec.and_zero⟩

end Sys2Proof.Laws
end

