-- ==== Sys2Proof/Machine/Assembly.lean ====
section
/-! DEFINITION. The assembly text of an instruction (`30_encoding.md` R125, R126; D28): an upper-case mnemonic, a space,
and the operands in the order of their fields, registers by name and immediates in decimal. Nothing of the machine
depends on it. -/

namespace Sys2Proof.Machine

/-- Operands separated by a comma and a space (R125). -/
def operands (l : List String) : String := ", ".intercalate l

end Sys2Proof.Machine

namespace Sys2Proof

/-- The name of a register (R21). -/
def Reg.name : Reg → String
  | .zr => "ZR"
  | .g i => "G" ++ toString (i.val + 1)
  | .pr => "PR"
  | .sp => "SP"
  | .jdr => "JDR"
  | .srd => "SRD"
  | .ird => "IRD"
  | .sr => "SR"
  | .pc => "PC"

open Machine in
/-- The assembly text of an instruction (R126). -/
def Instr.assembly : Instr → String
  | .add c a b => "ADD " ++ operands [c.name, a.name, b.name]
  | .sub c a b => "SUB " ++ operands [c.name, a.name, b.name]
  | .and c a b => "AND " ++ operands [c.name, a.name, b.name]
  | .or c a b => "OR " ++ operands [c.name, a.name, b.name]
  | .xor c a b => "XOR " ++ operands [c.name, a.name, b.name]
  | .mul c a b => "MUL " ++ operands [c.name, a.name, b.name]
  | .div c a b => "DIV " ++ operands [c.name, a.name, b.name]
  | .mod c a b => "MOD " ++ operands [c.name, a.name, b.name]
  | .addi c a imm => "ADDI " ++ operands [c.name, a.name, toString imm.toNat]
  | .subi c a imm => "SUBI " ++ operands [c.name, a.name, toString imm.toNat]
  | .andi c a imm => "ANDI " ++ operands [c.name, a.name, toString imm.toNat]
  | .ori c a imm => "ORI " ++ operands [c.name, a.name, toString imm.toNat]
  | .xori c a imm => "XORI " ++ operands [c.name, a.name, toString imm.toNat]
  | .muli c a imm => "MULI " ++ operands [c.name, a.name, toString imm.toInt]
  | .divi c a imm => "DIVI " ++ operands [c.name, a.name, toString imm.toInt]
  | .modi c a imm => "MODI " ++ operands [c.name, a.name, toString imm.toInt]
  | .shr c a n => "SHR " ++ operands [c.name, a.name, toString n.toNat]
  | .asr c a n => "ASR " ++ operands [c.name, a.name, toString n.toNat]
  | .shl c a n => "SHL " ++ operands [c.name, a.name, toString n.toNat]
  | .asl c a n => "ASL " ++ operands [c.name, a.name, toString n.toNat]
  | .ror c a n => "ROR " ++ operands [c.name, a.name, toString n.toNat]
  | .rol c a n => "ROL " ++ operands [c.name, a.name, toString n.toNat]
  | .mvu c imm => "MVU " ++ operands [c.name, toString imm.toNat]
  | .stb c a imm => "STB " ++ operands [c.name, a.name, toString imm.toNat]
  | .stw c a imm => "STW " ++ operands [c.name, a.name, toString imm.toNat]
  | .std c a imm => "STD " ++ operands [c.name, a.name, toString imm.toNat]
  | .stq c a imm => "STQ " ++ operands [c.name, a.name, toString imm.toNat]
  | .ldb c a imm => "LDB " ++ operands [c.name, a.name, toString imm.toNat]
  | .ldw c a imm => "LDW " ++ operands [c.name, a.name, toString imm.toNat]
  | .ldd c a imm => "LDD " ++ operands [c.name, a.name, toString imm.toNat]
  | .ldq c a imm => "LDQ " ++ operands [c.name, a.name, toString imm.toNat]
  | .jmp c imm => "JMP " ++ operands [c.name, toString imm.toInt]
  | .jz c a b imm => "JZ " ++ operands [c.name, a.name, b.name, toString imm.toInt]
  | .jc c a b imm => "JC " ++ operands [c.name, a.name, b.name, toString imm.toInt]
  | .js c a b imm => "JS " ++ operands [c.name, a.name, b.name, toString imm.toInt]
  | .jv c a b imm => "JV " ++ operands [c.name, a.name, b.name, toString imm.toInt]
  | .jnz c a b imm => "JNZ " ++ operands [c.name, a.name, b.name, toString imm.toInt]
  | .jnc c a b imm => "JNC " ++ operands [c.name, a.name, b.name, toString imm.toInt]
  | .jns c a b imm => "JNS " ++ operands [c.name, a.name, b.name, toString imm.toInt]
  | .jnv c a b imm => "JNV " ++ operands [c.name, a.name, b.name, toString imm.toInt]
  | .csb b => "CSB " ++ toString b.toBits.toNat
  | .ssb b => "SSB " ++ toString b.toBits.toNat
  | .urt => "URT"
  | .syscal => "SYSCAL"
  | .mvuHh c imm => "MVU.HH " ++ operands [c.name, toString imm.toNat]
  | .mvuHl c imm => "MVU.HL " ++ operands [c.name, toString imm.toNat]

end Sys2Proof
end

