-- ==== Sys2Proof/Tests/Slice0.lean ====
section
/-! SUPPORT. The row's own tests: the WellFormed smoke tests, decoding of words written out in the spec, one step of each
instruction with the results of `95_test_vectors.md`, refusals, and for every statement with hypotheses a concrete case
that meets them. The words and the results come from the spec. -/

namespace Sys2Proof.Tests

open Sys2Proof Sys2Proof.Machine

/-! ## Helpers -/

/-- A machine of a configuration at 0x00100000 in kernel mode, with the given registers (the start of `95_test_vectors.md`
section 2). -/
def startOf (c : Config) (rs : List (Reg × Word)) : State :=
  rs.foldl (fun s e => { s with regs := s.regs.set e.1 e.2 }) { State.reset with pc := 0x00100000, cfg := c }

/-- The same in the reference profile. -/
def start (rs : List (Reg × Word)) : State := startOf Config.reference rs

/-- With bytes in memory. -/
def State.withBytes (s : State) (a : Nat) (bs : List Byte) : State := { s with mem := s.mem.writeBytes a bs }

/-- With K and I as given. -/
def State.withMode (s : State) (k i : Bool) : State := { s with sr := { s.sr with k := k, i := i } }

/-- The state after a step that runs a word. -/
def after (s : State) (w : Nat) : Option State :=
  match step (s.withFetchWord 32 w) with
  | .next t => some t
  | .fault _ => none
  | .refused _ => none

/-- A register after one step of the reference profile. -/
def result (rs : List (Reg × Word)) (w : Nat) (r : Reg) : Option Word := (after (start rs) w).map fun t => t.readReg r

/-- `pc` after one step of the reference profile. -/
def goesTo (rs : List (Reg × Word)) (w : Nat) : Option Addr := (after (start rs) w).map fun t => t.pc

/-- Bytes of memory after one step of the reference profile. -/
def stored (rs : List (Reg × Word)) (w a n : Nat) : Option (List Byte) :=
  (after (start rs) w).map fun t => t.mem.readBytes a n

/-- The refusal of a step that runs a word. -/
def refusal (s : State) (w : Nat) : Option Refusal :=
  match step (s.withFetchWord 32 w) with
  | .next _ => none
  | .fault _ => none
  | .refused r => some r

/-- A state in kernel mode at an address two bytes off, under a treatment of misaligned accesses. -/
def unaligned (m : Misaligned) : State :=
  { startOf { Config.reference with misaligned := m } [(.g 2, 0x00200002)] with pc := 0x00100002 }

/-- The base machine without the MUL/DIV extension. -/
def bare : Config := { Config.reference with extM := false }

/-! ## Well-formed instructions -/

theorem test_mul_needs_extension : WellFormed bare (.mul (.g 0) (.g 1) (.g 2)) = false := by decide

theorem test_stq_needs_extension : WellFormed Config.reference (.stq (.g 0) .sp 0) = false := by decide

theorem test_count_32_is_ill_formed : WellFormed Config.reference (.shr (.g 1) (.g 0) 32) = false := by decide

theorem test_count_31_is_well_formed : WellFormed Config.reference (.shr (.g 1) (.g 0) 31) = true := by decide

theorem test_count_64_is_ill_formed : WellFormed Config.srm64 (.rol (.g 1) (.g 0) 64) = false := by decide

theorem test_count_63_is_well_formed : WellFormed Config.srm64 (.rol (.g 1) (.g 0) 63) = true := by decide

theorem test_wide_base_machine_is_no_machine : Config.wf { Config.reference with awExtra := 4 } = false := by decide

theorem test_misaligned_vector_is_no_machine :
    Config.wf { Config.reference with sIntVec := 0xFFFFFFF4 } = false := by decide

theorem test_profiles_are_machines : [Config.reference, Config.launch, Config.srm64].all Config.wf = true := by decide

/-! ## Decoding: words written out in the rules -/

theorem test_decode_alu_register :
    [(0x00C22000 : BitVec 32), 0x00C22200, 0x00C22400, 0x00C22600, 0x00C22800, 0x007DF000].map (decodeWord Config.reference) =
      [.ok (.add (.g 2) (.g 0) (.g 1)), .ok (.sub (.g 2) (.g 0) (.g 1)),
        .ok (.and (.g 2) (.g 0) (.g 1)), .ok (.or (.g 2) (.g 0) (.g 1)),
        .ok (.xor (.g 2) (.g 0) (.g 1)), .ok (.add (.g 0) .sr .pc)] := by decide

theorem test_decode_alu_immediate :
    [(0x08420278 : BitVec 32), 0x0EB44004, 0x088280FF, 0x0882FFFF, 0x08830001].map (decodeWord Config.reference) =
      [.ok (.addi (.g 0) (.g 0) 632), .ok (.subi .sp .sp 4),
        .ok (.andi (.g 1) (.g 0) 255), .ok (.ori (.g 1) (.g 0) 16383),
        .ok (.xori (.g 1) (.g 0) 1)] := by decide

theorem test_decode_muldiv :
    [(0x00C22A00 : BitVec 32), 0x00C22C00, 0x00C22E00, 0x08837FFD, 0x0883BFFD, 0x0883FFFD].map (decodeWord Config.reference) =
      [.ok (.mul (.g 2) (.g 0) (.g 1)), .ok (.div (.g 2) (.g 0) (.g 1)),
        .ok (.mod (.g 2) (.g 0) (.g 1)), .ok (.muli (.g 1) (.g 0) (-3)),
        .ok (.divi (.g 1) (.g 0) (-3)), .ok (.modi (.g 1) (.g 0) (-3))] := by decide

theorem test_decode_shift :
    [(0x10820004 : BitVec 32), 0x10824004, 0x10828004, 0x1082C004, 0x10830008, 0x10834008].map (decodeWord Config.reference) =
      [.ok (.shr (.g 1) (.g 0) 4), .ok (.asr (.g 1) (.g 0) 4),
        .ok (.shl (.g 1) (.g 0) 4), .ok (.asl (.g 1) (.g 0) 4),
        .ok (.ror (.g 1) (.g 0) 8), .ok (.rol (.g 1) (.g 0) 8)] := by decide

theorem test_decode_move_and_memory :
    [(0x18448D15 : BitVec 32), 0x20750000, 0x20868006, 0x20867FFF, 0x28B50000, 0x29068002, 0x29060003].map (decodeWord Config.reference) =
      [.ok (.mvu (.g 0) 0x48D15), .ok (.std (.g 0) .sp 0),
        .ok (.stw (.g 1) (.g 2) 6), .ok (.stb (.g 1) (.g 2) 32767),
        .ok (.ldd (.g 1) .sp 0), .ok (.ldw (.g 3) (.g 2) 2),
        .ok (.ldb (.g 3) (.g 2) 3)] := by decide

theorem test_decode_jump :
    [(0x37C07FF8 : BitVec 32), 0x3FC2200C, 0x3FC223F0, 0x3EC20400, 0x3FC22608, 0x3FC209F8, 0x3FC22A08, 0x3FC22C08, 0x3FC22E08].map (decodeWord Config.reference) =
      [.ok (.jmp .pc (-8)), .ok (.jz .pc (.g 0) (.g 1) 12),
        .ok (.jc .pc (.g 0) (.g 1) (-16)), .ok (.js .jdr (.g 0) .zr 0),
        .ok (.jv .pc (.g 0) (.g 1) 8), .ok (.jnz .pc (.g 0) .zr (-8)),
        .ok (.jnc .pc (.g 0) (.g 1) 8), .ok (.jns .pc (.g 0) (.g 1) 8),
        .ok (.jnv .pc (.g 0) (.g 1) 8)] := by decide

theorem test_decode_system :
    [(0x40420000 : BitVec 32), 0x40060000, 0x48000000, 0x50000000].map (decodeWord Config.reference) =
      [.ok (.ssb .i), .ok (.csb .q),
        .ok .urt, .ok .syscal] := by decide

theorem test_decode_64_bit :
    [(0x20758000 : BitVec 32), 0x28758008, 0x587FFFFF, 0x60523456].map (decodeWord Config.launch) =
      [.ok (.stq (.g 0) .sp 0), .ok (.ldq (.g 0) .sp 8),
        .ok (.mvuHh (.g 0) 0x3FFFFF), .ok (.mvuHl (.g 0) 0x123456)] := by decide

/-- The reserved words of `95_test_vectors.md` section 2.8. -/
theorem test_reserved_words :
    [(0xFFFFFFFF : BitVec 32), 0x68000000, 0x00C22001, 0x10820020, 0x10818000, 0x20018000, 0x28018000, 0x58400001,
        0x60400001, 0x30420000, 0x30408000, 0x48000001, 0x50000001, 0x40480000, 0x40820000].map
          (decodeWord Config.reference) =
      [.error .opcode, .error .opcode, .error .unusedBits, .error .shiftCount, .error .functionField,
        .error (.absent .bits64), .error (.absent .bits64), .error (.absent .bits64), .error (.absent .bits64),
        .error .unusedBits, .error .unusedBits, .error .unusedBits, .error .unusedBits, .error .statusBit,
        .error .functionField] := by decide

/-- The words that are reserved without the MUL/DIV extension (the same section). -/
theorem test_reserved_without_muldiv :
    [(0x00C22A00 : BitVec 32), 0x00C22C00, 0x00C22E00, 0x08834007, 0x08838001, 0x0883C001].map (decodeWord bare) =
      List.replicate 6 (.error (.absent .mulDiv)) := by decide

theorem test_table_word_add : decodeTableWord 32 0x00C22000 = some (.add (.g 2) (.g 0) (.g 1)) := by decide

theorem test_table_word_reserved : decodeTableWord 32 0xFFFFFFFF = none := by decide

/-- With FN2 read from bits 21 and 20 (the narrower field R109 speaks of), SSB 1 has FN2 at bit 20. -/
theorem test_narrow_fn2 :
    decodeWord { Config.reference with fn2Lo := ⟨20, by decide⟩ } 0x40500000 = .ok (.ssb .i) := by decide

/-! ## One step of each instruction (`95_test_vectors.md`) -/

theorem test_add_wraps : result [(.g 0, 0xFFFFFFFF), (.g 1, 1)] 0x00C22000 (.g 2) = some 0 := by decide

theorem test_sub_borrows : result [(.g 0, 0), (.g 1, 1)] 0x00C22200 (.g 2) = some 0xFFFFFFFF := by decide

theorem test_and : result [(.g 0, 0xF0F0A5A5), (.g 1, 0x0FF0FFFF)] 0x00C22400 (.g 2) = some 0x00F0A5A5 := by decide

theorem test_or : result [(.g 0, 0xF0F0A5A5), (.g 1, 0x0FF0FFFF)] 0x00C22600 (.g 2) = some 0xFFF0FFFF := by decide

theorem test_xor : result [(.g 0, 0xF0F0A5A5), (.g 1, 0x0FF0FFFF)] 0x00C22800 (.g 2) = some 0xFF005A5A := by decide

theorem test_add_to_zr_is_discarded : result [(.g 0, 5)] 0x08020001 .zr = some 0 := by decide

theorem test_addi_zero_extends : result [(.g 0, 0x00100000)] 0x08823FFF (.g 1) = some 0x00103FFF := by decide

theorem test_addi_wraps : result [(.g 0, 0xFFFFFFFF)] 0x08820001 (.g 1) = some 0 := by decide

theorem test_subi : result [(.g 0, 5)] 0x08827FFF (.g 1) = some 0xFFFFC006 := by decide

theorem test_andi : result [(.g 0, 0xFFFFFFFF)] 0x0882BFFF (.g 1) = some 0x00003FFF := by decide

theorem test_ori : result [(.g 0, 0x12340000)] 0x0882EABC (.g 1) = some 0x12342ABC := by decide

theorem test_xori : result [(.g 0, 0xFFFFFFFF)] 0x08833FFF (.g 1) = some 0xFFFFC000 := by decide

theorem test_mul_negative : result [(.g 0, 0xFFFFFFFD), (.g 1, 7)] 0x00C22A00 (.g 2) = some 0xFFFFFFEB := by decide

theorem test_mul_overflows :
    result [(.g 0, 0x80000000), (.g 1, 0xFFFFFFFF)] 0x00C22A00 (.g 2) = some 0x80000000 := by decide

theorem test_div_truncates : result [(.g 0, 0xFFFFFFF9), (.g 1, 2)] 0x00C22C00 (.g 2) = some 0xFFFFFFFD := by decide

theorem test_div_by_minus_one :
    result [(.g 0, 0x7FFFFFFF), (.g 1, 0xFFFFFFFF)] 0x00C22C00 (.g 2) = some 0x80000001 := by decide

theorem test_mod_sign_of_dividend :
    result [(.g 0, 0xFFFFFFF9), (.g 1, 2)] 0x00C22E00 (.g 2) = some 0xFFFFFFFF := by decide

theorem test_mod_positive : result [(.g 0, 7), (.g 1, 0xFFFFFFFE)] 0x00C22E00 (.g 2) = some 1 := by decide

theorem test_muli_signed : result [(.g 0, 0xFFFFFFFF)] 0x08836000 (.g 1) = some 0x00002000 := by decide

theorem test_divi_signed : result [(.g 0, 7)] 0x0883BFFD (.g 1) = some 0xFFFFFFFE := by decide

theorem test_modi_sign_of_dividend : result [(.g 0, 0xFFFFFF9C)] 0x0883C007 (.g 1) = some 0xFFFFFFFE := by decide

/-- A division by zero has no stated result (R283), and the machine goes on. -/
theorem test_div_by_zero_goes_on : goesTo [(.g 0, 1)] 0x00C22C00 = some 0x00100004 := by decide

theorem test_shr : result [(.g 0, 0x80000001)] 0x10820001 (.g 1) = some 0x40000000 := by decide

theorem test_asr : result [(.g 0, 0x80000001)] 0x1082401F (.g 1) = some 0xFFFFFFFF := by decide

theorem test_shl : result [(.g 0, 0x80000001)] 0x10828001 (.g 1) = some 0x00000002 := by decide

theorem test_asl : result [(.g 0, 0x12345678)] 0x1082C00C (.g 1) = some 0x45678000 := by decide

theorem test_ror : result [(.g 0, 0x80000001)] 0x1083001F (.g 1) = some 0x00000003 := by decide

theorem test_rol : result [(.g 0, 0x12345678)] 0x1083400C (.g 1) = some 0x45678123 := by decide

theorem test_mvu : result [(.g 0, 0xDEADBEEF)] 0x18448D15 (.g 0) = some 0x12345400 := by decide

theorem test_std_little_endian :
    stored [(.g 0, 0x11223344), (.g 2, 0x00200000)] 0x20470000 0x00200000 4 = some [0x44, 0x33, 0x22, 0x11] := by decide

theorem test_std_wraps_into_vm :
    stored [(.g 0, 0xAABBCCDD), (.g 2, 0xFFFFFFFC)] 0x20470008 4 4 = some [0xDD, 0xCC, 0xBB, 0xAA] := by decide

theorem test_stw_two_bytes :
    stored [(.g 0, 0x11223344), (.g 2, 0x00200000)] 0x20468006 0x00200005 4 = some [0, 0x44, 0x33, 0] := by decide

theorem test_stb_largest_offset :
    stored [(.g 0, 0xAABBCCDD), (.g 2, 0x00200000)] 0x20467FFF 0x00207FFE 3 = some [0, 0xDD, 0] := by decide

/-- The bytes the loads of `95_test_vectors.md` section 2.2 read. -/
def loading (w : Nat) (r : Reg) : Option Word :=
  (after (State.withBytes (start [(.g 2, 0x00200000), (.g 3, 0xDEADBEEF)]) 0x00200000
    [0x44, 0x33, 0x22, 0x11, 0x80, 0xFF, 0x7F, 0x00]) w).map fun t => t.readReg r

theorem test_ldd : loading 0x29070004 (.g 3) = some 0x007FFF80 := by decide

theorem test_ldd_to_pc_is_discarded : loading 0x2FC70000 .pc = some 0x00100004 := by decide

theorem test_ldw_zero_extends : loading 0x29068004 (.g 3) = some 0x0000FF80 := by decide

theorem test_ldb_zero_extends : loading 0x29060005 (.g 3) = some 0x000000FF := by decide

/-- One step with the 64-bit extension, from `95_test_vectors.md` section 2.9. -/
def wide (rs : List (Reg × Word)) (w : Nat) : Option State :=
  after (State.withBytes (startOf Config.launch rs) 0x00200008 [0x11, 0x22, 0x33, 0x44, 0x55, 0x66, 0x77, 0x88]) w

theorem test_stq :
    (wide [(.g 0, 0x0102030405060708), (.sp, 0x00200000)] 0x20758000).map
      (fun t => t.mem.readBytes 0x00200000 8) = some [8, 7, 6, 5, 4, 3, 2, 1] := by decide

theorem test_ldq :
    (wide [(.sp, 0x00200000)] 0x28758008).map (fun t => t.readReg (.g 0)) = some 0x8877665544332211 := by decide

theorem test_mvu_hh :
    (wide [(.g 0, 0x0000000012345678)] 0x587FFFFF).map (fun t => t.readReg (.g 0)) = some 0xFFFFFC0012345678 := by decide

theorem test_mvu_hl :
    (wide [(.g 0, 0xFFFFFC0012345678)] 0x60523456).map (fun t => t.readReg (.g 0)) = some 0xFFD2345612345678 := by decide

theorem test_jmp_backward : goesTo [(.g 0, 0x00104000)] 0x30404000 = some 0x00100000 := by decide

theorem test_jmp_wraps : goesTo [] 0x30007FFC = some 0xFFFFFFFC := by decide

theorem test_jz_not_taken : goesTo [(.g 0, 0x00000003), (.g 1, 0x00000005)] 0x3FC22010 = some 0x00100004 := by decide

theorem test_jz_taken : goesTo [(.g 0, 0x00000005), (.g 1, 0x00000005)] 0x3FC22010 = some 0x00100010 := by decide

theorem test_jc_taken : goesTo [(.g 0, 0x00000003), (.g 1, 0x00000005)] 0x3FC22210 = some 0x00100010 := by decide

theorem test_jc_not_taken : goesTo [(.g 0, 0x80000000), (.g 1, 0x00000001)] 0x3FC22210 = some 0x00100004 := by decide

theorem test_js_taken : goesTo [(.g 0, 0x00000003), (.g 1, 0x00000005)] 0x3FC22410 = some 0x00100010 := by decide

theorem test_js_not_taken : goesTo [(.g 0, 0x80000000), (.g 1, 0x00000001)] 0x3FC22410 = some 0x00100004 := by decide

theorem test_jv_not_taken : goesTo [(.g 0, 0x00000003), (.g 1, 0x00000005)] 0x3FC22610 = some 0x00100004 := by decide

theorem test_jv_taken : goesTo [(.g 0, 0x80000000), (.g 1, 0x00000001)] 0x3FC22610 = some 0x00100010 := by decide

theorem test_jnz_taken : goesTo [(.g 0, 0x00000003), (.g 1, 0x00000005)] 0x3FC22810 = some 0x00100010 := by decide

theorem test_jnz_not_taken : goesTo [(.g 0, 0x00000005), (.g 1, 0x00000005)] 0x3FC22810 = some 0x00100004 := by decide

theorem test_jnc_not_taken : goesTo [(.g 0, 0x00000003), (.g 1, 0x00000005)] 0x3FC22A10 = some 0x00100004 := by decide

theorem test_jnc_taken : goesTo [(.g 0, 0x80000000), (.g 1, 0x00000001)] 0x3FC22A10 = some 0x00100010 := by decide

theorem test_jns_not_taken : goesTo [(.g 0, 0x00000003), (.g 1, 0x00000005)] 0x3FC22C10 = some 0x00100004 := by decide

theorem test_jns_taken : goesTo [(.g 0, 0x80000000), (.g 1, 0x00000001)] 0x3FC22C10 = some 0x00100010 := by decide

theorem test_jnv_taken : goesTo [(.g 0, 0x00000003), (.g 1, 0x00000005)] 0x3FC22E10 = some 0x00100010 := by decide

theorem test_jnv_not_taken : goesTo [(.g 0, 0x80000000), (.g 1, 0x00000001)] 0x3FC22E10 = some 0x00100004 := by decide

/-- The status register after one step, by its number in register SR. -/
def statusAfter (k i p q : Bool) (w : Nat) : Option Word :=
  (after { start [] with sr := ⟨k, i, p, q⟩ } w).map fun t => t.readReg .sr

/-- A machine whose software vector holds 0x00100200 and whose hardware vector holds 0x00100300. -/
def trapping (k i : Bool) (rs : List (Reg × Word)) : State :=
  State.withMode (State.withBytes (State.withBytes { start rs with pc := 0x00100044 } 0xFFFFFFF0 [0x00, 0x02, 0x10])
    0xFFFFFFF8 [0x00, 0x03, 0x10]) k i

/-- IRD, SR and `pc` of a state. -/
def trapState (s : State) : Word × Word × Addr := (s.readReg .ird, s.readReg .sr, s.pc)

/-- One step at a boundary with an interrupt request, with ADDI G1, ZR, 1 at `pc`. -/
def interrupted (k i : Bool) : Option (Word × Word × Addr) :=
  match step { (trapping k i []).withFetchWord 32 0x08400001 with inputs := [⟨true, false⟩] } with
  | .next t => some (trapState t)
  | .fault _ => none
  | .refused _ => none

theorem test_ssb_kernel : statusAfter true false false false 0x40420000 = some 3 := by decide

theorem test_ssb_user : statusAfter false true true true 0x40420000 = some 0xE := by decide

theorem test_csb_kernel : statusAfter true true true true 0x40060000 = some 7 := by decide

theorem test_csb_k_has_no_effect : statusAfter true true true true 0x40000000 = some 0xF := by decide

theorem test_syscal :
    (after (trapping false true []) 0x50000000).map trapState = some (0x00100048, 3, 0x00100200) := by decide

theorem test_urt :
    (after (trapping true true [(.ird, 0x00100044)]) 0x48000000).map trapState = some (0x00100044, 2, 0x00100044) := by decide

/-- `IRD_WIDTH` other than R272 suggests: the return address sign-extended from bit 35. -/
theorem test_ird_sign_extended :
    ((startOf { Config.srm64 with irdUpper := .sign } []).enterKernel 0xFFFFFFFFC).readReg .ird = 0xFFFFFFFFFFFFFFFC := by
  decide

/-- `VEC_BITS` other than R272 suggests: 32 bits of a vector. -/
theorem test_vector_of_32_bits :
    (match (State.withBytes (startOf { Config.srm64 with vecBits := 32 } []) 0xFFFFFFFF0 [1, 2, 3, 4, 5]).loadPc
        0xFFFFFFFF0 with
      | .ok t => some t.pc
      | .error _ => none) = some 0x04030201 := by decide

/-- `IMM_EXT_64` other than R272 suggests: zeros above an immediate of -1. -/
theorem test_immediate_zero_upper :
    (startOf { Config.launch with immExt64 := .zero } []).immSigned (0x3FFF : BitVec 14) = 0xFFFFFFFF := by decide

theorem test_interrupt_taken : interrupted false true = some (0x00100044, 3, 0x00100300) := by decide

theorem test_interrupt_masked_in_kernel : interrupted true true = some (0, 3, 0x00100048) := by decide

/-! ## Refusals -/

theorem test_misaligned_load :
    refusal (start [(.g 2, 0x00200000)]) 0x29070002 = some (.misalignedAccess 0x00200002 .dword) := by decide

/-- The two effects of R32 where misaligned accesses are not refused (D3): LDD G4, G3, 0 with G3 = 0x00200002. -/
theorem test_misaligned_load_goes_on :
    [Misaligned.alignDown, .straddle].map (fun m =>
      (after (State.withBytes { unaligned m with pc := 0x00100000 } 0x00200000
        [0x44, 0x33, 0x22, 0x11, 0x80, 0xFF]) 0x29070000).map fun t => t.readReg (.g 3)) = [some 0x11223344, some 0xFF801122] := by decide

theorem test_user_access_to_vm :
    refusal (State.withMode (start [(.g 2, 0x000FFFFC)]) false false) 0x29070000 =
      some (.vmUserAccess 0x000FFFFC) := by decide

theorem test_shift_count_of_the_mode :
    refusal (startOf Config.srm64 []) 0x10820020 = some (.reservedEncoding .shiftCount) := by decide

theorem test_misaligned_pc :
    refusal { start [] with pc := 0x00100002 } 0 = some (.misalignedPc 0x00100002) := by decide

theorem test_pr_needs_kernel :
    (after (State.withMode (start [(.pr, 7)]) false false) 0x0E40002A).map (fun t => t.readReg .pr) = some 7 := by decide

/-! ## Memory and reset -/

theorem test_reset_memory_is_canonical : State.reset.mem.wf = true := by decide

theorem test_write_of_zero_removes_the_entry : (Memory.write [(4, 1), (9, 2)] 4 0) = [(9, 2)] := by decide

theorem test_vm_entry : vmEntryOf 0x3FFF000001000002 = ⟨0x3FFF, 1, 2⟩ := by decide

theorem test_assembly : (Instr.subi .sp .sp 4).assembly = "SUBI SP, SP, 4" := by decide

/-! ## A case that meets the hypotheses of each statement that has some -/

/-- The word 0x08400001, ADDI G1, ZR, 1, at `pc`, in the reference profile. -/
def ready : State := (start []).withFetchWord 32 0x08400001

/-- A state in user mode at an address above `$vm`, with the environment's samples. -/
def user (inputs : List Sample) : State := { State.withMode ready false true with inputs := inputs }

theorem witness_DecodeInvertsEncode : WellFormed Config.launch (.stq (.g 23) .pc 32767) = true := by decide

theorem witness_DecodedIsWellFormed : decodeWord Config.launch 0x28758008 = .ok (.ldq (.g 0) .sp 8) := by decide

theorem witness_EncodeInvertsDecode :
    Config.launch.unusedBits = .refuse ∧ decodeWord Config.launch 0x00C22000 = .ok (.add (.g 2) (.g 0) (.g 1)) := by
  decide

theorem witness_EncodedBytesDecode : WellFormed Config.reference (.jmp .pc 0) = true := by decide

theorem witness_StepRunsInstructionAtPc :
    ready.sample.reset = false ∧ ready.takesInterrupt ready.sample.irq = false ∧
      Admitted ready ready.pc .dword ∧
      decodeBytes ready.cfg (ready.mem.readBytes (ready.accessBase ready.pc .dword).toNat 4) =
        .ok (.addi (.g 0) .zr 1, []) :=
  ⟨by decide, by decide, accessStop_none.mp (by decide), by decide⟩

/-- At an aligned `pc`, and at one two bytes off where misaligned accesses go across the boundary. -/
theorem witness_StoredInstructionRunsNext :
    WellFormed (start []).cfg .syscal = true ∧ Admitted (start []) (start []).pc .dword ∧
      Admitted (unaligned .straddle) (unaligned .straddle).pc .dword :=
  ⟨by decide, accessStop_none.mp (by decide), accessStop_none.mp (by decide)⟩

/-- At a misaligned `pc`; in user mode at the last double-word of `$vm` and, fetched from the address below, two bytes
into it; at the first address above `$vm` with P = 1 and the extension; at a reserved word. -/
theorem witness_FetchRefusals :
    (∃ s : State, s.sample.reset = false ∧ s.takesInterrupt s.sample.irq = false ∧ s.pc.toNat % 4 ≠ 0 ∧
      s.cfg.misaligned = .refuse) ∧
    (∃ s : State, s.sample.reset = false ∧ s.takesInterrupt s.sample.irq = false ∧ s.pc.toNat % 4 = 0 ∧
      s.sr.k = false ∧ s.cfg.vmUserAccess = .refuse ∧ (s.accessBase s.pc .dword).toNat = 0xFFFFC) ∧
    (∃ s : State, s.sample.reset = false ∧ s.takesInterrupt s.sample.irq = false ∧ s.pc.toNat % 4 = 2 ∧
      s.cfg.misaligned = .alignDown ∧ s.sr.k = false ∧ s.cfg.vmUserAccess = .refuse ∧
      (s.accessBase s.pc .dword).toNat = 0xFFFFC) ∧
    (∃ s : State, s.sample.reset = false ∧ s.takesInterrupt s.sample.irq = false ∧
      (s.accessBase s.pc .dword).toNat = 0x100000 ∧ s.pc.toNat % 4 = 0 ∧ s.sr.k = false ∧ s.sr.p = true ∧
      s.cfg.extP = true) ∧
    (∃ s : State, s.sample.reset = false ∧ s.takesInterrupt s.sample.irq = false ∧ Admitted s s.pc .dword ∧
      decodeWord s.cfg
        ((ofBytes s.cfg.endian (s.mem.readBytes (s.accessBase s.pc .dword).toNat 4)).setWidth 32) = .error .opcode) :=
  ⟨⟨{ user [] with pc := 0x100002 }, by decide⟩, ⟨{ user [] with pc := 0xFFFFC }, by decide⟩,
    ⟨{ user [] with pc := 0xFFFFE, cfg := { Config.reference with misaligned := .alignDown } }, by decide⟩,
    ⟨{ user [] with sr := ⟨false, false, true, false⟩, cfg := { Config.reference with extP := true } }, by decide⟩,
    ⟨(start []).withFetchWord 32 0xFFFFFFFF, by decide, by decide, accessStop_none.mp (by decide), by decide⟩⟩

theorem witness_CanonicalMemoriesEqual :
    Memory.wf [(3, 1), (7, 255)] = true ∧ ∀ a : Nat, Memory.read [(3, 1), (7, 255)] a = Memory.read [(3, 1), (7, 255)] a :=
  ⟨by decide, fun _ => rfl⟩

/-- The last bytes of the address space. -/
theorem witness_WriteStoresItsBytes :
    Admitted (start []) 0xFFFFFFFF .byte ∧ Admitted (start []) 0xFFFFFFFE .word ∧
      Admitted (start []) 0xFFFFFFFC .dword ∧ Admitted (start []) 0xFFFFFFF8 .qword :=
  ⟨accessStop_none.mp (by decide), accessStop_none.mp (by decide), accessStop_none.mp (by decide),
    accessStop_none.mp (by decide)⟩

theorem witness_ReadAfterWrite : ∃ t : State, (start []).memWrite 0xFFFFFFF8 .qword 0x0102030405060708 = .ok t :=
  ⟨_, memWrite_ok.mpr ⟨accessStop_none.mp (by decide), rfl⟩⟩

/-- In both byte orders, at the top of the address space. -/
theorem witness_MixedWidthReads :
    ∀ o : ByteOrder, ∃ s t : State, s.cfg.endian = o ∧ s.memWrite 0xFFFFFFFC .dword 0x11223344 = .ok t := by
  intro o
  cases o
  · exact ⟨startOf Config.reference [], _, rfl, memWrite_ok.mpr ⟨accessStop_none.mp (by decide), rfl⟩⟩
  · exact ⟨startOf { Config.reference with endian := .big } [], _, rfl,
      memWrite_ok.mpr ⟨accessStop_none.mp (by decide), rfl⟩⟩

/-- A user mode state that is to be translated. -/
def translated : State :=
  { user [] with sr := ⟨false, false, true, false⟩, cfg := { Config.reference with extP := true } }

/-- A machine with 16 bytes of memory. -/
def small : State := startOf { Config.reference with backed := [⟨0, 16⟩] } []

/-- Each of the conditions, alone, at a boundary of its range: one byte off; the last address of `$vm`; the first above
it; the first address without memory; the last with memory, where none holds. -/
theorem witness_AccessRefusals :
    ((0x00200001 : Addr).toNat % Size.word.bytes ≠ 0 ∧ (start []).cfg.misaligned = .refuse) ∧
    ((user []).sr.k = false ∧ (user []).cfg.vmUserAccess = .refuse ∧
      ((user []).accessBase 0xFFFFF .byte).toNat = 0xFFFFF ∧ (0xFFFFF : Addr).toNat % Size.byte.bytes = 0) ∧
    (translated.sr.p = true ∧ translated.cfg.extP = true ∧ (translated.accessBase 0x100000 .byte).toNat = 0x100000) ∧
    (small.sr.k = true ∧ small.sr.p = false ∧
      ∃ k < Size.byte.bytes, ¬ Backed small.cfg ((small.accessBase 16 .byte).toNat + k)) ∧
    (small.sr.k = true ∧ small.sr.p = false ∧
      ∀ k < Size.byte.bytes, Backed small.cfg ((small.accessBase 15 .byte).toNat + k)) := by
  refine ⟨by decide, by decide, by decide, ⟨by decide, by decide, 0, by decide, ?_⟩, by decide, by decide, ?_⟩
  · rintro ⟨_, r, hr, h⟩
    simp only [small, startOf, List.foldl_nil, List.mem_singleton] at hr
    subst hr
    exact absurd h (by decide)
  · exact backedRange_iff.mp (by decide)

/-- The state the witnesses of loads and stores share: G1 holds the last quad-word's address. -/
def edge : State := startOf Config.launch [(.g 0, 0xFFFFFFF8)]

/-- Both extensions of the displacement, at its largest value; and the treatments of a misaligned address. -/
theorem witness_AddressesWrap :
    (start []).cfg.extQ = false ∧ (start []).cfg.immExtMem = .zero ∧ (start []).ea .zr 32767 = 32767 ∧
      (startOf { Config.reference with immExtMem := .sign } []).cfg.immExtMem = .sign ∧
      (startOf { Config.reference with immExtMem := .sign } []).ea .zr 32767 = 0xFFFFFFFF ∧
      edge.cfg.extQ = true ∧ edge.cfg.immExt64 = .same ∧
      (unaligned .alignDown).cfg.misaligned = .alignDown ∧ (unaligned .straddle).cfg.misaligned = .straddle := by
  decide

theorem witness_StoresWriteMemory :
    Admitted edge (edge.ea (.g 0) 7) .byte ∧ Admitted edge (edge.ea (.g 0) 6) .word ∧
      Admitted edge (edge.ea (.g 0) 4) .dword ∧ Admitted edge (edge.ea (.g 0) 0) .qword ∧ edge.quadGated = false :=
  ⟨accessStop_none.mp (by decide), accessStop_none.mp (by decide), accessStop_none.mp (by decide),
    accessStop_none.mp (by decide), by decide⟩

theorem witness_LoadsWriteRegister :
    edge.refusesWrite .pr = false ∧ Admitted edge (edge.ea (.g 0) 7) .byte ∧ Admitted edge (edge.ea (.g 0) 6) .word ∧
      Admitted edge (edge.ea (.g 0) 4) .dword ∧ Admitted edge (edge.ea (.g 0) 0) .qword ∧ edge.quadGated = false :=
  ⟨by decide, accessStop_none.mp (by decide), accessStop_none.mp (by decide), accessStop_none.mp (by decide),
    accessStop_none.mp (by decide), by decide⟩

/-- An access of each width that is not admitted (a byte access is never misaligned: `$vm` in user mode stops it), and the
gate. -/
theorem witness_StoppedLoadsAndStores :
    ¬ Admitted (user []) ((user []).ea .zr 0) .byte ∧ ¬ Admitted edge (edge.ea (.g 0) 1) .word ∧
      ¬ Admitted edge (edge.ea (.g 0) 2) .dword ∧ ¬ Admitted edge (edge.ea (.g 0) 4) .qword ∧
      edge.quadGated = false ∧
      (startOf { Config.launch with ldstQGated := true } []).cfg.ldstQGated = true ∧
      (startOf { Config.launch with ldstQGated := true } []).sr.q = false := by
  simp only [← accessStop_none]
  decide

theorem witness_BaseRegisterArithmetic : (start []).cfg.extQ = false ∧ (start []).refusesWrite .pr = false := by decide

/-- At both operating widths. -/
theorem witness_RegisterForms :
    edge.aluWidth = .w32 ∧ edge.refusesWrite .pc = false ∧
      ({ edge with sr := ⟨true, false, false, true⟩ } : State).aluWidth = .w64 := by decide

/-- Both extensions of the immediate 16383. -/
theorem witness_ImmediateForms :
    edge.refusesWrite .zr = false ∧ edge.cfg.immExtAlu = .zero ∧ (16383 : Word).toNat = (16383 : BitVec 14).toNat ∧
      { Config.reference with immExtAlu := .sign }.immExtAlu = .sign ∧ (-1 : Word).toInt = (16383 : BitVec 14).toInt := by
  decide

/-- At both widths, and without the extension. -/
theorem witness_Multiplication :
    (start []).refusesWrite .sp = false ∧ (start []).cfg.extM = true ∧ (start []).aluWidth = .w32 ∧
      ({ edge with sr := ⟨true, false, false, true⟩ } : State).aluWidth = .w64 ∧ edge.cfg.immExt64 = .same ∧
      (startOf bare []).refusesWrite .sp = false ∧
      (startOf bare []).cfg.extM = false := by decide

theorem witness_DivideForms :
    (start []).refusesWrite (.g 2) = false ∧ (start [(.g 0, 0x80000000)]).readReg (.g 0) = 0x80000000 := by decide

theorem witness_DivisionLaw : (0 : Nat) < 32 ∧ Divides (0x80000000 : BitVec 32) 1 := ⟨by decide, by decide, by decide⟩

theorem witness_UserWriteOfPr :
    dest (.addi .pr .zr 42) = some .pr ∧ (user []).sr.k = false ∧
      ∃ t, exec (.addi .pr .zr 42) (user []) = .next t :=
  ⟨rfl, rfl, _, rfl⟩

/-- The largest count of each width. -/
theorem witness_ShiftForms :
    edge.refusesWrite (.g 1) = false ∧ (31 : BitVec 14).toNat < edge.shiftWidth.bits ∧
      (63 : BitVec 14).toNat < ({ edge with sr := ⟨true, false, false, true⟩ } : State).shiftWidth.bits := by decide

/-- The largest count that is admitted and the smallest that is not. -/
theorem witness_ShiftsAndRotations :
    ShiftOp.rol ∈ [ShiftOp.shr, .shl, .ror, .rol] ∧ (start []).cfg.shiftOver = .refuse ∧
      (start []).refusesWrite (.g 1) = false ∧ (31 : BitVec 14).toNat < (start []).shiftWidth.bits ∧
      (start []).shiftWidth.bits ≤ (32 : BitVec 14).toNat ∧ (start []).cfg.shiftBound ≤ (32 : BitVec 14).toNat := by
  decide

/-- The smallest count that is too large, under both treatments. -/
theorem witness_ShiftCountTooLarge :
    (start []).shiftWidth.bits ≤ (32 : BitVec 14).toNat ∧ (start []).cfg.shiftOver = .refuse ∧
      (startOf { Config.reference with shiftOver := .value } []).shiftWidth.bits ≤ (32 : BitVec 14).toNat ∧
      (startOf { Config.reference with shiftOver := .value } []).cfg.shiftOver = .value ∧
      (startOf { Config.reference with shiftOver := .value } []).refusesWrite (.g 1) = false := by decide

theorem witness_ShiftLaws : (31 : BitVec 14).toNat < (start []).shiftWidth.bits ∧ 31 < 32 := by decide

theorem witness_MoveUpper : (start []).refusesWrite .ird = false := by decide

theorem witness_MoveUpperHigh : edge.quadGated = false ∧ edge.refusesWrite .srd = false := by decide

theorem witness_MviLoadsConstant : (start []).accepts (.g 23) = true ∧ (start []).accepts .pr = true := by decide

/-- In both modes. -/
theorem witness_ConstantOf64BitsLoads :
    edge.cfg.extQ = true ∧ edge.cfg.mvuhOther = .keep ∧ edge.quadGated = false ∧ edge.accepts .jdr = true ∧
      ({ edge with sr := ⟨true, false, false, true⟩ } : State).quadGated = false := by decide

/-- With the slot at the bottom of the address space and with the one above `$vm`. -/
theorem witness_PushThenPop :
    (start [(.sp, 4)]).cfg.extQ = false ∧ (start [(.sp, 4)]).cfg.awExtra = 0 ∧
      (start [(.sp, 4)]).refusesWrite .sp = false ∧
      Admitted (start [(.sp, 4)]) (wrap (start [(.sp, 4)]).cfg ((low ((start [(.sp, 4)]).readReg .sp) - 4).setWidth 64))
        .dword :=
  ⟨by decide, by decide, by decide, accessStop_none.mp (by decide)⟩

/-- Each relation holds of some registers and fails of some. -/
theorem witness_ConditionalJumps :
    (start []).cond .z (.g 0) (.g 1) = true ∧ (start [(.g 0, 1)]).cond .z (.g 0) (.g 1) = false ∧
      (start [(.g 1, 1)]).cond .c (.g 0) (.g 1) = true ∧ (start []).cond .c (.g 0) (.g 1) = false ∧
      (start [(.g 1, 1)]).cond .s (.g 0) (.g 1) = true ∧ (start []).cond .s (.g 0) (.g 1) = false ∧
      (start [(.g 0, 0x80000000), (.g 1, 1)]).cond .v (.g 0) (.g 1) = true ∧ (start []).cond .v (.g 0) (.g 1) = false := by
  decide

theorem witness_SignedLessThan : (0 : Nat) < 1 ∧ (condS (1 : BitVec 1) 0 != condV (1 : BitVec 1) 0) = true := by decide

theorem start_inv : Inv (start []) :=
  ⟨by decide, by decide, by decide, by decide, fun r => by cases r <;> simp [start, startOf, State.reset, Regs.get,
    Regs.reset, trim]⟩

/-- `JMP PC, 0` at 0x00100000, with an interrupt request that I = 0 masks. -/
theorem witness_HaltLoopIsForever :
    ∃ s : State, Inv s ∧ s.ended ∧ s.cfg.pcReadOffset = .zero ∧ (∀ x ∈ s.inputs, x.reset = false) ∧ s.sr.i = false ∧
      (s.cfg.immExt64 ≠ .any ∨ s.cfg.awExtra = 0) := by
  refine ⟨{ (start []).withFetchWord 32 0x37C00000 with inputs := [⟨true, false⟩] }, ?_, ?_, by decide, by decide, by decide,
    by decide⟩
  · exact ⟨start_inv.cfg, by decide, by decide, start_inv.pc, start_inv.regs⟩
  · exact nextInstr_ok.mpr ⟨accessStop_none.mp (by decide), by decide⟩

/-- The three cases of the mode and the treatment. -/
theorem witness_StatusBitInstructions :
    (start []).sr.k = true ∧ (user []).sr.k = false ∧ (user []).cfg.privViolation = .ignore ∧
      { Config.reference with privViolation := .refuse }.privViolation = .refuse := by decide

/-- In both modes. -/
theorem witness_SyscallEntersKernel :
    VectorReadable (start []) (start []).cfg.sIntVec ∧ VectorReadable (user []) (user []).cfg.sIntVec :=
  ⟨accessStop_none.mp (by decide), accessStop_none.mp (by decide)⟩

/-- The three vectors of the reference profile, from user mode. -/
theorem witness_VectorsAreReadable :
    (user []).cfg.wf = true ∧ ((user []).sr.p = false ∧ (user []).cfg.resetSr.p = false) ∧
      (∀ k < 8, ∃ r ∈ (user []).cfg.backed,
        r.base ≤ (user []).cfg.sIntVec.toNat + k ∧ (user []).cfg.sIntVec.toNat + k < r.base + r.size) ∧
      (∀ k < 8, ∃ r ∈ (user []).cfg.backed,
        r.base ≤ (user []).cfg.hIntVec.toNat + k ∧ (user []).cfg.hIntVec.toNat + k < r.base + r.size) ∧
      ∀ k < 8, ∃ r ∈ (user []).cfg.backed,
        r.base ≤ (user []).cfg.rstVec.toNat + k ∧ (user []).cfg.rstVec.toNat + k < r.base + r.size :=
  ⟨by decide, by decide, by decide, by decide, by decide⟩

theorem witness_TrapReturn : ∃ t, exec .urt ready = .next t ∧ ready.sr.k = true ∧ t.sr.k = false := ⟨_, rfl, rfl, rfl⟩

theorem witness_SyscallThenReturn : ready.cfg.wf = true ∧ VectorReadable ready ready.cfg.sIntVec :=
  ⟨by decide, accessStop_none.mp (by decide)⟩

/-- In user mode, and in kernel mode under `INT_WHEN_K`. -/
theorem witness_HardwareInterruptTaken :
    ((user [⟨true, false⟩]).sample.reset = false ∧ (user [⟨true, false⟩]).sample.irq = true ∧
      (user [⟨true, false⟩]).sr.i = true ∧ (user [⟨true, false⟩]).sr.k = false ∧
      VectorReadable (user [⟨true, false⟩]) (user [⟨true, false⟩]).cfg.hIntVec) ∧
    ∃ s : State, s.sample.reset = false ∧ s.sample.irq = true ∧ s.sr.i = true ∧ s.sr.k = true ∧ s.cfg.intWhenK = true ∧
      VectorReadable s s.cfg.hIntVec :=
  ⟨⟨by decide, by decide, by decide, by decide, accessStop_none.mp (by decide)⟩,
    { State.withMode (startOf { Config.reference with intWhenK := true } []) true true with inputs := [⟨true, false⟩] },
      by decide, by decide, by decide, by decide, by decide, accessStop_none.mp (by decide)⟩

/-- No request; a request that I masks; a request that K masks. -/
theorem witness_InterruptNotTaken :
    ((user []).sample.reset = false ∧ (user []).sample.irq = false) ∧
      (∃ s : State, s.sample.reset = false ∧ s.sample.irq = true ∧ s.sr.i = false) ∧
      (∃ s : State, s.sample.reset = false ∧ s.sample.irq = true ∧ s.sr.i = true ∧ s.sr.k = true ∧
        s.cfg.intWhenK = false) :=
  ⟨by decide, ⟨{ State.withMode ready false false with inputs := [⟨true, false⟩] }, by decide⟩,
    ⟨{ State.withMode ready true true with inputs := [⟨true, false⟩] }, by decide⟩⟩

/-- A reset with an interrupt request beside it. -/
theorem witness_ResetEventHappens :
    (user [⟨true, true⟩]).sample.reset = true ∧
      Admitted (user [⟨true, true⟩]).clearForReset (user [⟨true, true⟩]).cfg.rstVec .qword :=
  ⟨by decide, accessStop_none.mp (by decide)⟩

/-- A reset, an interrupt and an instruction that go on. -/
theorem witness_KernelBitChanges :
    (∃ t, step (user [⟨false, true⟩]) = .next t) ∧ (∃ t, step (user [⟨true, false⟩]) = .next t) ∧
      ∃ t, step (user []) = .next t := ⟨⟨_, rfl⟩, ⟨_, rfl⟩, ⟨_, rfl⟩⟩

/-- An instruction with a destination, a store and a jump that complete. -/
theorem witness_NoSideEffects :
    (∃ t, exec (.addi (.g 0) .zr 1) ready = .next t) ∧ (∃ t, exec (.std .sr .zr 0) ready = .next t) ∧
      ∃ t, exec (.jmp .pc 0) ready = .next t := ⟨⟨_, rfl⟩, ⟨_, rfl⟩, ⟨_, rfl⟩⟩

theorem witness_StatusAndPrNeedKernel :
    ∃ t, step (user []) = .next t ∧ (user []).sample.reset = false ∧ (user []).sr.k = false := ⟨_, rfl, rfl, rfl⟩

theorem witness_UserCannotWriteVm :
    ∃ t, step (user []) = .next t ∧ (user []).sr.k = false ∧ (user []).cfg.vmUserAccess = .refuse := ⟨_, rfl, rfl, rfl⟩

/-- A memory that differs in the last byte of `$vm` only. -/
theorem witness_UserCannotReadVm :
    (user []).cfg.wf = true ∧ (user []).sr.k = false ∧ (user []).cfg.vmUserAccess = .refuse ∧
      ∀ a : Nat, 0xFFFFF < a → ((user []).mem.write 0xFFFFF 1).read a = (user []).mem.read a :=
  ⟨by decide, by decide, by decide, fun a h => by rw [Memory.read_write, if_neg (by omega)]⟩

theorem witness_StepKeepsInvariant : Inv (start []) ∧ ∃ t, step (start []) = .next t := ⟨start_inv, _, rfl⟩

theorem witness_StepKeepsModel : ∃ t, step ready = .next t := ⟨_, rfl⟩

/-- A register that accepts the write and one that does not. -/
theorem witness_RegisterReadAndWrite :
    Inv (start []) ∧ (start []).accepts (.g 0) = true ∧ (start []).accepts .pc = false ∧
      (start []).cfg.pcReadOffset = .zero := ⟨start_inv, by decide, by decide, by decide⟩

/-- The last entry of the table. -/
theorem witness_VmEntriesRoundTrip :
    131071 < vmEntryCount ∧
      ∃ t, (start []).memWrite (BitVec.ofNat 36 (8 * 131071)) .qword (vmEntryWord ⟨1, 2, 3⟩) = .ok t :=
  ⟨by decide, _, memWrite_ok.mpr ⟨accessStop_none.mp (by decide), rfl⟩⟩

end Sys2Proof.Tests
end

section
/-! Proofs for `10_state.md`: which events change the K bit (R36). First what each of the events does to K, then what
every other instruction does, and last the statement from the cases of `step_next`. -/

namespace Sys2Proof.Machine

open Sys2Proof

/-- SSB and CSB do not write K, the K bit's own number among those they can name (R36, R231). -/
@[simp] theorem writeStatusBit_k (st : Status) (b : StatusBit) (v : Bool) : (writeStatusBit st b v).k = st.k := by
  cases b <;> rfl

/-- Trap entry changes the status register in K alone, which it sets (R314). -/
theorem trapEntry_sr {s t : State} {vec ret : Addr} (h : s.trapEntry vec ret = .ok t) :
    t.sr = { s.sr with k := true } := by
  obtain ⟨-, rfl⟩ := trapEntry_ok.mp h
  rfl

/-- The reset event gives the status register its reset value (R341). -/
theorem resetEvent_sr {s t : State} (h : s.resetEvent = .ok t) : t.sr = s.cfg.resetSr := by
  obtain ⟨-, rfl⟩ := resetEvent_ok.mp h
  rfl

/-- SYSCAL is the trap entry through the software vector (R230). -/
theorem exec_syscal_next {s t : State} :
    exec .syscal s = .next t ↔ s.trapEntry s.cfg.sIntVec s.nextPc = .ok t :=
  outcomeOf_next

/-- URT always completes, as the trap return (R233). -/
@[simp] theorem exec_urt (s : State) : exec .urt s = .next s.trapReturn := rfl

/-- An instruction other than SYSCAL and URT leaves K (R36). -/
theorem exec_keeps_k {i : Instr} {s t : State} (h : exec i s = .next t) (hsys : i ≠ .syscal) (hurt : i ≠ .urt) :
    t.sr.k = s.sr.k := by
  rcases exec_next h with ⟨c, v, -, -, rfl⟩ | ⟨-, sz, c, a, imm, -, rfl⟩ | ⟨-, -, -, v, rfl⟩ |
    ⟨-, b, v, -, rfl⟩ | ⟨-, -, rfl⟩ | ⟨rfl, -⟩ | ⟨rfl, -⟩
  · rfl
  · rfl
  · rfl
  · exact writeStatusBit_k s.sr b v
  · rfl
  · exact absurd rfl hurt
  · exact absurd rfl hsys

/-- Settles O51, from what a step can do (`step_next`) and what each event does to K. -/
theorem kernelBitChanges : Obligations.KernelBitChanges := by
  intro s t h
  rcases step_next.mp h with ⟨hreset, hev⟩ | ⟨hreset, hirq, hentry⟩ | ⟨hreset, hirq, i, hi, hexec⟩
  · have hk : t.sr.k = s.cfg.resetSr.k := by rw [resetEvent_sr hev, State.beginStep_cfg]
    simp [hreset, hk]
  · have hk : t.sr.k = true := by rw [trapEntry_sr hentry]
    simp [hreset, hirq, hk]
  · refine ⟨by simp [hreset], by simp [hirq], fun _ _ => ⟨i, hi, ?_, ?_, ?_⟩⟩
    · rintro rfl
      rw [trapEntry_sr (exec_syscal_next.mp hexec)]
    · rintro rfl
      rw [exec_urt] at hexec
      cases hexec
      rfl
    · intro hsys hurt
      rw [exec_keeps_k hexec hsys hurt, State.beginStep_sr]

end Sys2Proof.Machine
end

section
/-! Proofs for `30_encoding.md`: the words of the formats (R102 to R108). The fields of a format are put together from
the highest to the lowest, so each one lies below all the bits before it: the value of a word is a sum by one use of
`or_field_toNat_of_eq` per field, and a field is read back from its own bits since every other field is zero there. -/

namespace Sys2Proof

/-! ## The value of a word is the sum of its fields, each times its place -/

/-- `or_field_toNat` where the value of the fields above is known, so that a word's fields are added one after another. -/
theorem or_field_toNat_of_eq {n lo m : Nat} {w : BitVec 32} (hw : w.toNat = m) (v : BitVec n) (h : lo + n ≤ 32)
    (hm : m % 2 ^ (lo + n) = 0) : (w ||| field lo v).toNat = m + v.toNat * 2 ^ lo := by
  rw [or_field_toNat w v h (hw ▸ hm), hw]

/-- An immediate put below everything a word holds is added as it is. -/
theorem or_field_zero_toNat {n m : Nat} {w : BitVec 32} (hw : w.toNat = m) (v : BitVec n) (h : n ≤ 32)
    (hm : m % 2 ^ n = 0) : (w ||| field 0 v).toNat = m + v.toNat := by
  have hv := or_field_toNat_of_eq (lo := 0) hw v (by omega) (by rwa [Nat.zero_add])
  rwa [pow_zero, mul_one] at hv

/-- OPCODE and C, as formats 1 to 6 begin. -/
theorem fieldsOpC_toNat (op c : BitVec 5) :
    (field 27 op ||| field 22 c).toNat = op.toNat * 2 ^ 27 + c.toNat * 2 ^ 22 :=
  or_field_toNat_of_eq (field_toNat op (by decide)) c (by decide) (by omega)

/-- OPCODE, C and A, as formats 2 to 6 begin. -/
theorem fieldsOpCA_toNat (op c a : BitVec 5) :
    (field 27 op ||| field 22 c ||| field 17 a).toNat =
      op.toNat * 2 ^ 27 + c.toNat * 2 ^ 22 + a.toNat * 2 ^ 17 :=
  or_field_toNat_of_eq (fieldsOpC_toNat op c) a (by decide) (by omega)

theorem encFormat1_toNat (op : BitVec 5) (c : Reg) (imm : BitVec 22) :
    (encFormat1 op c imm).toNat = op.toNat * 2 ^ 27 + c.toBits.toNat * 2 ^ 22 + imm.toNat :=
  or_field_zero_toNat (fieldsOpC_toNat op c.toBits) imm (by decide) (by omega)

theorem encFormat2_toNat (op : BitVec 5) (c a : Reg) (fn : BitVec 2) (imm : BitVec 15) :
    (encFormat2 op c a fn imm).toNat =
      op.toNat * 2 ^ 27 + c.toBits.toNat * 2 ^ 22 + a.toBits.toNat * 2 ^ 17 + fn.toNat * 2 ^ 15 + imm.toNat := by
  have ha := fieldsOpCA_toNat op c.toBits a.toBits
  have hfn := or_field_toNat_of_eq (lo := 15) ha fn (by decide) (by omega)
  exact or_field_zero_toNat hfn imm (by decide) (by omega)

theorem encFormat3_toNat (op : BitVec 5) (c a b : Reg) (fn : BitVec 3) (imm : BitVec 9) :
    (encFormat3 op c a b fn imm).toNat =
      op.toNat * 2 ^ 27 + c.toBits.toNat * 2 ^ 22 + a.toBits.toNat * 2 ^ 17 + b.toBits.toNat * 2 ^ 12 +
        fn.toNat * 2 ^ 9 + imm.toNat := by
  have ha := fieldsOpCA_toNat op c.toBits a.toBits
  have hb := or_field_toNat_of_eq (lo := 12) ha b.toBits (by decide) (by omega)
  have hfn := or_field_toNat_of_eq (lo := 9) hb fn (by decide) (by omega)
  exact or_field_zero_toNat hfn imm (by decide) (by omega)

theorem encFormat5_toNat (op : BitVec 5) (c a : Reg) (fn : BitVec 3) (imm : BitVec 14) :
    (encFormat5 op c a fn imm).toNat =
      op.toNat * 2 ^ 27 + c.toBits.toNat * 2 ^ 22 + a.toBits.toNat * 2 ^ 17 + fn.toNat * 2 ^ 14 + imm.toNat := by
  have ha := fieldsOpCA_toNat op c.toBits a.toBits
  have hfn := or_field_toNat_of_eq (lo := 14) ha fn (by decide) (by omega)
  exact or_field_zero_toNat hfn imm (by decide) (by omega)

theorem encFormat7_toNat (op : BitVec 5) : (encFormat7 op).toNat = op.toNat * 2 ^ 27 :=
  field_toNat op (by decide)

/-! ## Each field is read back from its bits -/

theorem encFormat1_fields (op : BitVec 5) (c : Reg) (imm : BitVec 22) :
    (encFormat1 op c imm).extractLsb' 27 5 = op ∧ (encFormat1 op c imm).extractLsb' 22 5 = c.toBits ∧
      (encFormat1 op c imm).extractLsb' 0 22 = imm := by
  refine ⟨?opcode, ?c, ?imm⟩ <;> simp [encFormat1, extract_or, extract_field_disjoint]

theorem encFormat2_fields (op : BitVec 5) (c a : Reg) (fn : BitVec 2) (imm : BitVec 15) :
    (encFormat2 op c a fn imm).extractLsb' 27 5 = op ∧ (encFormat2 op c a fn imm).extractLsb' 22 5 = c.toBits ∧
      (encFormat2 op c a fn imm).extractLsb' 17 5 = a.toBits ∧ (encFormat2 op c a fn imm).extractLsb' 15 2 = fn ∧
      (encFormat2 op c a fn imm).extractLsb' 0 15 = imm := by
  refine ⟨?opcode, ?c, ?a, ?fn1, ?imm⟩ <;> simp [encFormat2, extract_or, extract_field_disjoint]

theorem encFormat3_fields (op : BitVec 5) (c a b : Reg) (fn : BitVec 3) (imm : BitVec 9) :
    (encFormat3 op c a b fn imm).extractLsb' 27 5 = op ∧ (encFormat3 op c a b fn imm).extractLsb' 22 5 = c.toBits ∧
      (encFormat3 op c a b fn imm).extractLsb' 17 5 = a.toBits ∧
      (encFormat3 op c a b fn imm).extractLsb' 12 5 = b.toBits ∧
      (encFormat3 op c a b fn imm).extractLsb' 9 3 = fn ∧ (encFormat3 op c a b fn imm).extractLsb' 0 9 = imm := by
  refine ⟨?opcode, ?c, ?a, ?b, ?fn1, ?imm⟩ <;> simp [encFormat3, extract_or, extract_field_disjoint]

theorem encFormat5_fields (op : BitVec 5) (c a : Reg) (fn : BitVec 3) (imm : BitVec 14) :
    (encFormat5 op c a fn imm).extractLsb' 27 5 = op ∧ (encFormat5 op c a fn imm).extractLsb' 22 5 = c.toBits ∧
      (encFormat5 op c a fn imm).extractLsb' 17 5 = a.toBits ∧ (encFormat5 op c a fn imm).extractLsb' 14 3 = fn ∧
      (encFormat5 op c a fn imm).extractLsb' 0 14 = imm := by
  refine ⟨?opcode, ?c, ?a, ?fn1, ?imm⟩ <;> simp [encFormat5, extract_or, extract_field_disjoint]

theorem encFormat7_fields (op : BitVec 5) :
    (encFormat7 op).extractLsb' 27 5 = op ∧ (encFormat7 op).extractLsb' 0 27 = 0 :=
  ⟨extract_field_same op, extract_field_disjoint op 0 27 (by decide)⟩

/-- JMP is format 2 with its A and FN1 fields zero (R103). -/
theorem encode_jmp (cfg : Config) (c : Reg) (imm : BitVec 15) :
    encode cfg (.jmp c imm) = encFormat2 6 c .zr 0 imm := rfl

/-- Settles O8, from the sum and the fields of each format. -/
theorem formatWords : Obligations.FormatWords := by
  intro op a b c fn2 fn3 i22 i15 i9 i14
  have sum2 := encFormat2_toNat op c (.ofBits a) fn2 i15
  have sum3 := encFormat3_toNat op c (.ofBits a) (.ofBits b) fn3 i9
  have sum5 := encFormat5_toNat op c (.ofBits a) fn3 i14
  have fields2 := encFormat2_fields op c (.ofBits a) fn2 i15
  have fields3 := encFormat3_fields op c (.ofBits a) (.ofBits b) fn3 i9
  have fields5 := encFormat5_fields op c (.ofBits a) fn3 i14
  rw [Reg.toBits_ofBits] at sum2 sum5 fields2 fields5
  rw [Reg.toBits_ofBits, Reg.toBits_ofBits] at sum3 fields3
  obtain ⟨hop, hc, ha, hfn, himm⟩ := fields2
  exact ⟨⟨encFormat1_toNat op c i22, encFormat1_fields op c i22⟩,
    ⟨sum2, hop, hc, ha, hfn, himm, fun cfg => encode_jmp cfg c i15⟩,
    ⟨sum3, fields3⟩, ⟨sum5, fields5⟩, encFormat7_toNat op, encFormat7_fields op⟩

end Sys2Proof
end

section
/-! Proofs for `43_alu.md`: ADD, SUB, AND, OR and XOR on a machine without the 64-bit extension (R192 to R196). First the
value of a word of format 4 and each meaning as one ALU operation, then what an ALU operation does on such a machine, said
once for every function of two 32-bit values. -/

/-! ## The words -/

namespace Sys2Proof

/-- A word of format 4 (R105) is the sum of its fields, each times its place. -/
theorem encFormat4_toNat (op : BitVec 5) (c a b : Reg) (fn : BitVec 3) :
    (encFormat4 op c a b fn).toNat =
      op.toNat * 2 ^ 27 + c.toBits.toNat * 2 ^ 22 + a.toBits.toNat * 2 ^ 17 + b.toBits.toNat * 2 ^ 12 +
        fn.toNat * 2 ^ 9 := by
  have ha := fieldsOpCA_toNat op c.toBits a.toBits
  have hb := or_field_toNat_of_eq (lo := 12) ha b.toBits (by decide) (by omega)
  exact or_field_toNat_of_eq (lo := 9) hb fn (by decide) (by omega)

/-- The word of a register form of opcode 0 (R110): its opcode adds nothing. -/
theorem aluWord_toNat (c a b : Reg) (fn : BitVec 3) :
    (encFormat4 0 c a b fn).toNat =
      c.toBits.toNat * 2 ^ 22 + a.toBits.toNat * 2 ^ 17 + b.toBits.toNat * 2 ^ 12 + fn.toNat * 2 ^ 9 := by
  rw [encFormat4_toNat]
  simp

end Sys2Proof

namespace Sys2Proof.Machine

open Sys2Proof

/-! ## The meanings -/

theorem exec_add (s : State) (c a b : Reg) :
    exec (.add c a b) s = s.aluOp (fun _ x y => x + y) c (s.readReg a) (s.readReg b) := rfl

theorem exec_sub (s : State) (c a b : Reg) :
    exec (.sub c a b) s = s.aluOp (fun _ x y => x - y) c (s.readReg a) (s.readReg b) := rfl

theorem exec_and (s : State) (c a b : Reg) :
    exec (.and c a b) s = s.aluOp (fun _ x y => x &&& y) c (s.readReg a) (s.readReg b) := rfl

theorem exec_or (s : State) (c a b : Reg) :
    exec (.or c a b) s = s.aluOp (fun _ x y => x ||| y) c (s.readReg a) (s.readReg b) := rfl

theorem exec_xor (s : State) (c a b : Reg) :
    exec (.xor c a b) s = s.aluOp (fun _ x y => x ^^^ y) c (s.readReg a) (s.readReg b) := rfl

/-! ## An ALU operation on a machine without the 64-bit extension -/

/-- A register write and the advance of `pc` leave everything but the register and `pc`. -/
theorem leaves_of_writesReg {s t : State} {c : Reg} {v : Word} (h : WritesReg s t c v) : Leaves s t c v := by
  obtain ⟨hregs, -, hsr, hmem, hmodel⟩ := h
  exact ⟨hregs, hsr, hmem, hmodel⟩

/-- Without the 64-bit extension there is no 64-bit mode (R262). -/
theorem aluWidth_base {s : State} (hq : s.cfg.extQ = false) : s.aluWidth = .w32 := by
  simp [State.aluWidth, hq]

/-- Without the 64-bit extension a result is its low half: there is no upper half to fill (R24, R271). -/
theorem resultAt_base {s : State} (hq : s.cfg.extQ = false) (c : Reg) (r : BitVec 32) :
    s.resultAt .w32 c (r.setWidth 64) = r.setWidth 64 := by
  simp [State.resultAt, State.fillUpper, hq]

/-- Without the 64-bit extension an ALU operation whose write is not refused writes the operation's value on the low
halves of its operands. -/
theorem aluOp_base {s : State} {c : Reg} (hq : s.cfg.extQ = false) (hc : s.refusesWrite c = false)
    (f : (n : Nat) → BitVec n → BitVec n → BitVec n) (x y : Word) :
    s.aluOp f c x y = .next (s.setReg c ((f 32 (low x) (low y)).setWidth 64)).advance := by
  have hvalue : s.resultAt s.aluWidth c (atWidth2 s.aluWidth f x y) = (f 32 (low x) (low y)).setWidth 64 := by
    rw [aluWidth_base hq]
    exact resultAt_base hq c _
  exact retire_next.mpr ⟨hc, by rw [hvalue]⟩

/-- So an instruction that is an ALU operation completes, leaves that value in its destination, and changes nothing else
but `pc`; what holds of the value is what the statement says of the result. -/
theorem aluOp_base_leaves {s : State} {c : Reg} (hq : s.cfg.extQ = false) (hc : s.refusesWrite c = false) {i : Instr}
    {f : (n : Nat) → BitVec n → BitVec n → BitVec n} {x y : Word} (hi : exec i s = s.aluOp f c x y)
    {P : BitVec 32 → Prop} (hP : P (f 32 (low x) (low y))) :
    ∃ t, ∃ r : BitVec 32, exec i s = .next t ∧ Leaves s t c (r.setWidth 64) ∧ P r :=
  ⟨_, _, hi.trans (aluOp_base hq hc f x y), leaves_of_writesReg (writesReg_setReg_advance s c _), hP⟩

/-- Subtraction is that of the integers, modulo `2^n`. -/
theorem sub_eq_ofInt {n : Nat} (x y : BitVec n) : x - y = BitVec.ofInt n ((x.toNat : Int) - y.toNat) := by
  rw [BitVec.sub_eq_add_neg, Int.sub_eq_add_neg, BitVec.ofInt_add, BitVec.ofInt_neg, BitVec.ofInt_natCast,
    BitVec.ofInt_natCast, BitVec.ofNat_toNat, BitVec.ofNat_toNat, BitVec.setWidth_eq, BitVec.setWidth_eq]

/-- Settles O22, from what an ALU operation does on a machine without the 64-bit extension and the word of format 4. -/
theorem baseRegisterArithmetic : Obligations.BaseRegisterArithmetic := by
  intro s c a b hq hc
  refine ⟨⟨?add, ?addWord⟩, ⟨?sub, ?subWord⟩, ⟨?and, ?andWord⟩, ⟨?or, ?orWord⟩, ⟨?xor, ?xorWord⟩⟩
  case add => exact aluOp_base_leaves hq hc (exec_add s c a b) (BitVec.add_def _ _)
  case sub => exact aluOp_base_leaves hq hc (exec_sub s c a b) (sub_eq_ofInt _ _)
  case and => exact aluOp_base_leaves hq hc (exec_and s c a b) fun _ _ => BitVec.getLsbD_and
  case or => exact aluOp_base_leaves hq hc (exec_or s c a b) fun _ _ => BitVec.getLsbD_or
  case xor => exact aluOp_base_leaves hq hc (exec_xor s c a b) fun _ _ => BitVec.getLsbD_xor
  case addWord => exact (aluWord_toNat c a b 0).trans (by simp)
  case subWord => exact aluWord_toNat c a b 1
  case andWord => exact aluWord_toNat c a b 2
  case orWord => exact aluWord_toNat c a b 3
  case xorWord => exact aluWord_toNat c a b 4

end Sys2Proof.Machine
end

section
/-! Proofs for `44_shifts.md`: SHR, SHL, ROR and ROL (R212, R214, R216, R217). First each operation on a value of any
width, in every form of its rule; then the word of a shift and which counts the decoder rejects; last the meaning, below
the operating width and from it up. -/

/-! ## The words -/

namespace Sys2Proof

/-- A word of opcode 2 is decoded as a shift or rotation (R124). -/
theorem decodeWord_opcode2 (cfg : Config) (c a : Reg) (fn : BitVec 3) (n : BitVec 14) :
    decodeWord cfg (encFormat5 2 c a fn n) = decodeShift cfg (encFormat5 2 c a fn n) := by
  obtain ⟨hop, -⟩ := encFormat5_fields 2 c a fn n
  unfold decodeWord opcodeOf
  rw [hop]
  rfl

/-- A word that names a shift or rotation is rejected for a count that is not admitted (R120, R211). -/
theorem decodeShift_shiftCount {cfg : Config} {n : BitVec 14} (hn : cfg.admitsCount n = false) (c a : Reg)
    {fn : BitVec 3} (hfn : fn.toNat < 6) : decodeShift cfg (encFormat5 2 c a fn n) = .error .shiftCount := by
  obtain ⟨-, -, -, hfield, himm⟩ := encFormat5_fields 2 c a fn n
  unfold decodeShift
  rw [hfield, himm, if_neg (by omega), if_pos (by simp [hn])]

/-- Where `SHIFT_OVER` is refuse, no count from the widest operating width up is admitted (R211). -/
theorem admitsCount_refuse {cfg : Config} (hover : cfg.shiftOver = .refuse) {n : BitVec 14}
    (hn : cfg.shiftBound ≤ n.toNat) : cfg.admitsCount n = false := by
  simp [Config.admitsCount, hover, hn]

end Sys2Proof

namespace Sys2Proof.Machine

open Sys2Proof

/-- The value of field FN1 that names a shift or rotation (R111). -/
def shiftFn : ShiftOp → BitVec 3
  | .shr => 0
  | .asr => 1
  | .shl => 2
  | .asl => 3
  | .ror => 4
  | .rol => 5

theorem shiftFn_lt (op : ShiftOp) : (shiftFn op).toNat < 6 := by
  cases op <;> decide

/-- A shift or rotation is format 5 with opcode 2 (R106, R111). -/
theorem encode_shiftOf (cfg : Config) (op : ShiftOp) (c a : Reg) (n : BitVec 14) :
    encode cfg (shiftOf op c a n) = encFormat5 2 c a (shiftFn op) n := by
  cases op <;> rfl

theorem encode_shiftOf_toNat (cfg : Config) (op : ShiftOp) (c a : Reg) (n : BitVec 14) :
    (encode cfg (shiftOf op c a n)).toNat =
      0x10000000 + c.toBits.toNat * 2 ^ 22 + a.toBits.toNat * 2 ^ 17 + (shiftFn op).toNat * 2 ^ 14 + n.toNat := by
  rw [encode_shiftOf, encFormat5_toNat]
  rfl

/-- A count from the widest operating width up is reserved in every mode, by the decoding (R211). -/
theorem decodeWord_shiftOf_refuse {cfg : Config} (hover : cfg.shiftOver = .refuse) (op : ShiftOp) (c a : Reg)
    {n : BitVec 14} (hn : cfg.shiftBound ≤ n.toNat) :
    decodeWord cfg (encode cfg (shiftOf op c a n)) = .error .shiftCount := by
  rw [encode_shiftOf, decodeWord_opcode2]
  exact decodeShift_shiftCount (admitsCount_refuse hover hn) c a (shiftFn_lt op)

/-! ## The operations on a value of any width -/

/-- SHR (R212): division by `2^k`, and zeros enter at the top. -/
theorem shr_result {w : Nat} (x : BitVec w) (k : Nat) : ShiftResult .shr x (shiftValue .shr x k) k := by
  refine ⟨?arith, fun i hi => ?bit⟩
  case arith =>
    change (x >>> k).toNat = _
    rw [BitVec.toNat_ushiftRight, Nat.shiftRight_eq_div_pow]
  case bit =>
    change (x >>> k).getLsbD i = _
    rw [BitVec.getLsbD_ushiftRight, Nat.add_comm k i]
    split
    · rfl
    · exact BitVec.getLsbD_of_ge x _ (by omega)

/-- SHL (R214): multiplication by `2^k` modulo `2^w`, and zeros enter at the bottom. -/
theorem shl_result {w : Nat} (x : BitVec w) (k : Nat) : ShiftResult .shl x (shiftValue .shl x k) k := by
  refine ⟨?arith, fun i hi => ?bit⟩
  case arith =>
    change (x <<< k).toNat = _
    rw [BitVec.toNat_shiftLeft, Nat.shiftLeft_eq]
  case bit =>
    change (x <<< k).getLsbD i = _
    rw [BitVec.getLsbD_shiftLeft]
    by_cases h : k ≤ i <;> simp [hi, h, Nat.lt_of_not_le]

/-- A rotation by less than the width is two shifts put together. -/
theorem rotateRight_of_lt {w : Nat} (x : BitVec w) {k : Nat} (hk : k < w) :
    x.rotateRight k = x >>> k ||| x <<< (w - k) := by
  rw [BitVec.rotateRight_def, Nat.mod_eq_of_lt hk]

theorem rotateLeft_of_lt {w : Nat} (x : BitVec w) {k : Nat} (hk : k < w) :
    x.rotateLeft k = x <<< k ||| x >>> (w - k) := by
  rw [BitVec.rotateLeft_def, Nat.mod_eq_of_lt hk]

/-- Bit `i` of a rotation right is bit `i + k` modulo the width (R216). -/
theorem getLsbD_rotateRight_of_lt {w : Nat} (x : BitVec w) {k i : Nat} (hk : k < w) (hi : i < w) :
    (x.rotateRight k).getLsbD i = x.getLsbD ((i + k) % w) := by
  rw [BitVec.getLsbD_rotateRight, Nat.mod_eq_of_lt hk]
  by_cases h : i < w - k
  · rw [Nat.mod_eq_of_lt (by omega), Nat.add_comm i k]
    simp [h]
  · rw [Nat.mod_eq_sub_mod (by omega), Nat.mod_eq_of_lt (by omega), show i + k - w = i - (w - k) by omega]
    simp [h, hi]

/-- A rotation left is the rotation right by the rest of the width (R217). -/
theorem rotateLeft_eq_rotateRight {w : Nat} (x : BitVec w) {k : Nat} (hpos : 0 < k) (hk : k < w) :
    x.rotateLeft k = x.rotateRight (w - k) := by
  rw [rotateLeft_of_lt x hk, rotateRight_of_lt x (by omega), Nat.sub_sub_self hk.le, BitVec.or_comm]

theorem rotateRight_zero {w : Nat} (x : BitVec w) : x.rotateRight 0 = x := by
  simp [BitVec.rotateRight_def]

theorem rotateLeft_zero {w : Nat} (x : BitVec w) : x.rotateLeft 0 = x := by
  rw [BitVec.rotateLeft_def, Nat.zero_mod, BitVec.shiftLeft_zero, Nat.sub_zero, BitVec.ushiftRight_eq_zero le_rfl,
    BitVec.or_zero]

/-- Bit `i` of a rotation left is bit `i - k` modulo the width (R217). -/
theorem getLsbD_rotateLeft_of_lt {w : Nat} (x : BitVec w) {k i : Nat} (hk : k < w) (hi : i < w) :
    (x.rotateLeft k).getLsbD i = x.getLsbD ((i + w - k) % w) := by
  rcases Nat.eq_zero_or_pos k with rfl | hpos
  · rw [rotateLeft_zero, Nat.sub_zero, Nat.add_mod_right, Nat.mod_eq_of_lt hi]
  · rw [rotateLeft_eq_rotateRight x hpos hk, getLsbD_rotateRight_of_lt x (by omega) hi,
      ← Nat.add_sub_assoc hk.le]

/-- ROR (R216): the rotated bits, and the two shifts they come from. -/
theorem ror_result {w : Nat} (x : BitVec w) {k : Nat} (hk : k < w) : ShiftResult .ror x (shiftValue .ror x k) k := by
  refine ⟨fun i hi => getLsbD_rotateRight_of_lt x hk hi, ?_, fun _ => rotateRight_of_lt x hk⟩
  rintro rfl
  exact rotateRight_zero x

/-- ROL (R217): the rotated bits, the two shifts they come from, and the rotation right that gives the same. -/
theorem rol_result {w : Nat} (x : BitVec w) {k : Nat} (hk : k < w) : ShiftResult .rol x (shiftValue .rol x k) k := by
  refine ⟨fun i hi => getLsbD_rotateLeft_of_lt x hk hi, ?_,
    fun hpos => ⟨rotateLeft_of_lt x hk, rotateLeft_eq_rotateRight x hpos hk⟩⟩
  rintro rfl
  exact rotateLeft_zero x

/-- Each of the four operations gives its result in every form of its rule. -/
theorem shiftValue_result {op : ShiftOp} (hop : op ∈ [ShiftOp.shr, .shl, .ror, .rol]) {w : Nat} (x : BitVec w)
    {k : Nat} (hk : k < w) : ShiftResult op x (shiftValue op x k) k := by
  fin_cases hop
  · exact shr_result x k
  · exact shl_result x k
  · exact ror_result x hk
  · exact rol_result x hk

/-! ## The meanings -/

theorem exec_shiftOf (s : State) (op : ShiftOp) (c a : Reg) (n : BitVec 14) :
    exec (shiftOf op c a n) s = s.shiftInstr op c a n := by
  cases op <;> rfl

/-- A 32-bit value is the low half of its extension by zeros. -/
theorem low_setWidth (v : BitVec 32) : low (v.setWidth 64) = v := by
  simp [low]

/-- A 32-bit value is the low half of its extension by its sign. -/
theorem low_signExtend (v : BitVec 32) : low (v.signExtend 64) = v := by
  ext i hi
  have hi64 : i < 64 := by omega
  simp [low, BitVec.getElem_signExtend, hi, hi64]

/-- Whatever fills the upper half of a 32-bit result, its low half is the result (R271). -/
theorem low_fillUpper (s : State) (fill : UpperFill) (old : Word) (v : BitVec 32) :
    low (s.fillUpper fill old v) = v := by
  unfold State.fillUpper
  split
  · cases fill
    case zero => exact low_setWidth v
    case sign => exact low_signExtend v
    case keep => exact BitVec.setWidth_append_eq_right
    case any => exact BitVec.setWidth_append_eq_right
  · exact low_setWidth v

/-- The low bits of what a one-operand function leaves are its result at the operating width (R262, R271). -/
theorem resultAt_atWidth1 (s : State) (w : Width) (c : Reg) (f : (n : Nat) → BitVec n → BitVec n) (x : Word) :
    LowResult w (f 64 x) (f 32 (low x)) (s.resultAt w c (atWidth1 w f x)) := by
  cases w with
  | w64 => rfl
  | w32 =>
    exact (low_fillUpper s s.cfg.q0Upper (s.readReg c) _).trans (low_setWidth (f 32 (low x)))

/-- A shift or rotation by less than the operating width completes; it leaves a value whose low bits are the operation's
result, and nothing else changes but `pc` (R210, R262). -/
theorem exec_shiftOf_below {s : State} (op : ShiftOp) {c : Reg} (a : Reg) {n : BitVec 14}
    (hc : s.refusesWrite c = false) (hn : n.toNat < s.shiftWidth.bits) :
    ∃ t v, exec (shiftOf op c a n) s = .next t ∧ Leaves s t c v ∧
      LowResult s.shiftWidth (shiftValue op (s.readReg a) n.toNat) (shiftValue op (low (s.readReg a)) n.toNat) v := by
  have hexec := (exec_shiftOf s op c a n).trans (shiftInstr_next.mpr (.inl ⟨hn, retire_next.mpr ⟨hc, rfl⟩⟩))
  exact ⟨_, _, hexec, leaves_of_writesReg (writesReg_setReg_advance s c _),
    resultAt_atWidth1 s s.shiftWidth c (fun _ x => shiftValue op x n.toNat) (s.readReg a)⟩

/-- A count of the operating width or more is reserved where `SHIFT_OVER` is refuse (R211). -/
theorem exec_shiftOf_refuse {s : State} (hover : s.cfg.shiftOver = .refuse) (op : ShiftOp) (c a : Reg) {n : BitVec 14}
    (hn : s.shiftWidth.bits ≤ n.toNat) :
    exec (shiftOf op c a n) s = .refused (.reservedEncoding .shiftCount) := by
  rw [exec_shiftOf, State.shiftInstr, if_neg (by omega), hover, reserved_eq]
  rfl

/-- Settles O30, from the operations on a value of the operating width, the word of format 5, and the two places where a
count is refused. -/
theorem shiftsAndRotations : Obligations.ShiftsAndRotations := by
  intro s op c a n hop hover hc
  refine ⟨fun hn => ?result, ?word, exec_shiftOf_refuse hover op c a, decodeWord_shiftOf_refuse hover op c a⟩
  case result =>
    obtain ⟨t, v, hexec, hleaves, hlow⟩ := exec_shiftOf_below op a hc hn
    refine ⟨t, v, hexec, hleaves, ?_⟩
    cases hw : s.shiftWidth with
    | w64 =>
      rw [hw] at hn hlow
      have hv : v = shiftValue op (s.readReg a) n.toNat := hlow
      exact hv ▸ shiftValue_result hop _ hn
    | w32 =>
      rw [hw] at hn hlow
      have hv : low v = shiftValue op (low (s.readReg a)) n.toNat := hlow
      exact hv ▸ shiftValue_result hop _ hn
  case word =>
    rw [encode_shiftOf_toNat]
    fin_cases hop <;> rfl

end Sys2Proof.Machine
end

section
/-! Proofs for `48_ext_muldiv.md`: MUL and MULI (R284, R287). First their words and that these are reserved without the
extension; then what an ALU operation leaves at either operating width; last the product, which modulo `2^n` is the same
for the signed and for the unsigned values. -/

/-! ## The words -/

namespace Sys2Proof

/-- The fields of format 4 that name an instruction, and its unused bits (R105). -/
theorem encFormat4_fields (op : BitVec 5) (c a b : Reg) (fn : BitVec 3) :
    (encFormat4 op c a b fn).extractLsb' 27 5 = op ∧ (encFormat4 op c a b fn).extractLsb' 9 3 = fn ∧
      (encFormat4 op c a b fn).extractLsb' 0 9 = 0 := by
  refine ⟨?opcode, ?fn1, ?unused⟩ <;> simp [encFormat4, extract_or, extract_field_disjoint]

/-- A word of opcode 0 is decoded as a register form (R124). -/
theorem decodeWord_opcode0 (cfg : Config) (c a b : Reg) (fn : BitVec 3) :
    decodeWord cfg (encFormat4 0 c a b fn) = decodeAluReg cfg (encFormat4 0 c a b fn) := by
  obtain ⟨hop, -⟩ := encFormat4_fields 0 c a b fn
  unfold decodeWord opcodeOf
  rw [hop]
  rfl

/-- A word of opcode 1 is decoded as an immediate form (R124). -/
theorem decodeWord_opcode1 (cfg : Config) (c a : Reg) (fn : BitVec 3) (imm : BitVec 14) :
    decodeWord cfg (encFormat5 1 c a fn imm) = decodeAluImm cfg (encFormat5 1 c a fn imm) := by
  obtain ⟨hop, -⟩ := encFormat5_fields 1 c a fn imm
  unfold decodeWord opcodeOf
  rw [hop]
  rfl

/-- An instruction of the MUL/DIV extension is a reserved encoding without it (R120). -/
theorem ifPresent_mulDiv_absent {cfg : Config} (hm : cfg.extM = false) (i : Instr) :
    cfg.ifPresent .mulDiv i = .error (.absent .mulDiv) := by
  simp [Config.ifPresent, Config.has, hm]

/-- The word of MUL is reserved without the extension (R120, R284). -/
theorem decodeWord_mul_absent {cfg : Config} (hm : cfg.extM = false) (c a b : Reg) :
    decodeWord cfg (encode cfg (.mul c a b)) = .error (.absent .mulDiv) := by
  obtain ⟨-, hfn, hunused⟩ := encFormat4_fields 0 c a b 5
  have hbits : cfg.rejectsUnused (0 : BitVec 9).toNat = false := by simp [Config.rejectsUnused]
  refine (decodeWord_opcode0 cfg c a b 5).trans ?_
  unfold decodeAluReg
  rw [hfn, hunused, hbits]
  exact ifPresent_mulDiv_absent hm _

/-- The word of MULI is reserved without the extension (R120, R287). -/
theorem decodeWord_muli_absent {cfg : Config} (hm : cfg.extM = false) (c a : Reg) (imm : BitVec 14) :
    decodeWord cfg (encode cfg (.muli c a imm)) = .error (.absent .mulDiv) := by
  obtain ⟨-, -, -, hfn, -⟩ := encFormat5_fields 1 c a 5 imm
  refine (decodeWord_opcode1 cfg c a 5 imm).trans ?_
  unfold decodeAluImm
  rw [hfn]
  exact ifPresent_mulDiv_absent hm _

/-- The value of MULI's word: opcode 1 and FN1 = 5 are its constant part (R106, R287). -/
theorem encode_muli_toNat (cfg : Config) (c a : Reg) (imm : BitVec 14) :
    (encode cfg (.muli c a imm)).toNat =
      0x08014000 + c.toBits.toNat * 2 ^ 22 + a.toBits.toNat * 2 ^ 17 + imm.toNat := by
  have hsum := encFormat5_toNat 1 c a 5 imm
  have hop : (1 : BitVec 5).toNat * 2 ^ 27 = 0x08000000 := rfl
  have hfn : (5 : BitVec 3).toNat * 2 ^ 14 = 0x14000 := rfl
  rw [hop, hfn] at hsum
  change (encFormat5 1 c a 5 imm).toNat = _
  omega

end Sys2Proof

namespace Sys2Proof.Machine

open Sys2Proof

/-! ## The meanings -/

theorem exec_mul (s : State) (c a b : Reg) :
    exec (.mul c a b) s = s.aluOp (fun _ x y => x * y) c (s.readReg a) (s.readReg b) := rfl

theorem exec_muli (s : State) (c a : Reg) (imm : BitVec 14) :
    exec (.muli c a imm) s = s.aluOp (fun _ x y => x * y) c (s.readReg a) (s.immSigned imm) := rfl

/-! ## An ALU operation at either operating width -/

/-- The low bits of what a two-operand function leaves are its result at the operating width (R262, R271). -/
theorem resultAt_atWidth2 (s : State) (w : Width) (c : Reg) (f : (n : Nat) → BitVec n → BitVec n → BitVec n)
    (x y : Word) : LowResult w (f 64 x y) (f 32 (low x) (low y)) (s.resultAt w c (atWidth2 w f x y)) := by
  cases w with
  | w64 => rfl
  | w32 => exact (low_fillUpper s s.cfg.q0Upper (s.readReg c) _).trans (low_setWidth (f 32 (low x) (low y)))

/-- An instruction that is an ALU operation completes, unless its write is refused; it leaves a value whose low bits are
the operation's result, and nothing else changes but `pc` (R190, R262). -/
theorem aluOp_leaves {s : State} {c : Reg} (hc : s.refusesWrite c = false) {i : Instr}
    {f : (n : Nat) → BitVec n → BitVec n → BitVec n} {x y : Word} (hi : exec i s = s.aluOp f c x y) :
    ∃ t v, exec i s = .next t ∧ Leaves s t c v ∧ LowResult s.aluWidth (f 64 x y) (f 32 (low x) (low y)) v :=
  ⟨_, _, hi.trans (retire_next.mpr ⟨hc, rfl⟩), leaves_of_writesReg (writesReg_setReg_advance s c _),
    resultAt_atWidth2 s s.aluWidth c f x y⟩

/-! ## The product -/

/-- Multiplication is that of the signed values, modulo `2^n` (R284). -/
theorem mul_eq_ofInt {n : Nat} (x y : BitVec n) : x * y = BitVec.ofInt n (x.toInt * y.toInt) := by
  rw [BitVec.ofInt_mul, BitVec.ofInt_toInt, BitVec.ofInt_toInt]

/-- Multiplication by a value that stands for an integer is that of the signed values, whatever the integer's size. -/
theorem mul_ofInt {n : Nat} (x : BitVec n) (i : Int) : x * BitVec.ofInt n i = BitVec.ofInt n (x.toInt * i) := by
  rw [BitVec.ofInt_mul, BitVec.ofInt_toInt]

/-- The signed immediate of MULI multiplies as the integer it is: at 32 bits always, and at 64 bits where it extends by
its own rule (R281, R287). -/
theorem lowResult_mul_immSigned {s : State} {x v : Word} {imm : BitVec 14} {w : Width}
    (hext : w = .w32 ∨ s.cfg.immExt64 = .same)
    (hv : LowResult w (x * s.immSigned imm) (low x * low (s.immSigned imm)) v) :
    LowResult w (BitVec.ofInt 64 (x.toInt * imm.toInt)) (BitVec.ofInt 32 ((low x).toInt * imm.toInt)) v := by
  obtain ⟨hlow, hwide, -⟩ := immBy_value s .sign (by decide) imm
  cases w with
  | w32 =>
    have himm : low (s.immSigned imm) = BitVec.ofInt 32 imm.toInt := hlow
    rwa [himm, mul_ofInt (low x)] at hv
  | w64 =>
    have hsame : s.cfg.immExt64 = .same := hext.resolve_left nofun
    have himm : s.immSigned imm = BitVec.ofInt 64 imm.toInt := hwide (.inr hsame)
    rwa [himm, mul_ofInt x] at hv

/-- Settles O25, from what an ALU operation leaves, the product as that of the signed and of the unsigned values, and
the words of formats 4 and 5. -/
theorem multiplication : Obligations.Multiplication := by
  intro s c a b imm hc
  refine ⟨⟨?mul, aluWord_toNat c a b 5, fun hm => decodeWord_mul_absent hm c a b⟩,
    ⟨?muli, encode_muli_toNat s.cfg c a imm, fun hm => decodeWord_muli_absent hm c a imm⟩⟩
  case mul =>
    obtain ⟨t, v, hexec, hleaves, hlow⟩ := aluOp_leaves hc (exec_mul s c a b)
    refine ⟨t, v, hexec, hleaves, ?signed, ?unsigned⟩
    case signed => rwa [mul_eq_ofInt, mul_eq_ofInt] at hlow
    case unsigned => rwa [BitVec.mul_def, BitVec.mul_def] at hlow
  case muli =>
    obtain ⟨t, v, hexec, hleaves, hlow⟩ := aluOp_leaves hc (exec_muli s c a imm)
    exact ⟨t, v, hexec, hleaves, fun hext => lowResult_mul_immSigned hext hlow⟩

end Sys2Proof.Machine
end

section
/-! Proofs for `30_encoding.md`: the decoder and the encoder (R114, R120, R124). The instructions of one opcode with a
function field are a family, `regForm` to `condForm`: one instruction per value of the field. With it each part of the
decoder is one equation, each word one format of the fields it is read from, and a proof over all instructions has a
case per opcode. -/

namespace Sys2Proof

open Sys2Proof.Machine

/-! ## The families of the function fields (R111) -/

/-- Opcode 0: the register form a value of FN1 names. -/
def regForm (fn : BitVec 3) (c a b : Reg) : Instr :=
  match fn.toNat with
  | 0 => .add c a b
  | 1 => .sub c a b
  | 2 => .and c a b
  | 3 => .or c a b
  | 4 => .xor c a b
  | 5 => .mul c a b
  | 6 => .div c a b
  | _ => .mod c a b

/-- Opcode 1: the immediate form a value of FN1 names. -/
def immForm (fn : BitVec 3) (c a : Reg) (imm : BitVec 14) : Instr :=
  match fn.toNat with
  | 0 => .addi c a imm
  | 1 => .subi c a imm
  | 2 => .andi c a imm
  | 3 => .ori c a imm
  | 4 => .xori c a imm
  | 5 => .muli c a imm
  | 6 => .divi c a imm
  | _ => .modi c a imm

/-- Opcode 2: the operation an assigned value of FN1 names. -/
def shiftOpOf (fn : BitVec 3) : ShiftOp :=
  match fn.toNat with
  | 0 => .shr
  | 1 => .asr
  | 2 => .shl
  | 3 => .asl
  | 4 => .ror
  | _ => .rol

/-- Opcode 4: the store a value of FN1 names. -/
def storeForm (fn : BitVec 2) (c a : Reg) (imm : BitVec 15) : Instr :=
  match fn.toNat with
  | 0 => .stb c a imm
  | 1 => .stw c a imm
  | 2 => .std c a imm
  | _ => .stq c a imm

/-- Opcode 5: the load a value of FN1 names. -/
def loadForm (fn : BitVec 2) (c a : Reg) (imm : BitVec 15) : Instr :=
  match fn.toNat with
  | 0 => .ldb c a imm
  | 1 => .ldw c a imm
  | 2 => .ldd c a imm
  | _ => .ldq c a imm

/-- Opcode 7: the conditional jump a value of FN1 names. -/
def condForm (fn : BitVec 3) (c a b : Reg) (imm : BitVec 9) : Instr :=
  match fn.toNat with
  | 0 => .jz c a b imm
  | 1 => .jc c a b imm
  | 2 => .js c a b imm
  | 3 => .jv c a b imm
  | 4 => .jnz c a b imm
  | 5 => .jnc c a b imm
  | 6 => .jns c a b imm
  | _ => .jnv c a b imm

/-- Opcode 8: SSB with FN1 = 1, CSB with FN1 = 0. -/
def statusForm (fn : BitVec 5) (b : StatusBit) : Instr := if fn.toNat = 1 then .ssb b else .csb b

theorem bitVec3_cases (fn : BitVec 3) :
    fn = 0 ∨ fn = 1 ∨ fn = 2 ∨ fn = 3 ∨ fn = 4 ∨ fn = 5 ∨ fn = 6 ∨ fn = 7 := by
  revert fn; decide

theorem bitVec2_cases (fn : BitVec 2) : fn = 0 ∨ fn = 1 ∨ fn = 2 ∨ fn = 3 := by
  revert fn; decide

theorem shiftOpOf_shiftFn (op : ShiftOp) : shiftOpOf (shiftFn op) = op := by
  cases op <;> rfl

theorem shiftFn_shiftOpOf {fn : BitVec 3} (h : fn.toNat < 6) : shiftFn (shiftOpOf fn) = fn := by
  revert fn; decide

/-- A proof over all instructions is one case per opcode. -/
theorem Instr.byOpcode {P : Instr → Prop} (reg : ∀ fn c a b, P (regForm fn c a b))
    (imm : ∀ fn c a n, P (immForm fn c a n)) (shift : ∀ op c a n, P (shiftOf op c a n)) (mvu : ∀ c n, P (.mvu c n))
    (store : ∀ fn c a n, P (storeForm fn c a n)) (load : ∀ fn c a n, P (loadForm fn c a n))
    (jmp : ∀ c n, P (.jmp c n)) (cond : ∀ fn c a b n, P (condForm fn c a b n))
    (status : ∀ fn : BitVec 5, fn.toNat < 2 → ∀ b, P (statusForm fn b)) (urt : P .urt) (syscal : P .syscal)
    (mvuHh : ∀ c n, P (.mvuHh c n)) (mvuHl : ∀ c n, P (.mvuHl c n)) : ∀ i, P i
  | .add c a b => reg 0 c a b
  | .sub c a b => reg 1 c a b
  | .and c a b => reg 2 c a b
  | .or c a b => reg 3 c a b
  | .xor c a b => reg 4 c a b
  | .mul c a b => reg 5 c a b
  | .div c a b => reg 6 c a b
  | .mod c a b => reg 7 c a b
  | .addi c a n => imm 0 c a n
  | .subi c a n => imm 1 c a n
  | .andi c a n => imm 2 c a n
  | .ori c a n => imm 3 c a n
  | .xori c a n => imm 4 c a n
  | .muli c a n => imm 5 c a n
  | .divi c a n => imm 6 c a n
  | .modi c a n => imm 7 c a n
  | .shr c a n => shift .shr c a n
  | .asr c a n => shift .asr c a n
  | .shl c a n => shift .shl c a n
  | .asl c a n => shift .asl c a n
  | .ror c a n => shift .ror c a n
  | .rol c a n => shift .rol c a n
  | .mvu c n => mvu c n
  | .stb c a n => store 0 c a n
  | .stw c a n => store 1 c a n
  | .std c a n => store 2 c a n
  | .stq c a n => store 3 c a n
  | .ldb c a n => load 0 c a n
  | .ldw c a n => load 1 c a n
  | .ldd c a n => load 2 c a n
  | .ldq c a n => load 3 c a n
  | .jmp c n => jmp c n
  | .jz c a b n => cond 0 c a b n
  | .jc c a b n => cond 1 c a b n
  | .js c a b n => cond 2 c a b n
  | .jv c a b n => cond 3 c a b n
  | .jnz c a b n => cond 4 c a b n
  | .jnc c a b n => cond 5 c a b n
  | .jns c a b n => cond 6 c a b n
  | .jnv c a b n => cond 7 c a b n
  | .csb b => status 0 (by decide) b
  | .ssb b => status 1 (by decide) b
  | .urt => urt
  | .syscal => syscal
  | .mvuHh c n => mvuHh c n
  | .mvuHl c n => mvuHl c n

/-! ## Which of them an implementation has (R120) -/

/-- The instruction where the implementation has its extension, a reserved encoding elsewhere. -/
def Config.present (cfg : Config) (i : Instr) : Except Reserved Instr := cfg.ifPresent i.extension i

theorem present_ok {cfg : Config} {i j : Instr} :
    cfg.present i = .ok j ↔ cfg.has i.extension = true ∧ j = i := by
  unfold Config.present Config.ifPresent
  cases cfg.has i.extension <;> simp [eq_comm]

theorem present_error {cfg : Config} {i : Instr} :
    (∃ r, cfg.present i = .error r) ↔ cfg.has i.extension = false := by
  unfold Config.present Config.ifPresent
  cases cfg.has i.extension <;> simp

theorem has_regForm_false (cfg : Config) (fn : BitVec 3) (c a b : Reg) :
    cfg.has (regForm fn c a b).extension = false ↔ 5 ≤ fn.toNat ∧ cfg.extM = false := by
  rcases bitVec3_cases fn with rfl | rfl | rfl | rfl | rfl | rfl | rfl | rfl <;>
    simp [regForm, Instr.extension, Config.has]

theorem has_immForm_false (cfg : Config) (fn : BitVec 3) (c a : Reg) (imm : BitVec 14) :
    cfg.has (immForm fn c a imm).extension = false ↔ 5 ≤ fn.toNat ∧ cfg.extM = false := by
  rcases bitVec3_cases fn with rfl | rfl | rfl | rfl | rfl | rfl | rfl | rfl <;>
    simp [immForm, Instr.extension, Config.has]

theorem has_storeForm_false (cfg : Config) (fn : BitVec 2) (c a : Reg) (imm : BitVec 15) :
    cfg.has (storeForm fn c a imm).extension = false ↔ fn = 3 ∧ cfg.extQ = false := by
  rcases bitVec2_cases fn with rfl | rfl | rfl | rfl <;> simp [storeForm, Instr.extension, Config.has]

theorem has_loadForm_false (cfg : Config) (fn : BitVec 2) (c a : Reg) (imm : BitVec 15) :
    cfg.has (loadForm fn c a imm).extension = false ↔ fn = 3 ∧ cfg.extQ = false := by
  rcases bitVec2_cases fn with rfl | rfl | rfl | rfl <;> simp [loadForm, Instr.extension, Config.has]

/-- Only the shifts and rotations have a count. -/
theorem wellFormed_iff {cfg : Config} {i : Instr} (h : i.shiftCount = none) :
    WellFormed cfg i = true ↔ cfg.has i.extension = true := by
  simp [WellFormed, h]

theorem wellFormed_shiftOf {cfg : Config} {op : ShiftOp} {c a : Reg} {n : BitVec 14} :
    WellFormed cfg (shiftOf op c a n) = true ↔ cfg.admitsCount n = true := by
  cases op <;> simp [WellFormed, shiftOf, Instr.extension, Instr.shiftCount, Config.has]

theorem shiftCount_regForm (fn : BitVec 3) (c a b : Reg) : (regForm fn c a b).shiftCount = none := by
  unfold regForm; split <;> rfl

theorem shiftCount_immForm (fn : BitVec 3) (c a : Reg) (imm : BitVec 14) : (immForm fn c a imm).shiftCount = none := by
  unfold immForm; split <;> rfl

theorem shiftCount_storeForm (fn : BitVec 2) (c a : Reg) (imm : BitVec 15) :
    (storeForm fn c a imm).shiftCount = none := by
  unfold storeForm; split <;> rfl

theorem shiftCount_loadForm (fn : BitVec 2) (c a : Reg) (imm : BitVec 15) :
    (loadForm fn c a imm).shiftCount = none := by
  unfold loadForm; split <;> rfl

theorem wellFormed_condForm (cfg : Config) (fn : BitVec 3) (c a b : Reg) (imm : BitVec 9) :
    WellFormed cfg (condForm fn c a b imm) = true := by
  unfold condForm; split <;> rfl

theorem wellFormed_statusForm (cfg : Config) (fn : BitVec 5) (b : StatusBit) :
    WellFormed cfg (statusForm fn b) = true := by
  unfold statusForm; split <;> rfl

/-! ## The decoder, one equation per opcode (R124) -/

theorem decodeAluReg_eq (cfg : Config) (w : BitVec 32) :
    decodeAluReg cfg w = if cfg.rejectsUnused (w.extractLsb' 0 9).toNat then .error .unusedBits
      else cfg.present (regForm (w.extractLsb' 9 3) (fieldC w) (fieldA w) (fieldB w)) := by
  unfold decodeAluReg
  rcases bitVec3_cases (w.extractLsb' 9 3) with h | h | h | h | h | h | h | h <;> rw [h] <;> rfl

theorem decodeAluImm_eq (cfg : Config) (w : BitVec 32) :
    decodeAluImm cfg w = cfg.present (immForm (w.extractLsb' 14 3) (fieldC w) (fieldA w) (w.extractLsb' 0 14)) := by
  unfold decodeAluImm
  rcases bitVec3_cases (w.extractLsb' 14 3) with h | h | h | h | h | h | h | h <;> rw [h] <;> rfl

theorem decodeShift_eq (cfg : Config) (w : BitVec 32) :
    decodeShift cfg w = if 6 ≤ (w.extractLsb' 14 3).toNat then .error .functionField
      else if cfg.admitsCount (w.extractLsb' 0 14) then
        .ok (shiftOf (shiftOpOf (w.extractLsb' 14 3)) (fieldC w) (fieldA w) (w.extractLsb' 0 14))
      else .error .shiftCount := by
  unfold decodeShift
  rcases bitVec3_cases (w.extractLsb' 14 3) with h | h | h | h | h | h | h | h <;> rw [h] <;>
    cases cfg.admitsCount (w.extractLsb' 0 14) <;> rfl

theorem decodeStore_eq (cfg : Config) (w : BitVec 32) :
    decodeStore cfg w = cfg.present (storeForm (w.extractLsb' 15 2) (fieldC w) (fieldA w) (w.extractLsb' 0 15)) := by
  unfold decodeStore
  rcases bitVec2_cases (w.extractLsb' 15 2) with h | h | h | h <;> rw [h] <;> rfl

theorem decodeLoad_eq (cfg : Config) (w : BitVec 32) :
    decodeLoad cfg w = cfg.present (loadForm (w.extractLsb' 15 2) (fieldC w) (fieldA w) (w.extractLsb' 0 15)) := by
  unfold decodeLoad
  rcases bitVec2_cases (w.extractLsb' 15 2) with h | h | h | h <;> rw [h] <;> rfl

theorem decodeCondJump_eq (w : BitVec 32) :
    decodeCondJump w =
      .ok (condForm (w.extractLsb' 9 3) (fieldC w) (fieldA w) (fieldB w) (w.extractLsb' 0 9)) := by
  unfold decodeCondJump
  rcases bitVec3_cases (w.extractLsb' 9 3) with h | h | h | h | h | h | h | h <;> rw [h] <;> rfl

/-- The instruction a word holds in an implementation, one case per opcode: a decoded word, read from its fields. -/
inductive Reads (cfg : Config) (w : BitVec 32) : Instr → Prop
  | reg (hop : opcodeOf w = 0) (hunused : cfg.rejectsUnused (w.extractLsb' 0 9).toNat = false)
      (hhas : cfg.has (regForm (w.extractLsb' 9 3) (fieldC w) (fieldA w) (fieldB w)).extension = true) :
      Reads cfg w (regForm (w.extractLsb' 9 3) (fieldC w) (fieldA w) (fieldB w))
  | imm (hop : opcodeOf w = 1)
      (hhas : cfg.has (immForm (w.extractLsb' 14 3) (fieldC w) (fieldA w) (w.extractLsb' 0 14)).extension = true) :
      Reads cfg w (immForm (w.extractLsb' 14 3) (fieldC w) (fieldA w) (w.extractLsb' 0 14))
  | shift (hop : opcodeOf w = 2) (hfn : (w.extractLsb' 14 3).toNat < 6)
      (hcount : cfg.admitsCount (w.extractLsb' 0 14) = true) :
      Reads cfg w (shiftOf (shiftOpOf (w.extractLsb' 14 3)) (fieldC w) (fieldA w) (w.extractLsb' 0 14))
  | mvu (hop : opcodeOf w = 3) : Reads cfg w (.mvu (fieldC w) (w.extractLsb' 0 22))
  | store (hop : opcodeOf w = 4)
      (hhas : cfg.has (storeForm (w.extractLsb' 15 2) (fieldC w) (fieldA w) (w.extractLsb' 0 15)).extension = true) :
      Reads cfg w (storeForm (w.extractLsb' 15 2) (fieldC w) (fieldA w) (w.extractLsb' 0 15))
  | load (hop : opcodeOf w = 5)
      (hhas : cfg.has (loadForm (w.extractLsb' 15 2) (fieldC w) (fieldA w) (w.extractLsb' 0 15)).extension = true) :
      Reads cfg w (loadForm (w.extractLsb' 15 2) (fieldC w) (fieldA w) (w.extractLsb' 0 15))
  | jmp (hop : opcodeOf w = 6) (hunused : cfg.rejectsUnused (w.extractLsb' 15 7).toNat = false) :
      Reads cfg w (.jmp (fieldC w) (w.extractLsb' 0 15))
  | cond (hop : opcodeOf w = 7) :
      Reads cfg w (condForm (w.extractLsb' 9 3) (fieldC w) (fieldA w) (fieldB w) (w.extractLsb' 0 9))
  | status (hop : opcodeOf w = 8) (hfn : (w.extractLsb' 22 5).toNat < 2) {b : StatusBit}
      (hbit : StatusBit.ofNat? (cfg.fieldFn2 w) = some b)
      (hunused : cfg.rejectsUnused (cfg.unusedAroundFn2 w) = false) :
      Reads cfg w (statusForm (w.extractLsb' 22 5) b)
  | urt (hop : opcodeOf w = 9) (hunused : cfg.rejectsUnused (w.extractLsb' 0 27).toNat = false) : Reads cfg w .urt
  | syscal (hop : opcodeOf w = 10) (hunused : cfg.rejectsUnused (w.extractLsb' 0 27).toNat = false) :
      Reads cfg w .syscal
  | mvuHh (hop : opcodeOf w = 11) (hq : cfg.extQ = true) : Reads cfg w (.mvuHh (fieldC w) (w.extractLsb' 0 22))
  | mvuHl (hop : opcodeOf w = 12) (hq : cfg.extQ = true) : Reads cfg w (.mvuHl (fieldC w) (w.extractLsb' 0 22))

theorem decodeStatus_ok {cfg : Config} {w : BitVec 32} {i : Instr} :
    decodeStatus cfg w = .ok i ↔ (w.extractLsb' 22 5).toNat < 2 ∧
      ∃ b, StatusBit.ofNat? (cfg.fieldFn2 w) = some b ∧ cfg.rejectsUnused (cfg.unusedAroundFn2 w) = false ∧
        i = statusForm (w.extractLsb' 22 5) b := by
  unfold decodeStatus statusForm
  generalize w.extractLsb' 22 5 = fn
  by_cases hfn : 2 ≤ fn.toNat
  · rw [if_pos hfn]
    exact ⟨nofun, fun h => absurd h.1 (Nat.not_lt_of_le hfn)⟩
  · rw [if_neg hfn]
    cases StatusBit.ofNat? (cfg.fieldFn2 w) with
    | none => simp
    | some b =>
      have hlt : fn.toNat < 2 := Nat.lt_of_not_le hfn
      cases cfg.rejectsUnused (cfg.unusedAroundFn2 w) <;> by_cases h1 : fn.toNat = 1 <;>
        simp [h1, hlt, eq_comm (b := i)]

theorem decodeFormat7_ok {cfg : Config} {w : BitVec 32} {i j : Instr} :
    decodeFormat7 cfg w i = .ok j ↔ cfg.rejectsUnused (w.extractLsb' 0 27).toNat = false ∧ j = i := by
  unfold decodeFormat7
  cases cfg.rejectsUnused (w.extractLsb' 0 27).toNat <;> simp [eq_comm]

/-- The opcode of a word as its number. -/
theorem opcodeOf_eq {w : BitVec 32} {op : BitVec 5} (h : (opcodeOf w).toNat = op.toNat) : opcodeOf w = op :=
  BitVec.eq_of_toNat_eq h

/-- The decoder answers an instruction exactly when the word holds it. -/
theorem decodeWord_ok {cfg : Config} {w : BitVec 32} {i : Instr} : decodeWord cfg w = .ok i ↔ Reads cfg w i := by
  constructor
  · intro h
    unfold decodeWord at h
    split at h
    case h_1 hop =>
      rw [decodeAluReg_eq] at h
      split at h
      · cases h
      · next hunused =>
        obtain ⟨hhas, rfl⟩ := present_ok.mp h
        exact .reg (opcodeOf_eq hop) (by simpa using hunused) hhas
    case h_2 hop =>
      obtain ⟨hhas, rfl⟩ := present_ok.mp ((decodeAluImm_eq cfg w).symm.trans h)
      exact .imm (opcodeOf_eq hop) hhas
    case h_3 hop =>
      rw [decodeShift_eq] at h
      split_ifs at h with hfn hcount
      cases h
      exact .shift (opcodeOf_eq hop) (Nat.lt_of_not_le hfn) hcount
    case h_4 hop =>
      cases h
      exact .mvu (opcodeOf_eq hop)
    case h_5 hop =>
      obtain ⟨hhas, rfl⟩ := present_ok.mp ((decodeStore_eq cfg w).symm.trans h)
      exact .store (opcodeOf_eq hop) hhas
    case h_6 hop =>
      obtain ⟨hhas, rfl⟩ := present_ok.mp ((decodeLoad_eq cfg w).symm.trans h)
      exact .load (opcodeOf_eq hop) hhas
    case h_7 hop =>
      unfold decodeJmp at h
      split at h
      · cases h
      · next hunused =>
        cases h
        exact .jmp (opcodeOf_eq hop) (by simpa using hunused)
    case h_8 hop =>
      cases (decodeCondJump_eq w).symm.trans h
      exact .cond (opcodeOf_eq hop)
    case h_9 hop =>
      obtain ⟨hfn, b, hbit, hunused, rfl⟩ := decodeStatus_ok.mp h
      exact .status (opcodeOf_eq hop) hfn hbit hunused
    case h_10 hop =>
      obtain ⟨hunused, rfl⟩ := decodeFormat7_ok.mp h
      exact .urt (opcodeOf_eq hop) hunused
    case h_11 hop =>
      obtain ⟨hunused, rfl⟩ := decodeFormat7_ok.mp h
      exact .syscal (opcodeOf_eq hop) hunused
    case h_12 hop =>
      obtain ⟨hq, rfl⟩ := present_ok (i := .mvuHh _ _) |>.mp h
      exact .mvuHh (opcodeOf_eq hop) hq
    case h_13 hop =>
      obtain ⟨hq, rfl⟩ := present_ok (i := .mvuHl _ _) |>.mp h
      exact .mvuHl (opcodeOf_eq hop) hq
    case h_14 => cases h
  · intro h
    unfold decodeWord
    cases h with
    | reg hop hunused hhas =>
      rw [hop]
      change decodeAluReg cfg w = _
      rw [decodeAluReg_eq, hunused]
      exact present_ok.mpr ⟨hhas, rfl⟩
    | imm hop hhas =>
      rw [hop]
      exact (decodeAluImm_eq cfg w).trans (present_ok.mpr ⟨hhas, rfl⟩)
    | shift hop hfn hcount =>
      rw [hop]
      change decodeShift cfg w = _
      rw [decodeShift_eq, if_neg (Nat.not_le_of_lt hfn), if_pos hcount]
    | mvu hop =>
      rw [hop]
      rfl
    | store hop hhas =>
      rw [hop]
      exact (decodeStore_eq cfg w).trans (present_ok.mpr ⟨hhas, rfl⟩)
    | load hop hhas =>
      rw [hop]
      exact (decodeLoad_eq cfg w).trans (present_ok.mpr ⟨hhas, rfl⟩)
    | jmp hop hunused =>
      rw [hop]
      change decodeJmp cfg w = _
      unfold decodeJmp
      rw [hunused]
      rfl
    | cond hop =>
      rw [hop]
      exact decodeCondJump_eq w
    | status hop hfn hbit hunused =>
      rw [hop]
      exact decodeStatus_ok.mpr ⟨hfn, _, hbit, hunused, rfl⟩
    | urt hop hunused =>
      rw [hop]
      exact decodeFormat7_ok.mpr ⟨hunused, rfl⟩
    | syscal hop hunused =>
      rw [hop]
      exact decodeFormat7_ok.mpr ⟨hunused, rfl⟩
    | mvuHh hop hq =>
      rw [hop]
      exact present_ok (i := .mvuHh _ _) |>.mpr ⟨hq, rfl⟩
    | mvuHl hop hq =>
      rw [hop]
      exact present_ok (i := .mvuHl _ _) |>.mpr ⟨hq, rfl⟩

/-- Settles O2: a word holds only instructions that are well formed. -/
theorem decodedIsWellFormed : Obligations.DecodedIsWellFormed := by
  intro cfg w i h
  cases decodeWord_ok.mp h with
  | reg _ _ hhas => exact (wellFormed_iff (shiftCount_regForm _ _ _ _)).mpr hhas
  | imm _ hhas => exact (wellFormed_iff (shiftCount_immForm _ _ _ _)).mpr hhas
  | shift _ _ hcount => exact wellFormed_shiftOf.mpr hcount
  | store _ hhas => exact (wellFormed_iff (shiftCount_storeForm _ _ _ _)).mpr hhas
  | load _ hhas => exact (wellFormed_iff (shiftCount_loadForm _ _ _ _)).mpr hhas
  | cond => exact wellFormed_condForm cfg _ _ _ _ _
  | status => exact wellFormed_statusForm cfg _ _
  | mvuHh _ hq => exact (wellFormed_iff rfl).mpr hq
  | mvuHl _ hq => exact (wellFormed_iff rfl).mpr hq
  | mvu | jmp | urt | syscal => rfl

/-! ## The encoder, one format per opcode (R102 to R109) -/

theorem encode_regForm (cfg : Config) (fn : BitVec 3) (c a b : Reg) :
    encode cfg (regForm fn c a b) = encFormat4 0 c a b fn := by
  rcases bitVec3_cases fn with rfl | rfl | rfl | rfl | rfl | rfl | rfl | rfl <;> rfl

theorem encode_immForm (cfg : Config) (fn : BitVec 3) (c a : Reg) (imm : BitVec 14) :
    encode cfg (immForm fn c a imm) = encFormat5 1 c a fn imm := by
  rcases bitVec3_cases fn with rfl | rfl | rfl | rfl | rfl | rfl | rfl | rfl <;> rfl

theorem encode_storeForm (cfg : Config) (fn : BitVec 2) (c a : Reg) (imm : BitVec 15) :
    encode cfg (storeForm fn c a imm) = encFormat2 4 c a fn imm := by
  rcases bitVec2_cases fn with rfl | rfl | rfl | rfl <;> rfl

theorem encode_loadForm (cfg : Config) (fn : BitVec 2) (c a : Reg) (imm : BitVec 15) :
    encode cfg (loadForm fn c a imm) = encFormat2 5 c a fn imm := by
  rcases bitVec2_cases fn with rfl | rfl | rfl | rfl <;> rfl

theorem encode_condForm (cfg : Config) (fn : BitVec 3) (c a b : Reg) (imm : BitVec 9) :
    encode cfg (condForm fn c a b imm) = encFormat3 7 c a b fn imm := by
  rcases bitVec3_cases fn with rfl | rfl | rfl | rfl | rfl | rfl | rfl | rfl <;> rfl

theorem encode_statusForm (cfg : Config) {fn : BitVec 5} (h : fn.toNat < 2) (b : StatusBit) :
    encode cfg (statusForm fn b) = encFormat8 cfg 8 fn b := by
  have hfn : fn = 0 ∨ fn = 1 := by bv_omega
  rcases hfn with rfl | rfl <;> rfl

/-! ## Format 8 (R109): the parameters place FN2 inside the low 22 bits -/

/-- Bits 21 to 0 of a word of format 8. -/
def statusField (cfg : Config) (b : StatusBit) : BitVec 22 := BitVec.ofNat 22 (b.toBits.toNat * 2 ^ cfg.fn2Lo.val)

theorem statusBit_lt (b : StatusBit) : b.toBits.toNat < 4 := by
  cases b <;> decide

/-- FN2 is at least two bits wide (D15), so the number of a status bit fits in it. -/
theorem statusBit_shifted_lt (cfg : Config) (b : StatusBit) :
    b.toBits.toNat * 2 ^ cfg.fn2Lo.val < 2 ^ (cfg.fn2Hi.val + 1) := calc
  b.toBits.toNat * 2 ^ cfg.fn2Lo.val < 2 ^ 2 * 2 ^ cfg.fn2Lo.val := by
    have := statusBit_lt b
    gcongr
    exact this
  _ = 2 ^ (2 + cfg.fn2Lo.val) := (pow_add 2 2 _).symm
  _ ≤ 2 ^ (cfg.fn2Hi.val + 1) := Nat.pow_le_pow_right (by decide) (by omega)

theorem two_pow_fn2Hi_le (cfg : Config) : 2 ^ (cfg.fn2Hi.val + 1) ≤ 2 ^ 22 :=
  Nat.pow_le_pow_right (by decide) (by omega)

theorem statusField_toNat (cfg : Config) (b : StatusBit) :
    (statusField cfg b).toNat = b.toBits.toNat * 2 ^ cfg.fn2Lo.val := by
  have hlt := statusBit_shifted_lt cfg b
  have hle := two_pow_fn2Hi_le cfg
  rw [statusField, BitVec.toNat_ofNat, Nat.mod_eq_of_lt (by omega)]

/-- A word of format 8 has the fields of format 1. -/
theorem encFormat8_eq (cfg : Config) (op fn : BitVec 5) (b : StatusBit) :
    encFormat8 cfg op fn b = encFormat1 op (.ofBits fn) (statusField cfg b) := by
  have hlow : field cfg.fn2Lo.val b.toBits = field 0 (statusField cfg b) := by
    apply BitVec.eq_of_toNat_eq
    rw [field_toNat _ (by omega), field_toNat _ (by decide), statusField_toNat, pow_zero, mul_one]
  rw [encFormat8, encFormat1, hlow, Reg.toBits_ofBits]

/-- FN2 reads the status bit back, and the bits around it are zero (R109). -/
theorem statusField_fn2 (cfg : Config) (b : StatusBit) :
    (statusField cfg b).toNat % 2 ^ (cfg.fn2Hi.val + 1) / 2 ^ cfg.fn2Lo.val = b.toBits.toNat ∧
      (statusField cfg b).toNat / 2 ^ (cfg.fn2Hi.val + 1) + (statusField cfg b).toNat % 2 ^ cfg.fn2Lo.val = 0 := by
  have hlt := statusBit_shifted_lt cfg b
  rw [statusField_toNat, Nat.mod_eq_of_lt hlt, Nat.mul_div_cancel _ (Nat.two_pow_pos _), Nat.div_eq_of_lt hlt,
    Nat.mul_mod_left]
  exact ⟨rfl, rfl⟩

/-- Where the bits around FN2 are zero, it determines the low 22 bits. -/
theorem eq_statusField {cfg : Config} {b : StatusBit} {v : BitVec 22}
    (hfn : v.toNat % 2 ^ (cfg.fn2Hi.val + 1) / 2 ^ cfg.fn2Lo.val = b.toBits.toNat)
    (hunused : v.toNat / 2 ^ (cfg.fn2Hi.val + 1) + v.toNat % 2 ^ cfg.fn2Lo.val = 0) : statusField cfg b = v := by
  obtain ⟨habove, hbelow⟩ := Nat.add_eq_zero_iff.mp hunused
  have hlt : v.toNat < 2 ^ (cfg.fn2Hi.val + 1) := Nat.lt_of_div_eq_zero (Nat.two_pow_pos _) habove
  rw [Nat.mod_eq_of_lt hlt] at hfn
  apply BitVec.eq_of_toNat_eq
  rw [statusField_toNat, ← hfn, Nat.div_mul_cancel (Nat.dvd_of_mod_eq_zero hbelow)]

/-! ## Decoding undoes encoding (R124) -/

/-- The registers of a word of format 4 (R105). -/
theorem encFormat4_regs (op : BitVec 5) (c a b : Reg) (fn : BitVec 3) :
    fieldC (encFormat4 op c a b fn) = c ∧ fieldA (encFormat4 op c a b fn) = a ∧
      fieldB (encFormat4 op c a b fn) = b := by
  refine ⟨?c, ?a, ?b⟩ <;> simp [fieldC, fieldA, fieldB, encFormat4, extract_or, extract_field_disjoint]

/-- Bits that are zero are never rejected as unused (R114). -/
@[simp] theorem rejectsUnused_zero (cfg : Config) : cfg.rejectsUnused 0 = false := by
  simp [Config.rejectsUnused]

theorem rejectsUnused_of_eq_zero (cfg : Config) {n : Nat} {v : BitVec n} (h : v = 0) :
    cfg.rejectsUnused v.toNat = false := by
  rw [h, BitVec.ofNat_eq_ofNat, BitVec.toNat_ofNat, Nat.zero_mod, rejectsUnused_zero]

theorem reads_regForm {cfg : Config} {fn : BitVec 3} {c a b : Reg}
    (h : cfg.has (regForm fn c a b).extension = true) : Reads cfg (encFormat4 0 c a b fn) (regForm fn c a b) := by
  obtain ⟨hop, hfn, hunused⟩ := encFormat4_fields 0 c a b fn
  obtain ⟨hc, ha, hb⟩ := encFormat4_regs 0 c a b fn
  have hreads := Reads.reg (cfg := cfg) (w := encFormat4 0 c a b fn) hop (rejectsUnused_of_eq_zero cfg hunused)
  rw [hfn, hc, ha, hb] at hreads
  exact hreads h

theorem reads_immForm {cfg : Config} {fn : BitVec 3} {c a : Reg} {imm : BitVec 14}
    (h : cfg.has (immForm fn c a imm).extension = true) : Reads cfg (encFormat5 1 c a fn imm) (immForm fn c a imm) := by
  obtain ⟨hop, hc, ha, hfn, himm⟩ := encFormat5_fields 1 c a fn imm
  have hreads := Reads.imm (cfg := cfg) (w := encFormat5 1 c a fn imm) hop
  rw [fieldC, fieldA, hfn, hc, ha, himm, Reg.ofBits_toBits, Reg.ofBits_toBits] at hreads
  exact hreads h

theorem reads_shiftOf {cfg : Config} {op : ShiftOp} {c a : Reg} {n : BitVec 14} (h : cfg.admitsCount n = true) :
    Reads cfg (encFormat5 2 c a (shiftFn op) n) (shiftOf op c a n) := by
  obtain ⟨hop, hc, ha, hfn, himm⟩ := encFormat5_fields 2 c a (shiftFn op) n
  have hreads := Reads.shift (cfg := cfg) (w := encFormat5 2 c a (shiftFn op) n) hop
  rw [fieldC, fieldA, hfn, hc, ha, himm, Reg.ofBits_toBits, Reg.ofBits_toBits, shiftOpOf_shiftFn] at hreads
  exact hreads (shiftFn_lt op) h

theorem reads_storeForm {cfg : Config} {fn : BitVec 2} {c a : Reg} {imm : BitVec 15}
    (h : cfg.has (storeForm fn c a imm).extension = true) :
    Reads cfg (encFormat2 4 c a fn imm) (storeForm fn c a imm) := by
  obtain ⟨hop, hc, ha, hfn, himm⟩ := encFormat2_fields 4 c a fn imm
  have hreads := Reads.store (cfg := cfg) (w := encFormat2 4 c a fn imm) hop
  rw [fieldC, fieldA, hfn, hc, ha, himm, Reg.ofBits_toBits, Reg.ofBits_toBits] at hreads
  exact hreads h

theorem reads_loadForm {cfg : Config} {fn : BitVec 2} {c a : Reg} {imm : BitVec 15}
    (h : cfg.has (loadForm fn c a imm).extension = true) :
    Reads cfg (encFormat2 5 c a fn imm) (loadForm fn c a imm) := by
  obtain ⟨hop, hc, ha, hfn, himm⟩ := encFormat2_fields 5 c a fn imm
  have hreads := Reads.load (cfg := cfg) (w := encFormat2 5 c a fn imm) hop
  rw [fieldC, fieldA, hfn, hc, ha, himm, Reg.ofBits_toBits, Reg.ofBits_toBits] at hreads
  exact hreads h

/-- JMP has zeros in its A and FN1 fields, bits 21 to 15 (R103, R174). -/
theorem reads_jmp (cfg : Config) (c : Reg) (imm : BitVec 15) :
    Reads cfg (encFormat2 6 c .zr 0 imm) (.jmp c imm) := by
  obtain ⟨hop, hc, -, -, himm⟩ := encFormat2_fields 6 c .zr 0 imm
  have hunused : (encFormat2 6 c .zr 0 imm).extractLsb' 15 7 = 0 := by
    rw [encFormat2_jmp]
    simp [extract_or, extract_field_disjoint]
  have hreads := Reads.jmp (cfg := cfg) (w := encFormat2 6 c .zr 0 imm) hop (rejectsUnused_of_eq_zero cfg hunused)
  rwa [fieldC, hc, himm, Reg.ofBits_toBits] at hreads

theorem reads_condForm (cfg : Config) (fn : BitVec 3) (c a b : Reg) (imm : BitVec 9) :
    Reads cfg (encFormat3 7 c a b fn imm) (condForm fn c a b imm) := by
  obtain ⟨hop, hc, ha, hb, hfn, himm⟩ := encFormat3_fields 7 c a b fn imm
  have hreads := Reads.cond (cfg := cfg) (w := encFormat3 7 c a b fn imm) hop
  rwa [fieldC, fieldA, fieldB, hfn, hc, ha, hb, himm, Reg.ofBits_toBits, Reg.ofBits_toBits, Reg.ofBits_toBits] at hreads

theorem reads_statusForm (cfg : Config) {fn : BitVec 5} (h : fn.toNat < 2) (b : StatusBit) :
    Reads cfg (encFormat8 cfg 8 fn b) (statusForm fn b) := by
  obtain ⟨hop, hfn, hlow⟩ := encFormat1_fields 8 (.ofBits fn) (statusField cfg b)
  obtain ⟨hfn2, haround⟩ := statusField_fn2 cfg b
  rw [Reg.toBits_ofBits] at hfn
  rw [encFormat8_eq]
  have hreads := Reads.status (cfg := cfg) (w := encFormat1 8 (.ofBits fn) (statusField cfg b)) (b := b) hop
  rw [hfn, Config.fieldFn2, Config.unusedAroundFn2, hlow, hfn2, haround] at hreads
  exact hreads h (StatusBit.ofNat_toBits b) (rejectsUnused_zero cfg)

/-- An instruction of format 1 is read from its word: its C and its immediate (R102). -/
theorem encFormat1_read (op : BitVec 5) (c : Reg) (imm : BitVec 22) :
    opcodeOf (encFormat1 op c imm) = op ∧ fieldC (encFormat1 op c imm) = c ∧
      (encFormat1 op c imm).extractLsb' 0 22 = imm := by
  obtain ⟨hop, hc, himm⟩ := encFormat1_fields op c imm
  exact ⟨hop, by rw [fieldC, hc, Reg.ofBits_toBits], himm⟩

theorem reads_mvu (cfg : Config) (c : Reg) (imm : BitVec 22) : Reads cfg (encFormat1 3 c imm) (.mvu c imm) := by
  obtain ⟨hop, hc, himm⟩ := encFormat1_read 3 c imm
  have hreads := Reads.mvu (cfg := cfg) hop
  rwa [hc, himm] at hreads

theorem reads_mvuHh {cfg : Config} (hq : cfg.extQ = true) (c : Reg) (imm : BitVec 22) :
    Reads cfg (encFormat1 11 c imm) (.mvuHh c imm) := by
  obtain ⟨hop, hc, himm⟩ := encFormat1_read 11 c imm
  have hreads := Reads.mvuHh hop hq
  rwa [hc, himm] at hreads

theorem reads_mvuHl {cfg : Config} (hq : cfg.extQ = true) (c : Reg) (imm : BitVec 22) :
    Reads cfg (encFormat1 12 c imm) (.mvuHl c imm) := by
  obtain ⟨hop, hc, himm⟩ := encFormat1_read 12 c imm
  have hreads := Reads.mvuHl hop hq
  rwa [hc, himm] at hreads

theorem format7_unused (cfg : Config) (op : BitVec 5) :
    cfg.rejectsUnused ((encFormat7 op).extractLsb' 0 27).toNat = false :=
  rejectsUnused_of_eq_zero cfg (encFormat7_fields op).2

/-- The word of a well-formed instruction holds it, with every operand. -/
theorem reads_encode (cfg : Config) (i : Instr) : WellFormed cfg i = true → Reads cfg (encode cfg i) i := by
  induction i using Instr.byOpcode with
  | reg fn c a b =>
    rw [encode_regForm, wellFormed_iff (shiftCount_regForm _ _ _ _)]
    exact reads_regForm
  | imm fn c a n =>
    rw [encode_immForm, wellFormed_iff (shiftCount_immForm _ _ _ _)]
    exact reads_immForm
  | shift op c a n =>
    rw [encode_shiftOf, wellFormed_shiftOf]
    exact reads_shiftOf
  | mvu c n => exact fun _ => reads_mvu cfg c n
  | store fn c a n =>
    rw [encode_storeForm, wellFormed_iff (shiftCount_storeForm _ _ _ _)]
    exact reads_storeForm
  | load fn c a n =>
    rw [encode_loadForm, wellFormed_iff (shiftCount_loadForm _ _ _ _)]
    exact reads_loadForm
  | jmp c n => exact fun _ => reads_jmp cfg c n
  | cond fn c a b n =>
    rw [encode_condForm]
    exact fun _ => reads_condForm cfg fn c a b n
  | status fn h b =>
    rw [encode_statusForm cfg h]
    exact fun _ => reads_statusForm cfg h b
  | urt => exact fun _ => .urt (encFormat7_fields 9).1 (format7_unused cfg 9)
  | syscal => exact fun _ => .syscal (encFormat7_fields 10).1 (format7_unused cfg 10)
  | mvuHh c n => exact fun h => reads_mvuHh ((wellFormed_iff rfl).mp h) c n
  | mvuHl c n => exact fun h => reads_mvuHl ((wellFormed_iff rfl).mp h) c n

/-- Settles O1: the word of a well-formed instruction holds it, and the decoder answers what a word holds. -/
theorem decodeInvertsEncode : Obligations.DecodeInvertsEncode :=
  fun cfg i h => decodeWord_ok.mpr (reads_encode cfg i h)

/-! ## Encoding undoes decoding where unused bits must be zero (R114) -/

/-- Where non-zero unused bits are reserved, a word that is not rejected has none. -/
theorem rejectsUnused_refuse {cfg : Config} (hcfg : cfg.unusedBits = .refuse) {n : Nat} :
    cfg.rejectsUnused n = false ↔ n = 0 := by
  simp [Config.rejectsUnused, hcfg]

theorem encFormat1_of_fields (w : BitVec 32) :
    encFormat1 (opcodeOf w) (fieldC w) (w.extractLsb' 0 22) = w := by
  apply BitVec.eq_of_toNat_eq
  rw [encFormat1_toNat, opcodeOf, fieldC, Reg.toBits_ofBits]
  simp only [BitVec.extractLsb'_toNat, Nat.shiftRight_eq_div_pow]
  omega

theorem encFormat2_of_fields (w : BitVec 32) :
    encFormat2 (opcodeOf w) (fieldC w) (fieldA w) (w.extractLsb' 15 2) (w.extractLsb' 0 15) = w := by
  apply BitVec.eq_of_toNat_eq
  rw [encFormat2_toNat, opcodeOf, fieldC, fieldA, Reg.toBits_ofBits, Reg.toBits_ofBits]
  simp only [BitVec.extractLsb'_toNat, Nat.shiftRight_eq_div_pow]
  omega

theorem encFormat3_of_fields (w : BitVec 32) :
    encFormat3 (opcodeOf w) (fieldC w) (fieldA w) (fieldB w) (w.extractLsb' 9 3) (w.extractLsb' 0 9) = w := by
  apply BitVec.eq_of_toNat_eq
  rw [encFormat3_toNat, opcodeOf, fieldC, fieldA, fieldB, Reg.toBits_ofBits, Reg.toBits_ofBits, Reg.toBits_ofBits]
  simp only [BitVec.extractLsb'_toNat, Nat.shiftRight_eq_div_pow]
  omega

theorem encFormat4_of_fields {w : BitVec 32} (hunused : (w.extractLsb' 0 9).toNat = 0) :
    encFormat4 (opcodeOf w) (fieldC w) (fieldA w) (fieldB w) (w.extractLsb' 9 3) = w := by
  apply BitVec.eq_of_toNat_eq
  rw [encFormat4_toNat, opcodeOf, fieldC, fieldA, fieldB, Reg.toBits_ofBits, Reg.toBits_ofBits, Reg.toBits_ofBits]
  simp only [BitVec.extractLsb'_toNat, Nat.shiftRight_eq_div_pow] at hunused ⊢
  omega

theorem encFormat5_of_fields (w : BitVec 32) :
    encFormat5 (opcodeOf w) (fieldC w) (fieldA w) (w.extractLsb' 14 3) (w.extractLsb' 0 14) = w := by
  apply BitVec.eq_of_toNat_eq
  rw [encFormat5_toNat, opcodeOf, fieldC, fieldA, Reg.toBits_ofBits, Reg.toBits_ofBits]
  simp only [BitVec.extractLsb'_toNat, Nat.shiftRight_eq_div_pow]
  omega

theorem encFormat7_of_fields {w : BitVec 32} (hunused : (w.extractLsb' 0 27).toNat = 0) :
    encFormat7 (opcodeOf w) = w := by
  apply BitVec.eq_of_toNat_eq
  rw [encFormat7_toNat, opcodeOf]
  simp only [BitVec.extractLsb'_toNat, Nat.shiftRight_eq_div_pow] at hunused ⊢
  omega

/-- The word of JMP, whose bits 21 to 15 are zero (R103, R174). -/
theorem encFormat2_jmp_of_fields {w : BitVec 32} (hunused : (w.extractLsb' 15 7).toNat = 0) :
    encFormat2 (opcodeOf w) (fieldC w) .zr 0 (w.extractLsb' 0 15) = w := by
  apply BitVec.eq_of_toNat_eq
  rw [encFormat2_toNat, opcodeOf, fieldC, Reg.toBits_ofBits]
  simp only [BitVec.extractLsb'_toNat, Nat.shiftRight_eq_div_pow, Reg.toBits, BitVec.ofNat_eq_ofNat,
    BitVec.toNat_ofNat] at hunused ⊢
  omega

theorem encFormat8_of_fields {cfg : Config} {w : BitVec 32} {b : StatusBit}
    (hbit : StatusBit.ofNat? (cfg.fieldFn2 w) = some b) (hunused : cfg.unusedAroundFn2 w = 0) :
    encFormat8 cfg (opcodeOf w) (w.extractLsb' 22 5) b = w := by
  rw [encFormat8_eq, eq_statusField (StatusBit.toBits_of_ofNat hbit).symm hunused]
  exact encFormat1_of_fields w

/-- Settles O3: with no unused bit set, the word is put together again from the fields it was read by. -/
theorem encodeInvertsDecode : Obligations.EncodeInvertsDecode := by
  intro cfg w i hcfg h
  cases decodeWord_ok.mp h with
  | reg hop hunused => rw [encode_regForm, ← hop, encFormat4_of_fields ((rejectsUnused_refuse hcfg).mp hunused)]
  | imm hop => rw [encode_immForm, ← hop, encFormat5_of_fields]
  | shift hop hfn => rw [encode_shiftOf, shiftFn_shiftOpOf hfn, ← hop, encFormat5_of_fields]
  | mvu hop => rw [encode, ← hop, encFormat1_of_fields]
  | store hop => rw [encode_storeForm, ← hop, encFormat2_of_fields]
  | load hop => rw [encode_loadForm, ← hop, encFormat2_of_fields]
  | jmp hop hunused => rw [encode, ← hop, encFormat2_jmp_of_fields ((rejectsUnused_refuse hcfg).mp hunused)]
  | cond hop => rw [encode_condForm, ← hop, encFormat3_of_fields]
  | status hop hfn hbit hunused =>
    rw [encode_statusForm cfg hfn, ← hop, encFormat8_of_fields hbit ((rejectsUnused_refuse hcfg).mp hunused)]
  | urt hop hunused => rw [encode, ← hop, encFormat7_of_fields ((rejectsUnused_refuse hcfg).mp hunused)]
  | syscal hop hunused => rw [encode, ← hop, encFormat7_of_fields ((rejectsUnused_refuse hcfg).mp hunused)]
  | mvuHh hop => rw [encode, ← hop, encFormat1_of_fields]
  | mvuHl hop => rw [encode, ← hop, encFormat1_of_fields]

/-! ## The bytes of an instruction (R64, R68) -/

/-- The four bytes of a word, in either byte order, make the word again. -/
theorem ofBytes_toBytes_four (o : ByteOrder) (w : BitVec 32) :
    (ofBytes o (toBytes o 4 (w.setWidth 64))).setWidth 32 = w := by
  apply BitVec.eq_of_getLsbD_eq
  intro i hi
  rw [BitVec.getLsbD_setWidth, ofBytes_toBytes o 4 (by decide), BitVec.getLsbD_setWidth]
  have hi64 : i < 64 := by omega
  simp [hi, hi64]

/-- Settles O4: the first four bytes are the instruction's word, and its word decodes to it. -/
theorem encodedBytesDecode : Obligations.EncodedBytesDecode := by
  intro cfg i rest h
  have hlen : (encodeBytes cfg i).length = 4 := length_toBytes _ _ _
  have htake : (encodeBytes cfg i ++ rest).take 4 = encodeBytes cfg i := List.take_left' hlen
  have hdrop : (encodeBytes cfg i ++ rest).drop 4 = rest := List.drop_left' hlen
  unfold decodeBytes
  rw [if_neg (by simp [hlen]), htake, hdrop, encodeBytes, ofBytes_toBytes_four, decodeInvertsEncode cfg i h]

/-! ## Rejected words (R120), one row per opcode -/

/-- Unused bits are rejected exactly where `UNUSED_BITS` is refuse and one of them is set (R114). -/
theorem rejectsUnused_true {cfg : Config} {n : Nat} :
    cfg.rejectsUnused n = true ↔ cfg.unusedBits = .refuse ∧ n ≠ 0 := by
  simp [Config.rejectsUnused]

theorem rejectsUnused_toNat {cfg : Config} {n : Nat} {v : BitVec n} :
    cfg.rejectsUnused v.toNat = true ↔ cfg.unusedBits = .refuse ∧ v ≠ 0 := by
  rw [rejectsUnused_true, ne_eq, ne_eq, BitVec.toNat_eq, BitVec.ofNat_eq_ofNat, BitVec.toNat_ofNat, Nat.zero_mod]

/-- A choice between an error and an outcome ends in an error by the condition or by the outcome. -/
theorem ite_error {p : Prop} [Decidable p] {e : Reserved} {x : Except Reserved Instr} :
    (∃ r, (if p then .error e else x) = .error r) ↔ p ∨ ∃ r, x = .error r := by
  by_cases h : p <;> simp [h]

theorem decodeAluReg_error {cfg : Config} {w : BitVec 32} :
    (∃ r, decodeAluReg cfg w = .error r) ↔ (cfg.unusedBits = .refuse ∧ w.extractLsb' 0 9 ≠ 0) ∨
      (5 ≤ (w.extractLsb' 9 3).toNat ∧ cfg.extM = false) := by
  rw [decodeAluReg_eq, ite_error, rejectsUnused_toNat, present_error, has_regForm_false]

theorem decodeAluImm_error {cfg : Config} {w : BitVec 32} :
    (∃ r, decodeAluImm cfg w = .error r) ↔ 5 ≤ (w.extractLsb' 14 3).toNat ∧ cfg.extM = false := by
  rw [decodeAluImm_eq, present_error, has_immForm_false]

/-- A count is admitted unless larger counts are refused and it is one (R211). -/
theorem admitsCount_iff {cfg : Config} {n : BitVec 14} :
    cfg.admitsCount n = true ↔ ¬ (cfg.shiftOver = .refuse ∧ cfg.shiftBound ≤ n.toNat) := by
  unfold Config.admitsCount
  cases cfg.shiftOver <;> simp

theorem decodeShift_error {cfg : Config} {w : BitVec 32} :
    (∃ r, decodeShift cfg w = .error r) ↔ 6 ≤ (w.extractLsb' 14 3).toNat ∨
      (cfg.shiftOver = .refuse ∧ cfg.shiftBound ≤ (w.extractLsb' 0 14).toNat) := by
  rw [decodeShift_eq, ite_error]
  refine or_congr_right ?_
  split
  · next hcount => exact ⟨nofun, fun h => absurd h (admitsCount_iff.mp hcount)⟩
  · next hcount => exact ⟨fun _ => not_not.mp (mt admitsCount_iff.mpr hcount), fun _ => ⟨_, rfl⟩⟩

theorem decodeStore_error {cfg : Config} {w : BitVec 32} :
    (∃ r, decodeStore cfg w = .error r) ↔ w.extractLsb' 15 2 = 3 ∧ cfg.extQ = false := by
  rw [decodeStore_eq, present_error, has_storeForm_false]

theorem decodeLoad_error {cfg : Config} {w : BitVec 32} :
    (∃ r, decodeLoad cfg w = .error r) ↔ w.extractLsb' 15 2 = 3 ∧ cfg.extQ = false := by
  rw [decodeLoad_eq, present_error, has_loadForm_false]

theorem decodeJmp_error {cfg : Config} {w : BitVec 32} :
    (∃ r, decodeJmp cfg w = .error r) ↔ cfg.unusedBits = .refuse ∧ w.extractLsb' 15 7 ≠ 0 := by
  rw [decodeJmp, ite_error, rejectsUnused_toNat]
  simp

theorem decodeFormat7_error {cfg : Config} {w : BitVec 32} {i : Instr} :
    (∃ r, decodeFormat7 cfg w i = .error r) ↔ cfg.unusedBits = .refuse ∧ w.extractLsb' 0 27 ≠ 0 := by
  rw [decodeFormat7, ite_error, rejectsUnused_toNat]
  simp

/-- A number names a status bit exactly below four (R35). -/
theorem statusBit_ofNat_some {n : Nat} : (∃ b, StatusBit.ofNat? n = some b) ↔ n < 4 := by
  constructor
  · rintro ⟨b, hb⟩
    exact StatusBit.toBits_of_ofNat hb ▸ statusBit_lt b
  · intro h
    interval_cases n <;> exact ⟨_, rfl⟩

theorem decodeStatus_error {cfg : Config} {w : BitVec 32} :
    (∃ r, decodeStatus cfg w = .error r) ↔ 2 ≤ (w.extractLsb' 22 5).toNat ∨ 4 ≤ cfg.fieldFn2 w ∨
      (cfg.unusedBits = .refuse ∧ cfg.unusedAroundFn2 w ≠ 0) := by
  rw [decodeStatus, ite_error, ← rejectsUnused_true]
  refine or_congr_right ?_
  cases hbit : StatusBit.ofNat? (cfg.fieldFn2 w) with
  | none =>
    have hfn2 : 4 ≤ cfg.fieldFn2 w := Nat.le_of_not_lt fun h => by
      obtain ⟨b, hb⟩ := statusBit_ofNat_some.mpr h
      simp [hb] at hbit
    exact ⟨fun _ => .inl hfn2, fun _ => ⟨_, rfl⟩⟩
  | some b =>
    have hfn2 : cfg.fieldFn2 w < 4 := statusBit_ofNat_some.mp ⟨b, hbit⟩
    rw [ite_error, or_iff_right (Nat.not_le_of_lt hfn2)]
    exact or_iff_left fun ⟨r, hr⟩ => by split at hr <;> cases hr

/-- An instruction of the 64-bit extension is reserved exactly without it (R120). -/
theorem ifPresent_bits64_error {cfg : Config} {i : Instr} :
    (∃ r, cfg.ifPresent .bits64 i = .error r) ↔ cfg.extQ = false := by
  unfold Config.ifPresent Config.has
  cases cfg.extQ <;> simp

/-- Settles O5: with the opcode known, R120's rows of the other opcodes fall away, and what is left is what the decoder
rejects. -/
theorem rejectedWordsAreReserved : Obligations.RejectedWordsAreReserved := by
  intro cfg w
  have hop : (w.extractLsb' 27 5).toNat = (opcodeOf w).toNat := rfl
  unfold ReservedWord decodeWord
  simp only [hop]
  generalize (opcodeOf w).toNat = op
  split
  case h_1 => rw [decodeAluReg_error]; grind
  case h_2 => rw [decodeAluImm_error]; grind
  case h_3 => rw [decodeShift_error]; grind
  case h_4 => grind
  case h_5 => rw [decodeStore_error]; grind
  case h_6 => rw [decodeLoad_error]; grind
  case h_7 => rw [decodeJmp_error]; grind
  case h_8 => rw [decodeCondJump_eq]; grind
  case h_9 => rw [decodeStatus_error, Config.fieldFn2, Config.unusedAroundFn2]; grind
  case h_10 => rw [decodeFormat7_error]; grind
  case h_11 => rw [decodeFormat7_error]; grind
  case h_12 => rw [ifPresent_bits64_error]; grind
  case h_13 => rw [ifPresent_bits64_error]; grind
  case h_14 => exact iff_of_true ⟨_, rfl⟩ (.inl (by grind))

/-! ## Words of the rules' examples (R123) -/

/-- Settles O6: each word is evaluated. -/
theorem specWordsDecode : Obligations.SpecWordsDecode := by
  unfold Obligations.SpecWordsDecode
  decide

/-- The all-zero word is that of `ADD ZR, ZR, ZR` (R123). -/
theorem encode_add_zr (cfg : Config) : encode cfg (.add .zr .zr .zr) = 0 := rfl

/-- Settles O7: ZR accepts no write, so all that is left of the addition is the advance of `pc`. -/
theorem zeroWordIsNoOperation : Obligations.ZeroWordIsNoOperation := by
  intro s
  refine ⟨?decode, ⟨s.advance, ?exec, ?frame⟩, rfl⟩
  case decode => exact encode_add_zr s.cfg ▸ decodeInvertsEncode s.cfg (.add .zr .zr .zr) rfl
  case exec =>
    rw [exec_add]
    exact retire_next (c := .zr).mpr ⟨rfl, rfl⟩
  case frame => exact ⟨rfl, fun _ => rfl, rfl, fun _ => rfl, rfl, rfl, rfl⟩

end Sys2Proof
end

section
/-! Proofs about the whole machine: its invariant (R24, R30, R60, R261) and what no step changes (R5, R37 to R41, R63).
First that each update of the state keeps the invariant, then the cases of `exec_next` and `step_next`. -/

namespace Sys2Proof.Machine

open Sys2Proof

/-! ## Each update of the state keeps the invariant -/

namespace Inv

variable {s : State}

/-- The next address is one of the address space (R31). -/
theorem nextPc_lt (s : State) : s.nextPc.toNat < 2 ^ s.cfg.aw := wrap_lt s.cfg _

theorem setPc (h : Inv s) {pc : Addr} (hpc : pc.toNat < 2 ^ s.cfg.aw) : Inv { s with pc := pc } :=
  ⟨h.cfg, h.mem, h.memBound, hpc, h.regs⟩

theorem setSr (h : Inv s) (st : Status) : Inv { s with sr := st } :=
  ⟨h.cfg, h.mem, h.memBound, h.pc, h.regs⟩

theorem advance (h : Inv s) : Inv s.advance := h.setPc (nextPc_lt s)

/-- Registers whose values are cut to the register width keep it (R24, R261). -/
theorem setRegs (h : Inv s) {rs : Regs} (hrs : ∀ r, trim s.cfg (rs.get r) = rs.get r) : Inv { s with regs := rs } :=
  ⟨h.cfg, h.mem, h.memBound, h.pc, hrs⟩

/-- A register that takes a value cut to the register width keeps it. -/
theorem regs_set (h : Inv s) (i : Reg) (v : Word) (r : Reg) :
    trim s.cfg ((s.regs.set i (trim s.cfg v)).get r) = (s.regs.set i (trim s.cfg v)).get r := by
  rw [Regs.get_set]
  split
  · exact trim_trim s.cfg v
  · exact h.regs r

theorem setReg (h : Inv s) (c : Reg) (v : Word) : Inv (s.setReg c v) := by
  refine h.setRegs fun r => ?_
  split
  · exact h.regs_set c v r
  · exact h.regs r

/-- An admitted access is one of addresses of the address space (R60), so what it writes keeps the invariant. -/
theorem writeBytes (h : Inv s) {a : Addr} {sz : Size} (hadm : Admitted s a sz) (v : Word) :
    Inv { s with mem := s.mem.writeBytes (s.accessBase a sz).toNat (toBytes s.cfg.endian sz.bytes v) } := by
  obtain ⟨-, -, -, hbacked⟩ := hadm
  refine ⟨h.cfg, Memory.wf_writeBytes h.mem _ _, fun e he => ?_, h.pc, h.regs⟩
  rcases Memory.mem_writeBytes he with ⟨hle, hlt⟩ | he
  · rw [length_toBytes] at hlt
    obtain ⟨haddr, -⟩ := hbacked (e.1 - (s.accessBase a sz).toNat) (by omega)
    rwa [Nat.add_sub_cancel' hle] at haddr
  · exact h.memBound e he

theorem beginStep (h : Inv s) : Inv s.beginStep := ⟨h.cfg, h.mem, h.memBound, h.pc, h.regs⟩

theorem trapReturn (h : Inv s) : Inv s.trapReturn := (h.setPc (wrap_lt s.cfg _)).setSr _

theorem trapEntry (h : Inv s) {t : State} {vec ret : Addr} (ht : s.trapEntry vec ret = .ok t) : Inv t := by
  obtain ⟨-, rfl⟩ := trapEntry_ok.mp ht
  exact ((h.setRegs (h.regs_set .ird _)).setSr _).setPc (vector_lt s.cfg _)

end Inv

/-- Every stored register is zero after a reset (log entry 3). -/
@[simp] theorem reset_get (r : Reg) : Regs.reset.get r = 0 := by
  cases r <;> simp [Regs.reset, Regs.get]

@[simp] theorem trim_zero (cfg : Config) : trim cfg 0 = 0 := by
  unfold trim
  split <;> rfl

theorem Inv.resetEvent {s t : State} (h : Inv s) (ht : s.resetEvent = .ok t) : Inv t := by
  obtain ⟨-, rfl⟩ := resetEvent_ok.mp ht
  have hregs : ∀ r, trim s.cfg (Regs.reset.get r) = Regs.reset.get r := fun r => by rw [reset_get, trim_zero]
  exact ((h.setRegs hregs).setSr _).setPc (vector_lt s.cfg _)

/-! ## The invariant -/

/-- Every instruction that completes keeps the invariant. -/
theorem exec_keeps_inv {i : Instr} {s t : State} (hs : Inv s) (h : exec i s = .next t) : Inv t := by
  rcases exec_next h with ⟨c, v, -, -, rfl⟩ | ⟨-, sz, c, a, imm, hadm, rfl⟩ | ⟨-, -, -, v, rfl⟩ |
    ⟨-, b, v, -, rfl⟩ | ⟨-, -, rfl⟩ | ⟨-, rfl⟩ | ⟨-, hentry⟩
  · exact (hs.setReg c v).advance
  · exact (hs.writeBytes hadm _).advance
  · exact hs.setPc (wrap_lt s.cfg v)
  · exact (hs.setSr _).advance
  · exact hs.advance
  · exact hs.trapReturn
  · exact hs.trapEntry hentry

/-- Settles O56: the reset event, trap entry and every instruction keep the invariant. -/
theorem stepKeepsInvariant : Obligations.StepKeepsInvariant := by
  intro s t hs h
  rcases step_next.mp h with ⟨-, hreset⟩ | ⟨-, -, hentry⟩ | ⟨-, -, i, -, hexec⟩
  · exact hs.beginStep.resetEvent hreset
  · exact hs.beginStep.trapEntry hentry
  · exact exec_keeps_inv hs.beginStep hexec

/-- Settles O57: the launch profile is a machine, its memory is empty, and its registers and `pc` are zero. -/
theorem resetHasInvariant : Obligations.ResetHasInvariant := by
  refine ⟨by decide, rfl, fun e he => absurd he List.not_mem_nil, by decide, fun r => ?_⟩
  change trim _ (Regs.reset.get r) = Regs.reset.get r
  rw [reset_get, trim_zero]

/-! ## What no step changes -/

/-- No instruction changes a field of the model's own (R5). -/
theorem exec_keeps_model {i : Instr} {s t : State} (h : exec i s = .next t) : SameModel s t := by
  rcases exec_next h with ⟨c, v, -, -, rfl⟩ | ⟨-, sz, c, a, imm, -, rfl⟩ | ⟨-, -, -, v, rfl⟩ |
    ⟨-, b, v, -, rfl⟩ | ⟨-, -, rfl⟩ | ⟨-, rfl⟩ | ⟨-, hentry⟩
  case inr.inr.inr.inr.inr.inr =>
    obtain ⟨-, rfl⟩ := trapEntry_ok.mp hentry
    exact ⟨rfl, rfl, rfl⟩
  all_goals exact ⟨rfl, rfl, rfl⟩

/-- Settles O58: the boundary takes the sample and moves the counter on, and what follows keeps them. -/
theorem stepKeepsModel : Obligations.StepKeepsModel := by
  intro s t h
  rcases step_next.mp h with ⟨-, hreset⟩ | ⟨-, -, hentry⟩ | ⟨-, -, i, -, hexec⟩
  · obtain ⟨-, rfl⟩ := resetEvent_ok.mp hreset
    exact ⟨rfl, rfl, rfl⟩
  · obtain ⟨-, rfl⟩ := trapEntry_ok.mp hentry
    exact ⟨rfl, rfl, rfl⟩
  · obtain ⟨hinputs, hidx, hcfg⟩ := exec_keeps_model hexec
    exact ⟨hcfg, hinputs, hidx⟩

/-- Settles O52: the cases of `exec_next`, each with the class of instructions it is about. -/
theorem noSideEffects : Obligations.NoSideEffects := by
  intro i s t h
  rcases exec_next h with ⟨c, v, hd, -, rfl⟩ | ⟨hst, sz, c, a, imm, -, rfl⟩ | ⟨-, -, hd, v, rfl⟩ |
    ⟨-, b, v, hi, rfl⟩ | ⟨-, ⟨b, hi⟩, rfl⟩ | ⟨rfl, rfl⟩ | ⟨rfl, hentry⟩
  case inl =>
    refine ⟨fun _ => rfl, fun c' hc' r hr => ?_, fun _ hnone => by simp [hd] at hnone, fun _ => rfl⟩
    cases hd.symm.trans hc'
    exact (s.setReg_get c v r).trans (if_neg fun hc => hr hc.1)
  case inr.inl =>
    exact ⟨fun _ => rfl, fun _ _ _ _ => rfl, fun _ _ => rfl, fun hns => by simp [hst] at hns⟩
  case inr.inr.inl => exact ⟨fun _ => rfl, fun _ _ _ _ => rfl, fun _ _ => rfl, fun _ => rfl⟩
  case inr.inr.inr.inl =>
    have hsys : isSystem i = true := by rcases hi with rfl | rfl <;> rfl
    exact ⟨fun hns => by simp [hsys] at hns, fun _ _ _ _ => rfl, fun _ _ => rfl, fun _ => rfl⟩
  case inr.inr.inr.inr.inl => exact ⟨fun _ => rfl, fun _ _ _ _ => rfl, fun _ _ => rfl, fun _ => rfl⟩
  case inr.inr.inr.inr.inr.inl => exact ⟨nofun, fun _ _ _ _ => rfl, fun _ _ => rfl, fun _ => rfl⟩
  case inr.inr.inr.inr.inr.inr =>
    obtain ⟨-, rfl⟩ := trapEntry_ok.mp hentry
    exact ⟨nofun, nofun, nofun, fun _ => rfl⟩

/-! ## The user mode (R37, R38, R39, R77, R234, R325) -/

/-- With K = 0 an instruction changes neither I nor P nor Q nor PR. -/
theorem exec_user {i : Instr} {s t : State} (hk : s.sr.k = false) (h : exec i s = .next t) :
    t.sr.i = s.sr.i ∧ t.sr.p = s.sr.p ∧ t.sr.q = s.sr.q ∧ t.regs.get .pr = s.regs.get .pr := by
  rcases exec_next h with ⟨c, v, -, -, rfl⟩ | ⟨-, sz, c, a, imm, -, rfl⟩ | ⟨-, -, -, v, rfl⟩ |
    ⟨hk', -⟩ | ⟨-, -, rfl⟩ | ⟨-, rfl⟩ | ⟨-, hentry⟩
  case inl =>
    refine ⟨rfl, rfl, rfl, (s.setReg_get c v .pr).trans (if_neg ?_)⟩
    rintro ⟨rfl, hacc⟩
    exact Bool.false_ne_true (hk.symm.trans hacc)
  case inr.inr.inr.inl => exact absurd (hk.symm.trans hk') Bool.false_ne_true
  case inr.inr.inr.inr.inr.inr =>
    obtain ⟨-, rfl⟩ := trapEntry_ok.mp hentry
    exact ⟨rfl, rfl, rfl, rfl⟩
  all_goals exact ⟨rfl, rfl, rfl, rfl⟩

/-- Settles O53: trap entry writes K and IRD only, and an instruction in user mode neither the other bits nor PR. -/
theorem statusAndPrNeedKernel : Obligations.StatusAndPrNeedKernel := by
  intro s t h hreset hk
  rcases step_next.mp h with ⟨hreset', -⟩ | ⟨-, -, hentry⟩ | ⟨-, -, i, -, hexec⟩
  · exact absurd (hreset.symm.trans hreset') Bool.false_ne_true
  · obtain ⟨-, rfl⟩ := trapEntry_ok.mp hentry
    exact ⟨rfl, rfl, rfl, rfl⟩
  · exact exec_user (s := s.beginStep) hk hexec

/-- Settles O28: PR accepts no write with K = 0, and is one of the registers whose write `PRIV_VIOLATION` refuses. -/
theorem userWriteOfPr : Obligations.UserWriteOfPr := by
  intro i s t hd hk h
  obtain ⟨v, hr, rfl⟩ := exec_next_dest hd h
  have hacc : s.accepts .pr = false := hk
  refine ⟨?_, by rw [State.advance_regs, State.setReg_regs, hacc, if_neg Bool.false_ne_true]⟩
  cases hp : s.cfg.privViolation with
  | ignore => rfl
  | refuse => simp [State.refusesWrite, hk, hp] at hr

/-- In user mode, where `$vm` is refused, an access that is admitted is made from an address above it (R77). -/
theorem admitted_above_vm {s : State} {a : Addr} {sz : Size} (hadm : Admitted s a sz) (hk : s.sr.k = false)
    (hvm : s.cfg.vmUserAccess = .refuse) : 0xFFFFF < (s.accessBase a sz).toNat := by
  obtain ⟨-, huser, -, -⟩ := hadm
  simpa [hk, hvm] using huser

/-- Settles O54: only a store writes memory, and in user mode an admitted one is above `$vm`. -/
theorem userCannotWriteVm : Obligations.UserCannotWriteVm := by
  intro s t h hk hvm x hx
  rcases step_next.mp h with ⟨-, hreset⟩ | ⟨-, -, hentry⟩ | ⟨-, -, i, -, hexec⟩
  · obtain ⟨-, rfl⟩ := resetEvent_ok.mp hreset
    rfl
  · obtain ⟨-, rfl⟩ := trapEntry_ok.mp hentry
    rfl
  · cases hst : isStore i with
    | true =>
      obtain ⟨sz, c, a, imm, hadm, rfl⟩ := exec_next_store hst hexec
      have habove := admitted_above_vm hadm hk hvm
      exact Memory.read_writeBytes_outside _ _ _ _ (.inl (by omega))
    | false =>
      obtain ⟨-, -, -, hmem⟩ := noSideEffects i s.beginStep t hexec
      rw [hmem hst, State.beginStep_mem]

/-! ## Registers (R20, R25, R26, R261) -/

/-- The value of a word cut to the register width. -/
theorem trim_toNat (cfg : Config) (v : Word) : (trim cfg v).toNat = v.toNat % 2 ^ (if cfg.extQ then 64 else 32) := by
  unfold trim
  cases cfg.extQ
  · simp only [Bool.false_eq_true, if_false, BitVec.toNat_setWidth]
    omega
  · exact (Nat.mod_eq_of_lt v.isLt).symm

/-- A machine without the 64-bit extension has 32-bit addresses (R5, R62). -/
theorem aw_of_wf {cfg : Config} (hwf : cfg.wf = true) (hq : cfg.extQ = false) : cfg.aw = 32 := by
  unfold Config.wf at hwf
  unfold Config.aw
  simp only [hq, Bool.false_or, Bool.and_eq_true, beq_iff_eq] at hwf
  simp [hwf.1]

/-- A register holds every address of the address space. -/
theorem trim_address {cfg : Config} (hwf : cfg.wf = true) {a : Addr} (ha : a.toNat < 2 ^ cfg.aw) :
    (trim cfg (a.setWidth 64)).toNat = a.toNat := by
  have ha64 : (a.setWidth 64).toNat = a.toNat := BitVec.toNat_setWidth_of_le (by decide)
  rw [trim_toNat, ha64]
  cases hq : cfg.extQ
  · rw [aw_of_wf hwf hq] at ha
    exact Nat.mod_eq_of_lt ha
  · exact Nat.mod_eq_of_lt (by simp only [if_true]; omega)

/-- The next address is four on, modulo the size of the address space (R31). -/
theorem nextPc_toNat (s : State) : s.nextPc.toNat = (s.pc.toNat + 4) % 2 ^ s.cfg.aw := by
  rw [State.nextPc, wrap_toNat]
  congr 1
  bv_omega

/-- The status bits stand at their numbers (R25, R35). -/
theorem statusWord_toNat (st : Status) :
    (statusWord st).toNat = st.k.toNat + 2 * st.i.toNat + 4 * st.p.toNat + 8 * st.q.toNat := by
  obtain ⟨k, i, p, q⟩ := st
  revert k i p q
  decide

/-- A register that accepts writes is a stored one, and a read of it is its stored value (R25). -/
theorem readReg_of_accepts {s t : State} {r : Reg} (h : s.accepts r = true) :
    t.readReg r = trim t.cfg (t.regs.get r) := by
  obtain ⟨hzr, hsr, hpc⟩ := s.accepts_storage r h
  cases r <;> first | rfl | contradiction

/-- A register that accepts the write reads the value, cut to the register width (R26). -/
theorem readReg_setReg_same {s : State} {r : Reg} (h : s.accepts r = true) (v : Word) :
    (s.setReg r v).readReg r = trim s.cfg v := by
  rw [readReg_of_accepts h, State.setReg_get, if_pos ⟨rfl, h⟩, State.setReg_cfg, trim_trim]

/-- A register write that is not accepted does nothing (R26). -/
theorem setReg_of_not_accepts {s : State} {r : Reg} (h : s.accepts r = false) (v : Word) : s.setReg r v = s := by
  unfold State.setReg
  rw [h]
  rfl

/-- What a register reads depends on its stored value, the status bits, `pc` and the implementation (R25). -/
theorem readReg_congr {s t : State} {r : Reg} (hregs : t.regs.get r = s.regs.get r) (hpc : t.pc = s.pc)
    (hsr : t.sr = s.sr) (hcfg : t.cfg = s.cfg) : t.readReg r = s.readReg r := by
  cases r <;> simp only [State.readReg, State.pcWindow, State.nextPc, hregs, hpc, hsr, hcfg]

/-- A register write leaves every other register (R26). -/
theorem readReg_setReg_other (s : State) {r x : Reg} (h : x ≠ r) (v : Word) :
    (s.setReg r v).readReg x = s.readReg x :=
  readReg_congr ((s.setReg_get r v x).trans (if_neg fun hx => h hx.1)) rfl rfl rfl

/-- The registers that accept no write (R26). -/
theorem accepts_false {s : State} {r : Reg} :
    s.accepts r = false ↔ r = .zr ∨ r = .sr ∨ r = .pc ∨ (r = .pr ∧ s.sr.k = false) := by
  cases r <;> simp [State.accepts]

/-- Settles O59: the windows of the invariant's addresses, and the rules of the register write. -/
theorem registerReadAndWrite : Obligations.RegisterReadAndWrite := by
  intro s r v hs
  refine ⟨rfl, statusWord_toNat s.sr, fun hoff => ?pc, fun hoff => ?next, fun hacc => ?same,
    fun hacc => setReg_of_not_accepts hacc v, accepts_false, fun x hx => readReg_setReg_other s hx v⟩
  case pc =>
    change s.pcWindow.toNat = _
    rw [State.pcWindow, hoff]
    exact trim_address hs.cfg hs.pc
  case next =>
    change s.pcWindow.toNat = _
    rw [State.pcWindow, hoff, ← nextPc_toNat]
    exact trim_address hs.cfg (Inv.nextPc_lt s)
  case same => rw [readReg_setReg_same hacc, trim_toNat]

end Sys2Proof.Machine
end

section
/-! Proofs for `20_memory.md` R77: in user mode, where `$vm` is refused, no step can depend on its contents. Two states
that differ in the contents of `$vm` only pass the same checks and read the same bytes above it, so every shared
operation has outcomes that agree (`AgreesAboveVm`), and so has every instruction and every step. -/

namespace Sys2Proof.Machine

open Sys2Proof

/-- The same machine with another memory. -/
def State.withMem (s : State) (m : Memory) : State := { s with mem := m }

/-- Two memories read the same above `$vm`. -/
def SameAboveVm (m m' : Memory) : Prop := ∀ a : Nat, 0xFFFFF < a → m'.read a = m.read a

/-- Two outcomes are the same stop, or next states that differ in memory only, and there only inside `$vm`. -/
def AgreesAboveVm (o o' : Host.Outcome State Fault Refusal) : Prop :=
  match o with
  | .next t => ∃ m', o' = .next (t.withMem m') ∧ SameAboveVm t.mem m'
  | .fault f => o' = .fault f
  | .refused r => o' = .refused r

theorem agrees_next {t t' : State} {m' : Memory} (h : t' = t.withMem m') (hm : SameAboveVm t.mem m') :
    AgreesAboveVm (.next t) (.next t') :=
  ⟨m', by rw [h], hm⟩

/-- A stop that two machines share. -/
theorem agrees_stop (e : Stop) : AgreesAboveVm (outcomeOf (.error e)) (outcomeOf (.error e)) := by
  cases e <;> rfl

/-- Bytes from an address above `$vm` up are the same. -/
theorem SameAboveVm.readBytes {m m' : Memory} (h : SameAboveVm m m') {a : Nat} (ha : 0xFFFFF < a) (n : Nat) :
    m'.readBytes a n = m.readBytes a n :=
  Memory.readBytes_congr fun k _ => h (a + k) (by omega)

/-- What is written to both memories reads the same in both. -/
theorem SameAboveVm.writeBytes {m m' : Memory} (h : SameAboveVm m m') (a : Nat) (bs : List Byte) :
    SameAboveVm (m.writeBytes a bs) (m'.writeBytes a bs) := by
  intro x hx
  rw [Memory.read_writeBytes, Memory.read_writeBytes, h x hx]

variable {s : State} {m : Memory}

/-! ## Nothing but memory depends on memory -/

@[simp] theorem withMem_cfg : (s.withMem m).cfg = s.cfg := rfl
@[simp] theorem withMem_mem : (s.withMem m).mem = m := rfl
@[simp] theorem withMem_readReg (r : Reg) : (s.withMem m).readReg r = s.readReg r := by cases r <;> rfl
@[simp] theorem withMem_ea (a : Reg) (imm : BitVec 15) : (s.withMem m).ea a imm = s.ea a imm := by
  rw [State.ea, withMem_readReg]
  rfl
@[simp] theorem withMem_accessStop (a : Addr) (sz : Size) : (s.withMem m).accessStop a sz = s.accessStop a sz := rfl
@[simp] theorem withMem_accessBase (a : Addr) (sz : Size) : (s.withMem m).accessBase a sz = s.accessBase a sz := rfl
@[simp] theorem withMem_refusesWrite (r : Reg) : (s.withMem m).refusesWrite r = s.refusesWrite r := rfl

/-! ## Accesses of memory -/

/-- A read that, if it is admitted, is made from above `$vm` gives the same. -/
theorem memRead_withMem (hm : SameAboveVm s.mem m) {a : Addr} {sz : Size}
    (habove : Admitted s a sz → 0xFFFFF < (s.accessBase a sz).toNat) :
    (s.withMem m).memRead a sz = s.memRead a sz := by
  unfold State.memRead
  rw [withMem_accessStop, withMem_accessBase, withMem_cfg, withMem_mem]
  cases hstop : s.accessStop a sz with
  | some e => rfl
  | none => rw [hm.readBytes (habove (accessStop_none.mp hstop))]

/-- The vectors of an implementation are aligned and above `$vm` (R75, R76). -/
theorem vector_of_wf {cfg : Config} (hwf : cfg.wf = true) {vec : Addr}
    (hvec : vec ∈ [cfg.rstVec, cfg.sIntVec, cfg.hIntVec]) :
    vec.toNat % 8 = 0 ∧ vec.toNat < 2 ^ cfg.aw ∧ 0xFFFFF < vec.toNat := by
  unfold Config.wf at hwf
  obtain ⟨-, hall⟩ := (Bool.and_eq_true _ _).mp hwf
  simpa [and_assoc] using List.all_eq_true.mp hall vec hvec

/-- A load of `pc` from a vector has the same outcome (R76). -/
theorem loadPc_agrees (hm : SameAboveVm s.mem m) (hwf : s.cfg.wf = true) {vec : Addr}
    (hvec : vec ∈ [s.cfg.rstVec, s.cfg.sIntVec, s.cfg.hIntVec]) :
    AgreesAboveVm (outcomeOf (s.loadPc vec)) (outcomeOf ((s.withMem m).loadPc vec)) := by
  obtain ⟨halign, -, habove⟩ := vector_of_wf hwf hvec
  have hread := memRead_withMem hm (a := vec) (sz := .qword) fun _ => by rwa [accessBase_aligned halign]
  unfold State.loadPc
  rw [hread]
  cases s.memRead vec .qword with
  | error e => exact agrees_stop e
  | ok v => exact agrees_next rfl hm

/-! ## Instructions -/

theorem retire_agrees (hm : SameAboveVm s.mem m) (c : Reg) (v : Word) :
    AgreesAboveVm (s.retire c v) ((s.withMem m).retire c v) := by
  unfold State.retire
  rw [withMem_refusesWrite]
  cases s.refusesWrite c
  · exact agrees_next rfl hm
  · rfl

theorem shiftInstr_agrees (hm : SameAboveVm s.mem m) (op : ShiftOp) (c a : Reg) (n : BitVec 14) :
    AgreesAboveVm (s.shiftInstr op c a n) ((s.withMem m).shiftInstr op c a n) := by
  have hwidth : (s.withMem m).shiftWidth = s.shiftWidth := rfl
  unfold State.shiftInstr
  rw [hwidth, withMem_cfg, withMem_readReg]
  split
  · exact retire_agrees hm c _
  · cases s.cfg.shiftOver
    · exact agrees_stop (s.reserved .shiftCount)
    · exact retire_agrees hm c _

theorem condJump_agrees (hm : SameAboveVm s.mem m) (holds : Bool) (c : Reg) (imm : BitVec 9) :
    AgreesAboveVm (s.condJump holds c imm) ((s.withMem m).condJump holds c imm) := by
  cases holds
  · exact agrees_next rfl hm
  · exact agrees_next rfl hm

theorem statusOp_agrees (hm : SameAboveVm s.mem m) (b : StatusBit) (v : Bool) :
    AgreesAboveVm (s.statusOp b v) ((s.withMem m).statusOp b v) := by
  have hsr : (s.withMem m).sr = s.sr := rfl
  unfold State.statusOp
  rw [hsr, withMem_cfg]
  split
  · exact agrees_next rfl hm
  · split
    · rfl
    · exact agrees_next rfl hm

/-- An instruction the mode may turn away (`LDST_Q_GATED`, R272), where its operation agrees. -/
theorem gated_agrees {o o' : Host.Outcome State Fault Refusal} (h : AgreesAboveVm o o') :
    AgreesAboveVm (if s.quadGated then outcomeOf (.error (s.reserved .needsQ)) else o)
      (if (s.withMem m).quadGated then outcomeOf (.error ((s.withMem m).reserved .needsQ)) else o') := by
  have hgate : (s.withMem m).quadGated = s.quadGated := rfl
  have hstop : (s.withMem m).reserved .needsQ = s.reserved .needsQ := rfl
  rw [hgate, hstop]
  split
  · exact agrees_stop _
  · exact h

theorem storeOp_agrees (hm : SameAboveVm s.mem m) (sz : Size) (c a : Reg) (imm : BitVec 15) :
    AgreesAboveVm (s.storeOp sz c a imm) ((s.withMem m).storeOp sz c a imm) := by
  unfold State.storeOp State.memWrite
  rw [withMem_ea, withMem_accessStop, withMem_accessBase, withMem_cfg, withMem_readReg, withMem_mem]
  cases s.accessStop (s.ea a imm) sz with
  | some e => exact agrees_stop e
  | none => exact agrees_next rfl (hm.writeBytes _ _)

section User
variable (hm : SameAboveVm s.mem m) (hk : s.sr.k = false) (hvm : s.cfg.vmUserAccess = .refuse)
include hm hk hvm

theorem loadOp_agrees (sz : Size) (c a : Reg) (imm : BitVec 15) :
    AgreesAboveVm (s.loadOp sz c a imm) ((s.withMem m).loadOp sz c a imm) := by
  have hread := memRead_withMem hm (a := s.ea a imm) (sz := sz) fun hadm => admitted_above_vm hadm hk hvm
  unfold State.loadOp
  rw [withMem_ea, hread, withMem_cfg, withMem_readReg]
  cases s.memRead (s.ea a imm) sz with
  | error e => exact agrees_stop e
  | ok v => exact retire_agrees hm c _

/-- Every instruction has outcomes that agree: it writes a register from registers, or jumps, or is one of the
operations above. -/
theorem exec_agrees (hwf : s.cfg.wf = true) (i : Instr) : AgreesAboveVm (exec i s) (exec i (s.withMem m)) := by
  cases i
  case stb | stw | std => exact storeOp_agrees hm _ _ _ _
  case stq => exact gated_agrees (storeOp_agrees hm _ _ _ _)
  case ldb | ldw | ldd => exact loadOp_agrees hm hk hvm _ _ _ _
  case ldq => exact gated_agrees (loadOp_agrees hm hk hvm _ _ _ _)
  case mvuHh | mvuHl => exact gated_agrees (retire_agrees hm _ _)
  case shr | asr | shl | asl | ror | rol => exact shiftInstr_agrees hm _ _ _ _
  case jmp | urt => exact agrees_next rfl hm
  case jz | jc | js | jv | jnz | jnc | jns | jnv => exact condJump_agrees hm _ _ _
  case csb | ssb => exact statusOp_agrees hm _ _
  case syscal =>
    exact loadPc_agrees (s := s.enterKernel s.nextPc) hm hwf (by simp)
  all_goals exact retire_agrees hm _ _

/-- The instruction at `pc` is the same, since it is fetched from above `$vm`. -/
theorem nextInstr_withMem : (s.withMem m).nextInstr = s.nextInstr := by
  have hread := memRead_withMem hm (a := s.pc) (sz := .dword) fun hadm => admitted_above_vm hadm hk hvm
  have hpc : (s.withMem m).pc = s.pc := rfl
  have halign : (s.withMem m).refusesMisaligned s.pc .dword = s.refusesMisaligned s.pc .dword := rfl
  unfold State.nextInstr State.fetch
  rw [hpc, halign, hread]
  rfl

end User

/-- Settles O55: the reset event and trap entry read a vector, and the instruction at `pc` is the same in both machines;
the rest is what these do. -/
theorem userCannotReadVm : Obligations.UserCannotReadVm := by
  intro s m hwf hk hvm hm
  have hm : SameAboveVm s.mem m := hm
  have key : AgreesAboveVm (step s) (step (s.withMem m)) := by
    have hsample : (s.withMem m).sample = s.sample := rfl
    have hirq : (s.withMem m).takesInterrupt s.sample.irq = s.takesInterrupt s.sample.irq := rfl
    have hbegin : (s.withMem m).beginStep = s.beginStep.withMem m := rfl
    unfold step
    rw [hsample, hirq, hbegin, nextInstr_withMem (s := s.beginStep) hm hk hvm]
    split
    · exact loadPc_agrees (s := s.beginStep.clearForReset) hm hwf (by simp)
    · split
      · exact loadPc_agrees (s := s.beginStep.enterKernel s.pc) hm hwf (by simp)
      · cases s.beginStep.nextInstr with
        | error e => exact agrees_stop e
        | ok i => exact exec_agrees (s := s.beginStep) hm hk hvm hwf i
  cases hstep : step s with
  | next t => exact hstep ▸ key
  | fault f => exact hstep ▸ key
  | refused r => exact hstep ▸ key

end Sys2Proof.Machine
end

section
/-! Proofs for `20_memory.md`: the canonical form (R60), byte order (R64), the stops of an access (R66, R67, R78), the
addresses the machine computes (R31, R65, R170) and the virtual-memory table (R81 to R83). -/

namespace Sys2Proof.Machine

open Sys2Proof

/-! ## The canonical form -/

/-- An address below all entries is unlisted. -/
theorem Memory.read_of_lt {m : Memory} {a : Nat} (h : ∀ e ∈ m, a < e.1) : m.read a = Memory.unlisted := by
  induction m with
  | nil => rfl
  | cons e m ih =>
    obtain ⟨k, b⟩ := e
    have hk : a < k := h (k, b) (by simp)
    rw [Memory.read, if_neg (by omega)]
    exact ih fun e he => h e (by simp [he])

/-- The first entry of a memory reads as its byte. -/
theorem Memory.read_head (a : Nat) (b : Byte) (m : Memory) : Memory.read ((a, b) :: m) a = b := if_pos rfl

theorem Memory.read_tail {a k : Nat} (h : k ≠ a) (b : Byte) (m : Memory) :
    Memory.read ((a, b) :: m) k = m.read k := if_neg h

/-- A memory in canonical form whose first address is below another's reads differently there. -/
theorem Memory.read_head_ne {a a' : Nat} {b b' : Byte} {m m' : Memory} (h : Memory.wf ((a, b) :: m) = true)
    (h' : Memory.wf ((a', b') :: m') = true) (hlt : a < a') :
    Memory.read ((a, b) :: m) a ≠ Memory.read ((a', b') :: m') a := by
  obtain ⟨hb, -, -⟩ := Memory.wf_cons.mp h
  obtain ⟨-, hlt', -⟩ := Memory.wf_cons.mp h'
  rw [Memory.read_head, Memory.read_tail (by omega), Memory.read_of_lt fun e he => hlt.trans (hlt' e he)]
  exact hb

/-- Settles O12, by induction on the entries: the first addresses are the same, since the lower of two would read as a
listed byte in one memory only; and so are their bytes, and what the rest reads. -/
theorem canonicalMemoriesEqual : Obligations.CanonicalMemoriesEqual := by
  intro m
  induction m with
  | nil =>
    intro m' _ h' hread
    cases m' with
    | nil => rfl
    | cons e' m' =>
      obtain ⟨a', b'⟩ := e'
      have hb' : Memory.unlisted = b' := (hread a').trans (Memory.read_head a' b' m')
      exact absurd hb'.symm (Memory.wf_cons.mp h').1
  | cons e m ih =>
    obtain ⟨a, b⟩ := e
    intro m' h h' hread
    obtain ⟨hb, hlt, hm⟩ := Memory.wf_cons.mp h
    cases m' with
    | nil => exact absurd ((Memory.read_head a b m).symm.trans (hread a)) hb
    | cons e' m' =>
      obtain ⟨a', b'⟩ := e'
      obtain ⟨hb', hlt', hm'⟩ := Memory.wf_cons.mp h'
      rcases Nat.lt_trichotomy a a' with hlow | rfl | hhigh
      · exact absurd (hread a) (Memory.read_head_ne h h' hlow)
      · have hbytes : b = b' := by simpa only [Memory.read_head] using hread a
        have htail : ∀ k, Memory.read m k = Memory.read m' k := fun k => by
          by_cases hk : k = a
          · rw [hk, Memory.read_of_lt hlt, Memory.read_of_lt hlt']
          · simpa only [Memory.read_tail hk] using hread k
        rw [hbytes, ih m' hm hm' htail]
      · exact absurd (hread a').symm (Memory.read_head_ne h' h hhigh)

/-! ## Byte order (R64) -/

/-- The byte `k` above the address of a stored value, in either order. -/
theorem getElem_toBytes (o : ByteOrder) (n : Nat) (v : Word) {k : Nat} (h : k < (toBytes o n v).length) :
    (toBytes o n v)[k] = byteAt o n v k := by
  rw [length_toBytes] at h
  cases o with
  | little => exact getElem_bytesLE n v k (by simpa using h)
  | big =>
    simp only [toBytes, List.getElem_reverse, getElem_bytesLE, length_bytesLE]
    rfl

/-- The bytes of a stored value stand in memory one after the other. -/
theorem read_writeBytes_toBytes (m : Memory) (o : ByteOrder) (a n : Nat) (v : Word) {k : Nat} (hk : k < n) :
    (m.writeBytes a (toBytes o n v)).read (a + k) = byteAt o n v k := by
  have hlen : k < (toBytes o n v).length := by rwa [length_toBytes]
  rw [Memory.read_writeBytes, if_pos (Nat.le_add_right a k), Nat.add_sub_cancel_left,
    List.getElem?_eq_getElem hlen, getElem_toBytes, Option.getD_some]

/-- And every other byte is as it was. -/
theorem read_writeBytes_toBytes_outside (m : Memory) (o : ByteOrder) (a n : Nat) (v : Word) {x : Nat}
    (hx : x < a ∨ a + n ≤ x) : (m.writeBytes a (toBytes o n v)).read x = m.read x :=
  Memory.read_writeBytes_outside m a _ x (by rwa [length_toBytes])

/-- Reading a stored value back reads its bytes. -/
theorem readBytes_writeBytes_toBytes (m : Memory) (o : ByteOrder) (a n : Nat) (v : Word) :
    (m.writeBytes a (toBytes o n v)).readBytes a n = toBytes o n v := by
  have h := Memory.readBytes_writeBytes m a (toBytes o n v)
  rwa [length_toBytes] at h

/-- Settles O13: an admitted write puts the bytes of its value in memory. -/
theorem writeStoresItsBytes : Obligations.WriteStoresItsBytes := fun s _ _ v hadm =>
  ⟨_, memWrite_ok.mpr ⟨hadm, rfl⟩, fun _ hk => read_writeBytes_toBytes s.mem s.cfg.endian _ _ v hk,
    fun _ hx => read_writeBytes_toBytes_outside s.mem s.cfg.endian _ _ v hx⟩

/-- An access has at most eight bytes (R63). -/
theorem size_bytes_le (sz : Size) : sz.bytes ≤ 8 := by
  cases sz <;> decide

/-- Settles O14: the bytes read are the bytes written, and they make the low bytes of the value. -/
theorem readAfterWrite : Obligations.ReadAfterWrite := by
  intro s t a sz v h
  obtain ⟨hadm, rfl⟩ := memWrite_ok.mp h
  refine ⟨_, memRead_ok.mpr ⟨hadm, rfl⟩, fun i _ => ?_⟩
  change (ofBytes s.cfg.endian ((s.mem.writeBytes (s.accessBase a sz).toNat _).readBytes (s.accessBase a sz).toNat
    sz.bytes)).getLsbD i = _
  rw [readBytes_writeBytes_toBytes]
  exact ofBytes_toBytes s.cfg.endian sz.bytes (size_bytes_le sz) v i

/-- The lowest bit of a stored `n`-byte value that `l` bytes at offset `j` hold. -/
def sliceBit (o : ByteOrder) (n j l : Nat) : Nat :=
  match o with
  | .little => 8 * j
  | .big => 8 * (n - j - l)

/-- The value of `l` bytes that are consecutive bytes of `v` is a slice of it. -/
theorem wordLE_slice {bs : List Byte} {l lo : Nat} {v : Word} (hlen : bs.length = l)
    (h : ∀ q < l, bs[q]? = some (v.extractLsb' (lo + 8 * q) 8)) :
    wordLE bs = (v.extractLsb' lo (8 * l)).setWidth 64 := by
  apply BitVec.eq_of_getLsbD_eq
  intro i hi
  rw [getLsbD_wordLE, BitVec.getLsbD_setWidth, BitVec.getLsbD_extractLsb']
  by_cases hil : i < 8 * l
  · have hbit : lo + 8 * (i / 8) + i % 8 = lo + i := by omega
    have hmod : i % 8 < 8 := Nat.mod_lt _ (by decide)
    rw [h (i / 8) (by omega), Option.getD_some, BitVec.getLsbD_extractLsb', hbit]
    simp [hi, hil, hmod]
  · rw [List.getElem?_eq_none (by omega)]
    simp [hil]

/-- The bytes inside a stored value, read in the order they were stored in, are a slice of it. -/
theorem ofBytes_slice (m : Memory) (o : ByteOrder) (a n : Nat) (v : Word) {j l : Nat} (h : j + l ≤ n) :
    ofBytes o ((m.writeBytes a (toBytes o n v)).readBytes (a + j) l) =
      (v.extractLsb' (sliceBit o n j l) (8 * l)).setWidth 64 := by
  have hbyte : ∀ q < l, ((m.writeBytes a (toBytes o n v)).readBytes (a + j) l)[q]? = some (byteAt o n v (j + q)) := by
    intro q hq
    rw [List.getElem?_eq_getElem (by simpa using hq), Memory.getElem_readBytes, Nat.add_assoc,
      read_writeBytes_toBytes m o a n v (by omega)]
  cases o with
  | little =>
    refine wordLE_slice (Memory.length_readBytes _ _ _) fun q hq => ?_
    rw [hbyte q hq, byteAt, sliceBit, Nat.mul_add]
  | big =>
    refine wordLE_slice ((List.length_reverse).trans (Memory.length_readBytes _ _ _)) fun q hq => ?_
    rw [List.getElem?_reverse (by simpa using hq), Memory.length_readBytes, hbyte _ (by omega), byteAt, sliceBit]
    congr 2
    omega

/-- An aligned access inside an admitted one is admitted. -/
theorem admitted_inside {s : State} {a b : Addr} {sz small : Size} {j : Nat} (hadm : Admitted s a sz)
    (hb : b.toNat = (s.accessBase a sz).toNat + j) (hj : j + small.bytes ≤ sz.bytes)
    (halign : b.toNat % small.bytes = 0) : Admitted s b small := by
  obtain ⟨-, huser, htrans, hbacked⟩ := hadm
  rw [Admitted, accessBase_aligned halign, hb]
  refine ⟨.inl (hb ▸ halign), ?_, htrans, fun k hk => ?_⟩
  · exact huser.imp_right (Or.imp_right fun h => by omega)
  · rw [Nat.add_assoc]
    exact hbacked (j + k) (by omega)

/-- An address inside an access does not run over the end of the address space. -/
theorem address_inside {s : State} {a : Addr} {sz : Size} {j : Nat} (hadm : Admitted s a sz) (hj : j < sz.bytes) :
    (s.accessBase a sz + BitVec.ofNat 36 j).toNat = (s.accessBase a sz).toNat + j := by
  obtain ⟨-, -, -, hbacked⟩ := hadm
  obtain ⟨hlt, -⟩ := hbacked j hj
  have haw : 2 ^ s.cfg.aw ≤ 2 ^ 36 := Nat.pow_le_pow_right (by decide) (aw_le s.cfg)
  rw [BitVec.toNat_add, BitVec.toNat_ofNat, Nat.add_mod_mod, Nat.mod_eq_of_lt (by omega)]

/-- After a write, an aligned read inside it gives a slice of the value. -/
theorem memRead_inside {s t : State} {a : Addr} {sz small : Size} {v : Word} (h : s.memWrite a sz v = .ok t) {j : Nat}
    (hj : j + small.bytes ≤ sz.bytes) (hsmall : 0 < small.bytes)
    (halign : ((s.accessBase a sz).toNat + j) % small.bytes = 0) :
    t.memRead (s.accessBase a sz + BitVec.ofNat 36 j) small =
      .ok ((v.extractLsb' (sliceBit s.cfg.endian sz.bytes j small.bytes) (8 * small.bytes)).setWidth 64) := by
  obtain ⟨hadm, rfl⟩ := memWrite_ok.mp h
  have hb := address_inside hadm (by omega : j < sz.bytes)
  rw [← hb] at halign
  refine memRead_ok.mpr ⟨admitted_inside hadm hb hj halign, ?_⟩
  rw [accessBase_aligned halign, hb, ofBytes_slice _ _ _ _ _ hj]

/-- Settles O15: a byte is aligned everywhere, and a word inside the double-word where this begins at an even address. -/
theorem mixedWidthReads : Obligations.MixedWidthReads := by
  intro s t a v h
  have byte : ∀ k < 4, t.memRead (s.accessBase a .dword + BitVec.ofNat 36 k) .byte =
      .ok ((v.extractLsb' (sliceBit s.cfg.endian 4 k 1) 8).setWidth 64) := fun k hk =>
    memRead_inside h (small := .byte) hk (by decide) (Nat.mod_one _)
  have word : (s.accessBase a .dword).toNat % 2 = 0 → ∀ k < 2,
      t.memRead (s.accessBase a .dword + BitVec.ofNat 36 (2 * k)) .word =
        .ok ((v.extractLsb' (sliceBit s.cfg.endian 4 (2 * k) 2) 16).setWidth 64) := fun heven k hk =>
    memRead_inside h (small := .word) (by simp only [Size.bytes]; omega) (by decide) (by simp only [Size.bytes]; omega)
  refine ⟨fun ho => ⟨fun k hk => ?_, fun heven k hk => ?_⟩, fun ho => ⟨fun k hk => ?_, fun heven k hk => ?_⟩⟩
  · rw [byte k hk, ho, sliceBit]
  · rw [word heven k hk, ho, sliceBit, ← Nat.mul_assoc]
  · have hbit : 4 - k - 1 = 3 - k := by omega
    rw [byte k hk, ho, sliceBit, hbit]
  · have hbit : 8 * (4 - 2 * k - 2) = 16 * (1 - k) := by omega
    rw [word heven k hk, ho, sliceBit, hbit]

/-! ## The stops of an access (R66, R67, R78) -/

/-- An access is admitted exactly when none of the four conditions stops it. -/
theorem admitted_iff {s : State} {a : Addr} {sz : Size} :
    Admitted s a sz ↔
      ¬ (a.toNat % sz.bytes ≠ 0 ∧ s.cfg.misaligned = .refuse) ∧
      ¬ (s.sr.k = false ∧ s.cfg.vmUserAccess = .refuse ∧ (s.accessBase a sz).toNat ≤ 0xFFFFF) ∧
      ¬ (s.sr.p = true ∧ s.cfg.extP = true) ∧
      ¬ ∃ k < sz.bytes, ¬ Backed s.cfg ((s.accessBase a sz).toNat + k) := by
  have hvm : s.cfg.vmUserAccess = .ignore ↔ s.cfg.vmUserAccess ≠ .refuse := by
    cases s.cfg.vmUserAccess <;> simp
  unfold Admitted
  rw [hvm]
  grind

/-- A read and a write that are not admitted stop, and alike. -/
theorem access_stops {s : State} {a : Addr} {sz : Size} (h : ¬ Admitted s a sz) (v : Word) :
    s.memRead a sz = .error (firstStop s a sz) ∧ s.memWrite a sz v = .error (firstStop s a sz) := by
  unfold State.memRead State.memWrite
  rw [accessStop_some h]
  exact ⟨rfl, rfl⟩

/-- Settles O16: each condition is one under which the access is not admitted, and then `firstStop` names its stop. -/
theorem accessRefusals : Obligations.AccessRefusals := by
  intro s a sz v
  have stops : ¬ Admitted s a sz → _ := fun h => access_stops h v
  rw [admitted_iff, firstStop] at stops
  refine ⟨fun hmis => ?_, fun hmis hvm => ?_, fun hmis hvm htrans => ?_, fun hmis hvm htrans habsent => ?_,
    fun hmis hvm htrans habsent => ?_⟩
  · rw [if_pos hmis] at stops
    exact stops fun ⟨h, _⟩ => h hmis
  · rw [if_neg hmis, if_pos hvm] at stops
    exact stops fun ⟨_, h, _⟩ => h hvm
  · rw [if_neg hmis, if_neg hvm, if_pos htrans] at stops
    exact stops fun ⟨_, _, h, _⟩ => h htrans
  · rw [if_neg hmis, if_neg hvm, if_neg htrans] at stops
    exact stops fun ⟨_, _, _, h⟩ => h habsent
  · have hadm := admitted_iff.mpr ⟨hmis, hvm, htrans, habsent⟩
    exact ⟨⟨_, memRead_ok.mpr ⟨hadm, rfl⟩⟩, _, memWrite_ok.mpr ⟨hadm, rfl⟩⟩

/-! ## Addresses (R31, R65, R113, R150, R170) -/

/-- A sum of words, taken modulo the size of the address space. -/
theorem wrap_add_toNat (cfg : Config) (x y : Word) : (wrap cfg (x + y)).toNat = (x.toNat + y.toNat) % 2 ^ cfg.aw := by
  have hdvd : 2 ^ cfg.aw ∣ 2 ^ 64 := pow_dvd_pow 2 ((aw_le cfg).trans (by decide))
  rw [wrap_toNat, BitVec.toNat_add, Nat.mod_mod_of_dvd _ hdvd]

/-- The same with a word that stands for an integer. -/
theorem wrap_add_ofInt (cfg : Config) (x : Word) (i : Int) :
    ((wrap cfg (x + BitVec.ofInt 64 i)).toNat : Int) = ((x.toNat : Int) + i) % (2 ^ cfg.aw : Int) := by
  have hdvd : (2 ^ cfg.aw : Int) ∣ 2 ^ 64 := pow_dvd_pow 2 ((aw_le cfg).trans (by decide))
  have hi : ((BitVec.ofInt 64 i).toNat : Int) = i % 2 ^ 64 := by
    rw [BitVec.toNat_ofInt, Int.toNat_of_nonneg (Int.emod_nonneg _ (by decide))]
    rfl
  rw [wrap_add_toNat]
  push_cast
  rw [hi, Int.add_emod, Int.emod_emod_of_dvd _ hdvd, ← Int.add_emod]

/-- The address an access is made from (log entry 11). -/
theorem accessBase_alignDown {s : State} (h : s.cfg.misaligned = .alignDown) (a : Addr) (sz : Size) :
    (s.accessBase a sz).toNat = a.toNat - a.toNat % sz.bytes := by
  have hmul : a.toNat / sz.bytes * sz.bytes = a.toNat - a.toNat % sz.bytes := by
    have := Nat.div_add_mod' a.toNat sz.bytes
    omega
  unfold State.accessBase
  split
  · next halign => rw [halign, Nat.sub_zero]
  · rw [h]
    change (BitVec.ofNat 36 (a.toNat / sz.bytes * sz.bytes)).toNat = _
    rw [BitVec.toNat_ofNat, hmul, Nat.mod_eq_of_lt (by omega)]

theorem accessBase_straddle {s : State} (h : s.cfg.misaligned = .straddle) (a : Addr) (sz : Size) :
    s.accessBase a sz = a := by
  unfold State.accessBase
  rw [h]
  exact ite_self a

/-- The value of an immediate that extends to 64 bits by its rule (R113, R272). -/
theorem immBy_same {s : State} (h : s.cfg.extQ = false ∨ s.cfg.immExt64 = .same) (ext : ImmExt) {n : Nat} (hn : n ≤ 32)
    (imm : BitVec n) : s.immBy ext imm = BitVec.ofInt 64 (immInt ext imm) := by
  obtain ⟨-, hsame, -⟩ := immBy_value s ext hn imm
  exact hsame h

/-- Settles O17: every computed address is a wrapped sum with an immediate's value. -/
theorem addressesWrap : Obligations.AddressesWrap := by
  intro s r d
  refine ⟨nextPc_toNat s, ⟨s.immMem d, immBy_value s _ (by decide) d, wrap_add_toNat _ _ _⟩,
    fun n offset hn => ⟨s.immSigned offset, immBy_value s .sign hn offset, wrap_add_toNat _ _ _⟩,
    fun hsame => ⟨?ea, fun n offset hn => ?target⟩, fun a sz => ⟨accessBase_aligned,
      fun h => accessBase_alignDown h a sz, fun h => accessBase_straddle h a sz⟩⟩
  case ea =>
    rw [State.ea, State.immMem, immBy_same hsame _ (by decide)]
    exact wrap_add_ofInt _ _ _
  case target =>
    rw [State.target, State.immSigned, immBy_same hsame _ hn]
    exact wrap_add_ofInt _ _ _

/-! ## The virtual-memory table (R81 to R83) -/

/-- The value of two bit vectors put together. -/
theorem append_toNat {n k : Nat} (x : BitVec n) (y : BitVec k) : (x ++ y).toNat = x.toNat * 2 ^ k + y.toNat := by
  rw [BitVec.toNat_append, Nat.shiftLeft_eq, Nat.mul_comm, Nat.two_pow_add_eq_or_of_lt y.isLt]

/-- The fields of an entry stand at their bits (R82). -/
theorem vmEntryWord_toNat (e : VmEntry) :
    (vmEntryWord e).toNat = e.process.toNat * 2 ^ 48 + e.virtualPage.toNat * 2 ^ 24 + e.physicalPage.toNat := by
  rw [vmEntryWord, append_toNat, append_toNat, append_toNat]
  simp only [BitVec.ofNat_eq_ofNat, BitVec.toNat_ofNat]
  omega

/-- An entry is read back from its bits. -/
theorem vmEntryOf_vmEntryWord (e : VmEntry) : vmEntryOf (vmEntryWord e) = e := by
  have hword := vmEntryWord_toNat e
  obtain ⟨process, virtualPage, physicalPage⟩ := e
  unfold vmEntryOf
  congr 1 <;> apply BitVec.eq_of_toNat_eq <;>
    simp only [BitVec.extractLsb'_toNat, Nat.shiftRight_eq_div_pow, hword] <;> omega

/-- Settles O60: the place of an entry is aligned, so the quad-word stored there is read there, and the places of two
entries have no byte in common. -/
theorem vmEntriesRoundTrip : Obligations.VmEntriesRoundTrip := by
  intro s t index e offset hindex h
  obtain ⟨-, rfl⟩ := memWrite_ok.mp h
  have hplace : (BitVec.ofNat 36 (8 * index)).toNat = 8 * index := by
    unfold vmEntryCount at hindex
    rw [BitVec.toNat_ofNat, Nat.mod_eq_of_lt (by omega)]
  have hbase : s.accessBase (BitVec.ofNat 36 (8 * index)) .qword = BitVec.ofNat 36 (8 * index) :=
    accessBase_aligned (by rw [hplace]; exact Nat.mul_mod_right 8 index)
  rw [hbase, hplace]
  refine ⟨?same, fun j hj => ?other, vmEntryWord_toNat e, ?address⟩
  case same =>
    change vmEntryOf (ofBytes s.cfg.endian ((s.mem.writeBytes (8 * index) (toBytes s.cfg.endian 8 _)).readBytes
      (8 * index) 8)) = e
    rw [readBytes_writeBytes_toBytes, ofBytes_toBytes_eight, vmEntryOf_vmEntryWord]
  case other =>
    unfold State.vmEntry
    rw [Memory.readBytes_congr fun k hk => read_writeBytes_toBytes_outside _ _ _ _ _ ?_]
    change 8 * j + k < 8 * index ∨ 8 * index + 8 ≤ 8 * j + k
    omega
  case address => exact append_toNat e.physicalPage offset

end Sys2Proof.Machine
end

section
/-! Proofs for `60_exceptions.md`, `45_system.md` and `70_reset_and_hazards.md`: the instruction boundary (R303), traps
and the return from them (R311 to R322), SSB and CSB (R231, R232), and reset (R340 to R342). -/

namespace Sys2Proof.Machine

open Sys2Proof

/-! ## The instruction boundary (R303) -/

/-- Neither the environment's samples nor the counter of free values are looked at by the fetch. -/
@[simp] theorem beginStep_nextInstr (s : State) : s.beginStep.nextInstr = s.nextInstr := rfl

/-- At a boundary at which nothing else happens the instruction at `pc` runs. -/
theorem step_of_nextInstr {s : State} {i : Instr} (hreset : s.sample.reset = false)
    (hirq : s.takesInterrupt s.sample.irq = false) (hi : s.nextInstr = .ok i) : step s = exec i s.beginStep := by
  rw [step, hreset, hirq, beginStep_nextInstr, hi]
  rfl

/-- And where there is none, the machine stops. -/
theorem step_of_stop {s : State} {e : Stop} (hreset : s.sample.reset = false)
    (hirq : s.takesInterrupt s.sample.irq = false) (he : s.nextInstr = .error e) : step s = outcomeOf (.error e) := by
  rw [step, hreset, hirq, beginStep_nextInstr, he]
  rfl

/-- Four bytes that decode are the bytes of a word that decodes. -/
theorem decodeBytes_four {cfg : Config} {bs rest : List Byte} {i : Instr} (hlen : bs.length = 4)
    (h : decodeBytes cfg bs = .ok (i, rest)) : decodeWord cfg ((ofBytes cfg.endian bs).setWidth 32) = .ok i := by
  unfold decodeBytes at h
  rw [if_neg (by omega), List.take_of_length_le hlen.le] at h
  split at h
  · next hword =>
    cases h
    exact hword
  · cases h

/-- Settles O9: the bytes at `pc` are those of the word the fetch reads. -/
theorem stepRunsInstructionAtPc : Obligations.StepRunsInstructionAtPc := by
  intro s i rest hreset hirq hadm hbytes
  have hword := decodeBytes_four (Memory.length_readBytes _ _ _) hbytes
  exact ⟨decodedIsWellFormed _ _ _ hword, step_of_nextInstr hreset hirq (nextInstr_ok.mpr ⟨hadm, hword⟩)⟩

/-- The word a stored word is fetched as. -/
theorem fetched_word (m : Memory) (o : ByteOrder) (a : Nat) (w : BitVec 32) :
    (ofBytes o ((m.writeBytes a (toBytes o 4 (BitVec.ofNat 64 (w.toNat % 2 ^ 32)))).readBytes a 4)).setWidth 32 =
      w := by
  have hw : BitVec.ofNat 64 (w.toNat % 2 ^ 32) = w.setWidth 64 := by
    rw [Nat.mod_eq_of_lt w.isLt, BitVec.ofNat_toNat]
  rw [readBytes_writeBytes_toBytes, hw, ofBytes_toBytes_four]

/-- Settles O10: the bytes read at `pc` are those stored there, and they make the instruction's word again. -/
theorem storedInstructionRunsNext : Obligations.StoredInstructionRunsNext := by
  intro s i hwf hadm
  refine ⟨?runs, fun a ha => ?frame, rfl, rfl, rfl, rfl⟩
  case runs =>
    have hi : (s.withFetchWord 32 (encode s.cfg i).toNat).nextInstr = .ok i := by
      refine nextInstr_ok.mpr ⟨hadm, ?_⟩
      rw [← decodeInvertsEncode s.cfg i hwf]
      exact congrArg (decodeWord s.cfg) (fetched_word s.mem s.cfg.endian (s.accessBase s.pc .dword).toNat _)
    exact step_of_nextInstr rfl rfl hi
  case frame => exact read_writeBytes_toBytes_outside s.mem s.cfg.endian _ 4 _ ha

/-- Where the fetch is refused for its alignment, that is the stop (R32). -/
theorem nextInstr_misaligned {s : State} (h : s.refusesMisaligned s.pc .dword = true) :
    s.nextInstr = .error (.refused (.misalignedPc s.pc)) := by
  rw [State.nextInstr, State.fetch, if_pos h]

/-- Another fetch that is not admitted has the stop of its access. -/
theorem nextInstr_stop {s : State} (h : ¬ s.refusesMisaligned s.pc .dword = true) (hadm : ¬ Admitted s s.pc .dword) :
    s.nextInstr = .error (firstStop s s.pc .dword) := by
  rw [State.nextInstr, State.fetch, if_neg h, (access_stops hadm 0).1]

/-- A fetch that is admitted reads the word at `pc`. -/
theorem fetch_of_admitted {s : State} (hadm : Admitted s s.pc .dword) :
    s.fetch = .ok ((ofBytes s.cfg.endian (s.mem.readBytes (s.accessBase s.pc .dword).toNat 4)).setWidth 32) := by
  have hmis : ¬ s.refusesMisaligned s.pc .dword = true := fun h =>
    (admitted_iff.mp hadm).1 (refusesMisaligned_iff.mp h)
  rw [State.fetch, if_neg hmis, memRead_ok.mpr ⟨hadm, rfl⟩]
  rfl

/-- And a reserved word has the stop of a reserved encoding. -/
theorem nextInstr_reserved {s : State} {r : Reserved} (hadm : Admitted s s.pc .dword)
    (hr : decodeWord s.cfg ((ofBytes s.cfg.endian (s.mem.readBytes (s.accessBase s.pc .dword).toNat 4)).setWidth 32) =
      .error r) : s.nextInstr = .error (.refused (.reservedEncoding r)) := by
  simp only [State.nextInstr, fetch_of_admitted hadm, hr, reserved_eq]

/-- Settles O11: each condition makes the fetch not admitted, with its stop the first that applies. -/
theorem fetchRefusals : Obligations.FetchRefusals := by
  intro s hreset hirq
  have stops := fun e => step_of_stop (s := s) (e := e) hreset hirq
  refine ⟨fun hmis hrefuse => stops _ (nextInstr_misaligned (refusesMisaligned_iff.mpr ⟨hmis, hrefuse⟩)),
    fun halign => accessBase_aligned halign, fun halign => ?_, fun hadm r hr => stops _ (nextInstr_reserved hadm hr)⟩
  have hmis : ¬ (s.pc.toNat % Size.dword.bytes ≠ 0 ∧ s.cfg.misaligned = .refuse) := fun ⟨h, h'⟩ =>
    halign.elim h fun h => h h'
  have hnot := mt refusesMisaligned_iff.mp hmis
  refine ⟨fun hk hvm hle => ?vm, fun huser hp hext => ?translated⟩
  case vm =>
    have hin : s.sr.k = false ∧ s.cfg.vmUserAccess = .refuse ∧ (s.accessBase s.pc .dword).toNat ≤ 0xFFFFF :=
      ⟨hk, hvm, hle⟩
    have hstop := nextInstr_stop hnot fun hadm => have ⟨_, hnotVm, _⟩ := admitted_iff.mp hadm; hnotVm hin
    rw [firstStop, if_neg hmis, if_pos hin] at hstop
    exact stops _ hstop
  case translated =>
    have hin : ¬ (s.sr.k = false ∧ s.cfg.vmUserAccess = .refuse ∧ (s.accessBase s.pc .dword).toNat ≤ 0xFFFFF) := by
      rintro ⟨hk, hvm, hle⟩
      rcases huser with h | h | h
      · simp [hk] at h
      · simp [hvm] at h
      · omega
    have hstop := nextInstr_stop hnot fun hadm =>
      have ⟨_, _, hnotTranslated, _⟩ := admitted_iff.mp hadm; hnotTranslated ⟨hp, hext⟩
    rw [firstStop, if_neg hmis, if_neg hin, if_pos ⟨hp, hext⟩] at hstop
    exact stops _ hstop

/-- Settles O48: a request that is not taken leaves the step to the instruction at `pc`. -/
theorem interruptNotTaken : Obligations.InterruptNotTaken := by
  intro s hreset h
  have hirq : s.takesInterrupt s.sample.irq = false := by
    rcases h with h | h | ⟨hk, hwhen⟩
    · simp [State.takesInterrupt, h]
    · simp [State.takesInterrupt, h]
    · simp [State.takesInterrupt, hk, hwhen]
  have hquiet : ({ s with inputs := Sample.quiet :: s.inputs.tail } : State).beginStep = s.beginStep := rfl
  unfold step
  rw [hreset, hirq, hquiet]
  rfl

/-! ## Vectors (R75, R76) -/

/-- A vector is inside the address space and above `$vm`, and so is every byte of its slot; so its read is admitted
where memory answers and nothing is translated. -/
theorem vector_admitted {s : State} (hwf : s.cfg.wf = true) {vec : Addr}
    (hvec : vec ∈ [s.cfg.rstVec, s.cfg.sIntVec, s.cfg.hIntVec]) (htrans : s.sr.p = false ∨ s.cfg.extP = false)
    (hbacked : ∀ k < 8, ∃ r ∈ s.cfg.backed, r.base ≤ vec.toNat + k ∧ vec.toNat + k < r.base + r.size) :
    Admitted s vec .qword := by
  obtain ⟨halign, hlt, habove⟩ := vector_of_wf hwf hvec
  obtain ⟨slots, hslots⟩ : 8 ∣ 2 ^ s.cfg.aw := by
    have haw : 3 ≤ s.cfg.aw := by unfold Config.aw; omega
    exact pow_dvd_pow 2 haw
  rw [Admitted, accessBase_aligned halign]
  exact ⟨.inl halign, .inr (.inr habove), htrans, fun k hk => ⟨by simp only [Size.bytes] at hk; omega, hbacked k hk⟩⟩

/-- The read of a vector that is admitted answers the 8-byte value that stands there. -/
theorem memRead_vector {s : State} {vec : Addr} (halign : vec.toNat % 8 = 0) (hadm : Admitted s vec .qword) :
    s.memRead vec .qword = .ok (ofBytes s.cfg.endian (s.mem.readBytes vec.toNat 8)) := by
  refine memRead_ok.mpr ⟨hadm, ?_⟩
  rw [accessBase_aligned halign]
  rfl

/-- Settles O44: trap entry and reset read their vectors in states of the same implementation and memory. -/
theorem vectorsAreReadable : Obligations.VectorsAreReadable := by
  intro s hwf
  refine ⟨fun vec hvec ret htrans hbacked => ?trap, fun htrans hbacked => ?reset⟩
  case trap =>
    have hvec : vec ∈ [s.cfg.rstVec, s.cfg.sIntVec, s.cfg.hIntVec] := List.mem_cons_of_mem _ hvec
    have hadm := vector_admitted (s := s.enterKernel ret) hwf hvec htrans hbacked
    exact ⟨memRead_vector (vector_of_wf hwf hvec).1 hadm, _, trapEntry_ok.mpr ⟨hadm, rfl⟩⟩
  case reset =>
    have hvec : s.cfg.rstVec ∈ [s.cfg.rstVec, s.cfg.sIntVec, s.cfg.hIntVec] := List.mem_cons_self
    have hadm := vector_admitted (s := s.clearForReset) hwf hvec htrans hbacked
    exact ⟨memRead_vector (vector_of_wf hwf hvec).1 hadm, _, resetEvent_ok.mpr ⟨hadm, rfl⟩⟩

/-! ## Trap entry and return (R314, R320) -/

/-- Where its vector can be read trap entry completes, and does what R314 says. -/
theorem trapEntry_enters {s : State} {vec : Addr} (hread : VectorReadable s vec) (ret : Addr) :
    ∃ t, s.trapEntry vec ret = .ok t ∧ Enters s t vec ret ∧ SameModel s t := by
  refine ⟨_, trapEntry_ok.mpr ⟨hread, rfl⟩, ⟨?ird, fun r hr => ?other, rfl, vector_toNat _ _, fun _ => rfl, rfl⟩,
    rfl, rfl, rfl⟩
  case ird =>
    change HoldsReturn s ret ((s.regs.set .ird _).get .ird)
    rw [Regs.get_set, if_pos (by simp)]
    exact returnValue_holds s ret
  case other => exact (Regs.get_set _ _ _ _).trans (if_neg fun h => hr h.1)

/-- Settles O43: SYSCAL is the trap entry through the software vector. -/
theorem syscallEntersKernel : Obligations.SyscallEntersKernel := by
  intro s hread
  obtain ⟨t, ht, henters, hmodel⟩ := trapEntry_enters hread s.nextPc
  exact ⟨t, exec_syscal_next.mpr ht, henters, hmodel⟩

/-- Settles O47: the step at such a boundary is the trap entry through the hardware vector. -/
theorem hardwareInterruptTaken : Obligations.HardwareInterruptTaken := by
  intro s hreset hirq hi hk hread
  have htakes : s.takesInterrupt s.sample.irq = true := by
    rcases hk with hk | hk <;> simp [State.takesInterrupt, hirq, hi, hk]
  obtain ⟨t, ht, henters, hinputs, -⟩ := trapEntry_enters (s := s.beginStep) hread s.pc
  exact ⟨t, step_next.mpr (.inr (.inl ⟨hreset, htakes, ht⟩)), henters, hinputs⟩

/-- Settles O45: URT is the trap return, and K stays set through every instruction but it. -/
theorem trapReturn : Obligations.TrapReturn := by
  refine ⟨fun s => ⟨_, exec_urt s, wrap_toNat _ _, rfl, fun _ => rfl, fun _ => rfl, rfl, rfl, rfl⟩,
    fun i s t h hk hk' => ?_⟩
  by_contra hurt
  have hset : t.sr.k = true := by
    by_cases hsys : i = .syscal
    · subst hsys
      rw [trapEntry_sr (exec_syscal_next.mp h)]
    · rw [exec_keeps_k h hsys hurt, hk]
  exact Bool.false_ne_true (hk'.symm.trans hset)

/-- A register value that holds a return address gives it back, modulo the size of the address space. -/
theorem wrap_of_holdsReturn {s : State} {ret : Addr} {v : Word} (hwf : s.cfg.wf = true)
    (hret : ret.toNat < 2 ^ s.cfg.aw) (h : HoldsReturn s ret v) : wrap s.cfg v = ret := by
  obtain ⟨-, hlow, hwide⟩ := h
  have hbits : ∀ i < s.cfg.aw, v.getLsbD i = ret.getLsbD i := by
    cases hq : s.cfg.extQ with
    | false => rwa [aw_of_wf hwf hq]
    | true => exact (hwide hq).1
  apply BitVec.eq_of_toNat_eq
  rw [wrap_toNat]
  apply Nat.eq_of_testBit_eq
  intro i
  rw [Nat.testBit_mod_two_pow]
  by_cases hi : i < s.cfg.aw
  · simpa [hi, BitVec.getLsbD] using hbits i hi
  · have hle : 2 ^ s.cfg.aw ≤ 2 ^ i := Nat.pow_le_pow_right (by decide) (Nat.le_of_not_lt hi)
    simp [hi, Nat.testBit_lt_two_pow (lt_of_lt_of_le hret hle)]

/-- Settles O46: what SYSCAL leaves in IRD is the address URT goes to. -/
theorem syscallThenReturn : Obligations.SyscallThenReturn := by
  intro s hwf hread
  obtain ⟨u, hu, ⟨hird, hregs, hsr, -, hmem, hcfg⟩, -⟩ := syscallEntersKernel s hread
  refine ⟨u.trapReturn, ⟨u, hu, _, exec_urt u, rfl⟩, ?pc, ?sr, hregs, hmem⟩
  case pc =>
    have htrim : trim s.cfg (u.regs.get .ird) = u.regs.get .ird := hird.1
    rw [State.trapReturn_pc, hcfg, readReg_of_accepts (s := u) rfl, hcfg, htrim]
    exact wrap_of_holdsReturn hwf (Inv.nextPc_lt s) hird
  case sr => rw [State.trapReturn_sr, hsr]

/-! ## SSB and CSB (R231, R232) -/

/-- The bit written, and no other; K is not written. -/
theorem statusBit_writeStatusBit (st : Status) (b x : StatusBit) (v : Bool) :
    statusBit (writeStatusBit st b v) x = if x = b ∧ b ≠ .k then v else statusBit st x := by
  cases b <;> cases x <;> rfl

/-- With K = 1 the bit is written. -/
theorem statusOp_kernel {s : State} (hk : s.sr.k = true) (b : StatusBit) (v : Bool) :
    ∃ t, s.statusOp b v = .next t ∧ t.pc = s.nextPc ∧ SameRegs s t ∧ SameMemory s t ∧ SameModel s t ∧
      ∀ x : StatusBit, statusBit t.sr x = if x = b ∧ b ≠ .k then v else statusBit s.sr x :=
  ⟨_, statusOp_next.mpr (.inl ⟨hk, rfl⟩), rfl, fun _ => rfl, fun _ => rfl, ⟨rfl, rfl, rfl⟩,
    fun x => statusBit_writeStatusBit s.sr b x v⟩

/-- With K = 0 nothing is written where `PRIV_VIOLATION` is ignore. -/
theorem statusOp_ignored {s : State} (hk : s.sr.k = false) (hp : s.cfg.privViolation = .ignore) (b : StatusBit)
    (v : Bool) : ∃ t, s.statusOp b v = .next t ∧ OnlyPc s t s.nextPc :=
  ⟨_, statusOp_next.mpr (.inr ⟨hk, hp, rfl⟩), rfl, fun _ => rfl, rfl, fun _ => rfl, rfl, rfl, rfl⟩

/-- And the instruction is refused where it is refuse. -/
theorem statusOp_refused {s : State} (hk : s.sr.k = false) (hp : s.cfg.privViolation = .refuse) (b : StatusBit)
    (v : Bool) : s.statusOp b v = .refused .privilegeViolation := by
  rw [State.statusOp, hk, hp]
  rfl

/-- Settles O42: SSB and CSB are one operation, with the bit they write as its argument. -/
theorem statusBitInstructions : Obligations.StatusBitInstructions := fun _ b =>
  ⟨fun hk => ⟨statusOp_kernel hk b true, statusOp_kernel hk b false⟩,
    fun hk hp => ⟨statusOp_ignored hk hp b true, statusOp_ignored hk hp b false⟩,
    fun hk hp => ⟨statusOp_refused hk hp b true, statusOp_refused hk hp b false⟩⟩

/-! ## Reset (R340 to R342) -/

/-- Settles O49: the step at such a boundary is the reset event. -/
theorem resetEventHappens : Obligations.ResetEventHappens := fun _ hreset hadm =>
  ⟨_, step_next.mpr (.inl ⟨hreset, resetEvent_ok.mpr ⟨hadm, rfl⟩⟩), rfl, vector_toNat _ _, reset_get, fun _ => rfl, rfl⟩

/-- Settles O50: the launch profile's values, and the vector's slot, which reads as zeros. -/
theorem resetState : Obligations.ResetState :=
  ⟨rfl, by decide, rfl, rfl, rfl, by decide, reset_get⟩

end Sys2Proof.Machine
end

section
/-! Proofs for `41_load_store.md`: stores and loads (R152 to R159, R263, R264), completed and stopped. A loaded value is
said once, bit by bit; the rest is `storeOp_next` and `loadOp_next`. -/

namespace Sys2Proof.Machine

open Sys2Proof

/-! ## The four instructions of the 64-bit extension where the mode has them (R272) -/

theorem exec_stq {s : State} (h : s.quadGated = false) (c a : Reg) (imm : BitVec 15) :
    exec (.stq c a imm) s = s.storeOp .qword c a imm := by
  change execStq c a imm s = _
  rw [execStq, h]
  rfl

theorem exec_ldq {s : State} (h : s.quadGated = false) (c a : Reg) (imm : BitVec 15) :
    exec (.ldq c a imm) s = s.loadOp .qword c a imm := by
  change execLdq c a imm s = _
  rw [execLdq, h]
  rfl

theorem exec_mvuHh {s : State} (h : s.quadGated = false) (c : Reg) (imm : BitVec 22) :
    exec (.mvuHh c imm) s = s.retire c (placeHighHigh s.cfg.mvuhOther (s.readReg c) imm) := by
  change execMvuHh c imm s = _
  rw [execMvuHh, h]
  rfl

theorem exec_mvuHl {s : State} (h : s.quadGated = false) (c : Reg) (imm : BitVec 22) :
    exec (.mvuHl c imm) s = s.retire c (placeHighLow s.cfg.mvuhOther (s.readReg c) imm) := by
  change execMvuHl c imm s = _
  rw [execMvuHl, h]
  rfl

/-! ## Stores -/

/-- A store whose access is admitted completes and stores its bytes. -/
theorem storeOp_storesAt {s : State} {i : Instr} {sz : Size} {c a : Reg} {imm : BitVec 15}
    (hi : exec i s = s.storeOp sz c a imm) (hadm : Admitted s (s.ea a imm) sz) :
    StoresAt i s (s.ea a imm) sz (s.readReg c) :=
  ⟨_, hi.trans (storeOp_next.mpr ⟨hadm, rfl⟩), fun _ hk => read_writeBytes_toBytes s.mem s.cfg.endian _ _ _ hk,
    fun _ hx => read_writeBytes_toBytes_outside s.mem s.cfg.endian _ _ _ hx, rfl, fun _ => rfl, rfl, rfl, rfl, rfl⟩

/-- Settles O18: the four stores are one operation, of four sizes. -/
theorem storesWriteMemory : Obligations.StoresWriteMemory := fun _ c a imm =>
  ⟨storeOp_storesAt rfl, storeOp_storesAt rfl, storeOp_storesAt rfl,
    fun hadm hgate => storeOp_storesAt (exec_stq hgate c a imm) hadm⟩

/-! ## Loads -/

/-- The three ways to fill the bits above the `n` a load names, bit by bit. -/
theorem zeroFill_bit (v : Word) (n : Nat) {i : Nat} (hi : i < 64) :
    ((v.setWidth n).setWidth 64).getLsbD i = if i < n then v.getLsbD i else false := by
  by_cases h : i < n <;> simp [BitVec.getLsbD_setWidth, hi, h]

theorem signFill_bit (v : Word) {n i : Nat} (hn : 0 < n) (hi : i < 64) :
    ((v.setWidth n).signExtend 64).getLsbD i = if i < n then v.getLsbD i else v.getLsbD (n - 1) := by
  have hn' : n - 1 < n := by omega
  rw [BitVec.getLsbD_signExtend, BitVec.msb_eq_getLsbD_last]
  by_cases h : i < n <;> simp [hi, h, hn']

theorem mergeFill_bit (old v : Word) (n k : Nat) {i : Nat} (hi : i < n + k) :
    (old.extractLsb' n k ++ v.setWidth n).getLsbD i = if i < n then v.getLsbD i else old.getLsbD i := by
  rw [BitVec.getLsbD_append, BitVec.getLsbD_extractLsb', BitVec.getLsbD_setWidth]
  by_cases h : i < n
  · simp [h]
  · have hk : i - n < k := by omega
    have hadd : n + (i - n) = i := by omega
    simp [h, hk, hadd]

/-- What `LOAD_EXT` says of bit `i` above the `n` a load names (R153, D9). -/
def fillBit (ext : LoadExt) (n : Nat) (old v : Word) (i : Nat) : Bool :=
  match ext with
  | .zero => false
  | .sign => v.getLsbD (n - 1)
  | .merge => old.getLsbD i

/-- Bit `i` of a loaded register value (R153): the bits the load names come from memory, the others are what `LOAD_EXT`
says. -/
theorem loadValue_bit (ext : LoadExt) (sz : Size) (old v : Word) {i : Nat} (hi : i < 64) :
    (loadValue ext sz old v).getLsbD i =
      if i < 8 * sz.bytes then v.getLsbD i else fillBit ext (8 * sz.bytes) old v i := by
  cases sz
  case byte =>
    cases ext
    · exact zeroFill_bit v 8 hi
    · exact signFill_bit v (by decide) hi
    · exact mergeFill_bit old v 8 56 hi
  case word =>
    cases ext
    · exact zeroFill_bit v 16 hi
    · exact signFill_bit v (by decide) hi
    · exact mergeFill_bit old v 16 48 hi
  case dword =>
    cases ext
    · exact zeroFill_bit v 32 hi
    · exact signFill_bit v (by decide) hi
    · exact mergeFill_bit old v 32 32 hi
  case qword => exact (if_pos hi).symm

/-- The byte of a value depends on the bits the value's bytes have. -/
theorem byteAt_congr {o : ByteOrder} {n k : Nat} {v w : Word} (hk : k < n)
    (h : ∀ i < 8 * n, v.getLsbD i = w.getLsbD i) : byteAt o n v k = byteAt o n w k := by
  cases o <;> ext i hi <;> simp only [byteAt, BitVec.getElem_extractLsb'] <;> exact h _ (by omega)

/-- Byte `k` of the value of a list of bytes is the list's. -/
theorem extract_wordLE {bs : List Byte} {k : Nat} (hlen : bs.length ≤ 8) (hk : k < bs.length) :
    (wordLE bs).extractLsb' (8 * k) 8 = bs[k] := by
  ext i hi
  have hdiv : (8 * k + i) / 8 = k := by omega
  have hmod : (8 * k + i) % 8 = i := by omega
  have hlt : 8 * k + i < 64 := by omega
  rw [BitVec.getElem_extractLsb', getLsbD_wordLE, hdiv, hmod, List.getElem?_eq_getElem hk]
  simp [hlt, hi]

/-- The bytes of a value made of bytes are these bytes, in either order. -/
theorem byteAt_ofBytes {o : ByteOrder} {bs : List Byte} {k : Nat} (hlen : bs.length ≤ 8) (hk : k < bs.length) :
    byteAt o bs.length (ofBytes o bs) k = bs[k] := by
  cases o with
  | little => exact extract_wordLE hlen hk
  | big =>
    have hrev : bs.length - 1 - k < bs.reverse.length := by simp; omega
    have hidx : bs.length - 1 - (bs.length - 1 - k) = k := by omega
    refine (extract_wordLE (by simpa using hlen) hrev).trans ?_
    rw [List.getElem_reverse]
    simp only [hidx]

/-- A load leaves its named bits as the bytes in memory have them, and fills the others. -/
theorem loadValue_loaded (s : State) (a : Addr) (sz : Size) (old : Word) :
    LoadedValue s a sz old (loadValue s.cfg.loadExt sz old
      (ofBytes s.cfg.endian (s.mem.readBytes (s.accessBase a sz).toNat sz.bytes))) := by
  have hsz := size_bytes_le sz
  have hpos : 0 < sz.bytes := by cases sz <;> decide
  generalize hbs : s.mem.readBytes (s.accessBase a sz).toNat sz.bytes = bs
  have hlen : bs.length = sz.bytes := by rw [← hbs, Memory.length_readBytes]
  refine ⟨fun k hk => ?bytes, fun i hi hge => ?fill⟩
  case bytes =>
    have hk' : k < bs.length := hlen ▸ hk
    have hread : s.mem.read ((s.accessBase a sz).toNat + k) = bs[k] := by
      subst hbs
      rw [Memory.getElem_readBytes]
    rw [hread, byteAt_congr hk fun i hi => (loadValue_bit _ sz old _ (by omega)).trans (if_pos hi), ← hlen,
      byteAt_ofBytes (by omega) hk']
  case fill =>
    have htop : 8 * sz.bytes - 1 < 8 * sz.bytes := by omega
    rw [loadValue_bit _ sz old _ hi, if_neg (by omega), loadValue_bit _ sz old _ (by omega), if_pos htop]
    cases s.cfg.loadExt <;> rfl

/-- A load whose access is admitted and whose write is not refused completes and leaves the loaded value. -/
theorem loadOp_loadsFrom {s : State} {i : Instr} {sz : Size} {c a : Reg} {imm : BitVec 15}
    (hi : exec i s = s.loadOp sz c a imm) (hc : s.refusesWrite c = false) (hadm : Admitted s (s.ea a imm) sz) :
    LoadsFrom i s c (s.ea a imm) sz :=
  ⟨_, _, hi.trans (loadOp_next.mpr ⟨hadm, hc, rfl⟩), writesReg_setReg_advance s c _, loadValue_loaded s _ sz _⟩

/-- Settles O19: the four loads are one operation, of four sizes. -/
theorem loadsWriteRegister : Obligations.LoadsWriteRegister := fun _ c a imm hc =>
  ⟨loadOp_loadsFrom rfl hc, loadOp_loadsFrom rfl hc, loadOp_loadsFrom rfl hc,
    fun hadm hgate => loadOp_loadsFrom (exec_ldq hgate c a imm) hc hadm⟩

/-! ## Stops -/

theorem storeOp_stop {s : State} {sz : Size} {c a : Reg} {imm : BitVec 15} (h : ¬ Admitted s (s.ea a imm) sz) :
    s.storeOp sz c a imm = outcomeOf (.error (firstStop s (s.ea a imm) sz)) := by
  rw [State.storeOp, (access_stops h _).2]

theorem loadOp_stop {s : State} {sz : Size} {c a : Reg} {imm : BitVec 15} (h : ¬ Admitted s (s.ea a imm) sz) :
    s.loadOp sz c a imm = outcomeOf (.error (firstStop s (s.ea a imm) sz)) := by
  rw [State.loadOp, (access_stops h 0).1]

/-- Where the mode does not have the four instructions they are reserved (R272). -/
theorem gated_refused {s : State} (h : s.quadGated = true) (o : Host.Outcome State Fault Refusal) :
    (if s.quadGated then outcomeOf (.error (s.reserved .needsQ)) else o) = .refused (.reservedEncoding .needsQ) := by
  rw [h, reserved_eq]
  rfl

/-- Settles O20: a load or store that is not admitted has the stop of its access. -/
theorem stoppedLoadsAndStores : Obligations.StoppedLoadsAndStores := by
  intro s c a imm up
  refine ⟨fun h => ⟨storeOp_stop h, loadOp_stop h⟩, fun h => ⟨storeOp_stop h, loadOp_stop h⟩,
    fun h => ⟨storeOp_stop h, loadOp_stop h⟩, fun h hgate => ⟨?_, ?_⟩, fun hcfg hq => ?_⟩
  · exact (exec_stq hgate c a imm).trans (storeOp_stop h)
  · exact (exec_ldq hgate c a imm).trans (loadOp_stop h)
  · have hgate : s.quadGated = true := by simp [State.quadGated, hcfg, hq]
    exact ⟨gated_refused hgate _, gated_refused hgate _, gated_refused hgate _, gated_refused hgate _⟩

end Sys2Proof.Machine
end

section
/-! Proofs for `43_alu.md`, `47_ext64.md` R262 and `48_ext_muldiv.md`: the operating width, the register and immediate
forms at either width, and division. A 32-bit result in a 64-bit register is said once (`fillUpper_narrow`), an
instruction with a result once (`retireAlu_computes`); the rest is the arithmetic of each operation. -/

namespace Sys2Proof.Machine

open Sys2Proof

/-! ## The operating width (R262) -/

/-- Settles O21: each width is 64 bits under its condition. -/
theorem operatingWidth : Obligations.OperatingWidth := by
  intro s
  have width : ∀ p : Bool, (if p then Width.w64 else .w32) = .w64 ↔ p = true := by decide
  refine ⟨(width _).trans ?alu, (width _).trans ?shift, (width _).trans ?compare⟩
  case alu => exact Bool.and_eq_true_iff
  case shift => simp only [Bool.and_eq_true, and_assoc]
  case compare => simp only [Bool.and_eq_true, and_assoc]

/-! ## A result at an operating width (R271, R272) -/

/-- Bits of a value put above another. -/
theorem extract_append_above {n k : Nat} (x : BitVec n) (y : BitVec k) (j l : Nat) :
    (x ++ y).extractLsb' (k + j) l = x.extractLsb' j l := by
  ext i hi
  have h : ¬ k + j + i < k := by omega
  have hsub : k + j + i - k = j + i := by omega
  rw [BitVec.getElem_extractLsb', BitVec.getLsbD_append, if_neg h, hsub, BitVec.getElem_extractLsb']

/-- The value put above another, and the one below it. -/
theorem extract_append_upper {n k : Nat} (x : BitVec n) (y : BitVec k) : (x ++ y).extractLsb' k n = x :=
  (extract_append_above x y 0 n).trans BitVec.extractLsb'_eq_self

theorem extract_append_lower {n k : Nat} (x : BitVec n) (y : BitVec k) : (x ++ y).extractLsb' 0 k = y := by
  ext i hi
  rw [BitVec.getElem_extractLsb', Nat.zero_add, BitVec.getLsbD_append, if_pos hi, BitVec.getLsbD_eq_getElem hi]

/-- A 32-bit result as a register value is what its parameter says (R271, R272). -/
theorem fillUpper_narrow (s : State) (fill : UpperFill) (old : Word) (r : BitVec 32) :
    Narrow s fill old r (s.fillUpper fill old r) := by
  refine ⟨low_fillUpper s fill old r, fun hq hfill => ?zero, fun hq hfill => ?sign, fun hq hfill => ?keep⟩
  all_goals simp only [State.fillUpper, hq, hfill, if_true]
  case zero =>
    ext i hi
    simp
  case sign =>
    ext i hi
    have h : 32 + i < 64 := by omega
    have h' : ¬ 32 + i < 32 := by omega
    rw [BitVec.getElem_extractLsb', BitVec.getLsbD_signExtend, decide_eq_true h, if_neg h', Bool.true_and]
    cases r.msb
    · exact (BitVec.getElem_zero hi).symm
    · exact (BitVec.getElem_allOnes (i := i) hi).symm
  case keep => exact extract_append_upper _ _

/-- The result of a one-operand function at an operating width. -/
theorem resultAt_value1 (s : State) (w : Width) (c : Reg) (f : (n : Nat) → BitVec n → BitVec n) (x : Word) :
    ResultValue s w c (f 64 x) (f 32 (low x)) (s.resultAt w c (atWidth1 w f x)) := by
  cases w with
  | w64 => rfl
  | w32 =>
    have hlow : (atWidth1 .w32 f x).setWidth 32 = f 32 (low x) := low_setWidth _
    rw [State.resultAt, hlow]
    exact fillUpper_narrow s _ _ _

/-- The result of a two-operand function at an operating width. -/
theorem resultAt_value2 (s : State) (w : Width) (c : Reg) (f : (n : Nat) → BitVec n → BitVec n → BitVec n)
    (x y : Word) : ResultValue s w c (f 64 x y) (f 32 (low x) (low y)) (s.resultAt w c (atWidth2 w f x y)) := by
  cases w with
  | w64 => rfl
  | w32 =>
    have hlow : (atWidth2 .w32 f x y).setWidth 32 = f 32 (low x) (low y) := low_setWidth _
    rw [State.resultAt, hlow]
    exact fillUpper_narrow s _ _ _

/-- An instruction whose result is a two-operand function of `x` and `y` completes, unless its write is refused, and
leaves that result. -/
theorem aluOp_computes {s : State} {c : Reg} (hc : s.refusesWrite c = false) {i : Instr}
    {f : (n : Nat) → BitVec n → BitVec n → BitVec n} {x y : Word} (hi : exec i s = s.aluOp f c x y) :
    Computes i s s.aluWidth c (f 64 x y) (f 32 (low x) (low y)) :=
  ⟨_, _, hi.trans (retire_next.mpr ⟨hc, rfl⟩), writesReg_setReg_advance s c _, resultAt_value2 s _ c f x y⟩

/-- Settles O23: each form is an ALU operation, and the product is that of the signed values. -/
theorem registerForms : Obligations.RegisterForms := by
  intro s c a b hc
  have hmul := aluOp_computes hc (exec_mul s c a b)
  rw [mul_eq_ofInt, mul_eq_ofInt] at hmul
  exact ⟨aluOp_computes hc (exec_add s c a b), aluOp_computes hc (exec_sub s c a b),
    aluOp_computes hc (exec_and s c a b), aluOp_computes hc (exec_or s c a b), aluOp_computes hc (exec_xor s c a b), hmul⟩

/-! ## Immediate forms (R191, R281) -/

/-- A signed immediate has the value the rules give it, whatever its size. -/
theorem immSigned_value (s : State) {n : Nat} (hn : n ≤ 32) (imm : BitVec n) :
    ImmValue s imm.toInt (s.immSigned imm) :=
  immBy_value s .sign hn imm

theorem exec_addi (s : State) (c a : Reg) (imm : BitVec 14) :
    exec (.addi c a imm) s = s.aluOp (fun _ x y => x + y) c (s.readReg a) (s.immAlu imm) := rfl

theorem exec_subi (s : State) (c a : Reg) (imm : BitVec 14) :
    exec (.subi c a imm) s = s.aluOp (fun _ x y => x - y) c (s.readReg a) (s.immAlu imm) := rfl

theorem exec_andi (s : State) (c a : Reg) (imm : BitVec 14) :
    exec (.andi c a imm) s = s.aluOp (fun _ x y => x &&& y) c (s.readReg a) (s.immAlu imm) := rfl

theorem exec_ori (s : State) (c a : Reg) (imm : BitVec 14) :
    exec (.ori c a imm) s = s.aluOp (fun _ x y => x ||| y) c (s.readReg a) (s.immAlu imm) := rfl

theorem exec_xori (s : State) (c a : Reg) (imm : BitVec 14) :
    exec (.xori c a imm) s = s.aluOp (fun _ x y => x ^^^ y) c (s.readReg a) (s.immAlu imm) := rfl

/-- Settles O24: each form is an ALU operation with the immediate as its second operand. -/
theorem immediateForms : Obligations.ImmediateForms := by
  intro s c a imm hc
  have himm := immSigned_value s (by decide) imm
  have hmul := aluOp_computes hc (exec_muli s c a imm)
  have hlow : low (s.immSigned imm) = BitVec.ofInt 32 imm.toInt := himm.1
  rw [mul_eq_ofInt, hlow, mul_ofInt] at hmul
  exact ⟨⟨_, himm, hmul⟩, s.immAlu imm, immBy_value s _ (by decide) imm, aluOp_computes hc (exec_addi s c a imm),
    aluOp_computes hc (exec_subi s c a imm), aluOp_computes hc (exec_andi s c a imm),
    aluOp_computes hc (exec_ori s c a imm), aluOp_computes hc (exec_xori s c a imm)⟩

/-! ## Division (R282, R283) -/

theorem toInt_intMin_of_pos {w : Nat} (hw : 0 < w) : (BitVec.intMin w).toInt = -(2 ^ (w - 1) : Int) := by
  have hlt : 2 ^ (w - 1) < 2 ^ w := Nat.pow_lt_pow_right (by decide) (by omega)
  rw [BitVec.toInt_intMin, Nat.mod_eq_of_lt hlt]
  simp

/-- A division that has a result is none of the two corner cases. -/
theorem divCornerCase_of_divides {w : Nat} (hw : 0 < w) {a b : BitVec w} (h : Divides a b) :
    divCornerCase a b = false := by
  obtain ⟨hzero, hmin⟩ := h
  have hb : b ≠ 0 := by
    rintro rfl
    exact hzero BitVec.toInt_zero
  have hcorner : ¬ (a = BitVec.intMin w ∧ b = BitVec.allOnes w) := by
    rintro ⟨rfl, rfl⟩
    exact hmin ⟨toInt_intMin_of_pos hw, by rw [BitVec.toInt_allOnes, if_pos hw]⟩
  rw [divCornerCase, Bool.or_eq_false_iff]
  exact ⟨beq_false_of_ne hb, by simpa using hcorner⟩

/-- Rounding down, a quotient by a positive divisor lies where its dividend does. -/
theorem fdiv_bounds_of_pos {a b M : Int} (hM : 0 ≤ M) (hb : 0 < b) (hlow : -M ≤ a) (hhigh : a < M * b) :
    -M ≤ a.fdiv b ∧ a.fdiv b < M := by
  rw [Int.fdiv_eq_ediv_of_nonneg a hb.le]
  exact ⟨(Int.le_ediv_iff_mul_le hb).mpr (by nlinarith), (Int.ediv_lt_iff_lt_mul hb).mpr hhigh⟩

/-- So a quotient has a value of the operating width unless -1 divides the most negative one. -/
theorem fdiv_bounds {a b M : Int} (hlow : -M ≤ a) (hhigh : a < M) (hb : b ≠ 0) (hcorner : ¬ (a = -M ∧ b = -1)) :
    -M ≤ a.fdiv b ∧ a.fdiv b < M := by
  rcases lt_or_gt_of_ne hb with hneg | hpos
  · rw [← Int.neg_fdiv_neg]
    refine fdiv_bounds_of_pos (by omega) (by omega) (by omega) ?_
    rcases eq_or_ne b (-1) with rfl | hb1
    · omega
    · have : 2 ≤ -b := by omega
      nlinarith
  · exact fdiv_bounds_of_pos (by omega) hpos hlow (by nlinarith)

/-- The quotient of a division that has a result is a value of the width. -/
theorem toInt_divide {r : DivRound} {op : DivOp} {w : Nat} {a b : BitVec w} (hw : 0 < w) (h : Divides a b) :
    (divide r op a b).toInt = quotient r a.toInt b.toInt := by
  rw [divide, divCornerCase_of_divides hw h, if_neg Bool.false_ne_true]
  obtain ⟨hzero, hmin⟩ := h
  cases r with
  | trunc =>
    have hne : a ≠ BitVec.intMin w ∨ b ≠ -1#w := by
      by_contra! hab
      obtain ⟨rfl, rfl⟩ := hab
      exact hmin ⟨toInt_intMin_of_pos hw, by rw [BitVec.neg_one_eq_allOnes, BitVec.toInt_allOnes, if_pos hw]⟩
    rw [quotient, ← BitVec.toInt_sdiv_of_ne_or_ne a b hne, BitVec.ofInt_toInt]
  | floor =>
    obtain ⟨hlow, hhigh⟩ := fdiv_bounds (BitVec.le_toInt a) BitVec.toInt_lt hzero hmin
    exact BitVec.toInt_ofInt_eq_self hw hlow hhigh

/-- The remainder by its own rule (R282). -/
theorem remainder_trunc (a b : Int) : remainder .trunc a b = a.tmod b := by
  rw [remainder, quotient, Int.tmod_def, Int.mul_comm]

theorem remainder_floor (a b : Int) : remainder .floor a b = a.fmod b := by
  rw [remainder, quotient, Int.fmod_def, Int.mul_comm]

/-- The remainder of a division that has a result is a value of the width. -/
theorem toInt_modulo {r : DivRound} {op : DivOp} {w : Nat} {a b : BitVec w} (hw : 0 < w) (h : Divides a b) :
    (modulo r op a b).toInt = remainder r a.toInt b.toInt := by
  rw [modulo, divCornerCase_of_divides hw h, if_neg Bool.false_ne_true]
  cases r with
  | trunc => rw [remainder_trunc, ← BitVec.toInt_srem, BitVec.ofInt_toInt]
  | floor => rw [remainder_floor, ← BitVec.toInt_smod, BitVec.ofInt_toInt]

theorem divide_isQuotient (r : DivRound) (op : DivOp) {w : Nat} (hw : 0 < w) (a b : BitVec w) :
    IsQuotient r a b (divide r op a b) := by
  intro h
  rw [toInt_divide hw h]
  cases r <;> rfl

theorem modulo_isRemainder (r : DivRound) (op : DivOp) {w : Nat} (hw : 0 < w) (a b : BitVec w) :
    IsRemainder r a b (modulo r op a b) := by
  intro h
  rw [toInt_modulo hw h]
  cases r
  · exact remainder_trunc _ _
  · exact remainder_floor _ _

theorem exec_div (s : State) (c a b : Reg) :
    exec (.div c a b) s =
      s.aluOp (fun _ x y => divide s.cfg.divRound .div x y) c (s.readReg a) (s.readReg b) := rfl

theorem exec_mod (s : State) (c a b : Reg) :
    exec (.mod c a b) s =
      s.aluOp (fun _ x y => modulo s.cfg.divRound .mod x y) c (s.readReg a) (s.readReg b) := rfl

theorem exec_divi (s : State) (c a : Reg) (imm : BitVec 14) :
    exec (.divi c a imm) s =
      s.aluOp (fun _ x y => divide s.cfg.divRound .divi x y) c (s.readReg a) (s.immSigned imm) := rfl

theorem exec_modi (s : State) (c a : Reg) (imm : BitVec 14) :
    exec (.modi c a imm) s =
      s.aluOp (fun _ x y => modulo s.cfg.divRound .modi x y) c (s.readReg a) (s.immSigned imm) := rfl

/-- Settles O26: each form is an ALU operation whose value is a quotient or a remainder. -/
theorem divideForms : Obligations.DivideForms := by
  intro s c a b imm hc
  have himm := immSigned_value s (by decide) imm
  have hlow : low (s.immSigned imm) = imm.signExtend 32 := himm.1
  refine ⟨⟨_, _, aluOp_computes hc (exec_div s c a b), divide_isQuotient _ .div (by decide) _ _,
      divide_isQuotient _ .div (by decide) _ _⟩,
    ⟨_, _, aluOp_computes hc (exec_mod s c a b), modulo_isRemainder _ .mod (by decide) _ _,
      modulo_isRemainder _ .mod (by decide) _ _⟩,
    ⟨_, _, _, himm, aluOp_computes hc (exec_divi s c a imm), divide_isQuotient _ .divi (by decide) _ _, ?_⟩,
    ⟨_, _, _, himm, aluOp_computes hc (exec_modi s c a imm), modulo_isRemainder _ .modi (by decide) _ _, ?_⟩⟩
  · rw [← hlow]
    exact divide_isQuotient _ .divi (by decide) _ _
  · rw [← hlow]
    exact modulo_isRemainder _ .modi (by decide) _ _

/-- Truncating, the remainder is smaller than the divisor and has the sign of the dividend. -/
theorem tmod_law (a : Int) {b : Int} (hb : b ≠ 0) :
    (a.tmod b).natAbs < b.natAbs ∧ (a.tmod b = 0 ∨ (0 < a.tmod b ↔ 0 < a)) := by
  refine ⟨?small, ?sign⟩
  case small =>
    rw [Int.natAbs_tmod]
    exact Nat.mod_lt _ (by omega)
  case sign =>
    rcases lt_trichotomy a 0 with hneg | rfl | hpos
    · have hnonneg := Int.tmod_nonneg b (by omega : 0 ≤ -a)
      rw [Int.neg_tmod] at hnonneg
      omega
    · exact .inl (Int.zero_tmod b)
    · have hnonneg := Int.tmod_nonneg b hpos.le
      omega

/-- Rounding down, it is smaller than the divisor and has the divisor's sign. -/
theorem fmod_law (a : Int) {b : Int} (hb : b ≠ 0) :
    (a.fmod b).natAbs < b.natAbs ∧ (a.fmod b = 0 ∨ (0 < a.fmod b ↔ 0 < b)) := by
  rcases lt_or_gt_of_ne hb with hneg | hpos
  · have hnonneg := Int.fmod_nonneg_of_pos (-a) (by omega : 0 < -b)
    have hlt := Int.fmod_lt_of_pos (-a) (by omega : 0 < -b)
    rw [Int.neg_fmod_neg] at hnonneg hlt
    omega
  · have hnonneg := Int.fmod_nonneg_of_pos a hpos
    have hlt := Int.fmod_lt_of_pos a hpos
    omega

/-- Settles O27: the remainder is the dividend less quotient times divisor, and the laws of the two roundings. -/
theorem divisionLaw : Obligations.DivisionLaw := by
  intro r d m w a b hw h
  rw [toInt_divide hw h, toInt_modulo hw h]
  refine ⟨by rw [remainder]; omega, ?_⟩
  cases r with
  | trunc =>
    rw [remainder_trunc]
    exact tmod_law a.toInt h.1
  | floor =>
    rw [remainder_floor]
    exact fmod_law a.toInt h.1

end Sys2Proof.Machine
end

section
/-! Proofs for `44_shifts.md`, `40_move_upper.md`, `47_ext64.md` R265 and R266, and `46_pseudo.md`: shifts and rotations
at either width, the moves, and the expansions of MVI, PSH and POP. An expansion is run one instruction after another, each
by what it writes (`WritesReg`). -/

namespace Sys2Proof.Machine

open Sys2Proof

/-! ## Shifts and rotations (R210 to R217) -/

/-- Each bit of a value shifted or rotated by less than its width is the one the rule names. -/
theorem shiftValue_bit (op : ShiftOp) {w : Nat} (x : BitVec w) {n i : Nat} (hn : n < w) (hi : i < w) :
    (shiftValue op x n).getLsbD i = shiftedBit op x n i := by
  cases op with
  | shr =>
    refine ((shr_result x n).2 i hi).trans (if_congr ?_ rfl rfl)
    omega
  | asr =>
    change (x.sshiftRight n).getLsbD i = if i + n < w then x.getLsbD (i + n) else x.getLsbD (w - 1)
    rw [BitVec.getLsbD_sshiftRight, decide_eq_false (Nat.not_le_of_lt hi), Bool.not_false, Bool.true_and,
      Nat.add_comm n i, BitVec.msb_eq_getLsbD_last]
  | shl => exact (shl_result x n).2 i hi
  | asl => exact (shl_result x n).2 i hi
  | ror => exact getLsbD_rotateRight_of_lt x hn hi
  | rol => exact getLsbD_rotateLeft_of_lt x hn hi

/-- Settles O29: the instruction computes the operation's value at the operating width, bit by bit. -/
theorem shiftForms : Obligations.ShiftForms := by
  intro s op c a n hc hn
  have hexec := (exec_shiftOf s op c a n).trans (shiftInstr_next.mpr (.inl ⟨hn, retire_next.mpr ⟨hc, rfl⟩⟩))
  refine ⟨_, _, ⟨_, _, hexec, writesReg_setReg_advance s c _,
    resultAt_value1 s s.shiftWidth c (fun _ x => shiftValue op x n.toNat) (s.readReg a)⟩,
    fun hw i hi => ?_, fun hw i hi => ?_⟩
  · rw [hw] at hn
    exact shiftValue_bit op _ hn hi
  · rw [hw] at hn
    exact shiftValue_bit op _ hn hi

/-- Settles O31: the two treatments of a count that is too large. -/
theorem shiftCountTooLarge : Obligations.ShiftCountTooLarge := by
  intro s op c a n hn
  refine ⟨fun hover => exec_shiftOf_refuse hover op c a hn, fun hover hc => ?_⟩
  have hexec := (exec_shiftOf s op c a n).trans (shiftInstr_next.mpr (.inr ⟨hn, hover, retire_next.mpr ⟨hc, rfl⟩⟩))
  exact ⟨_, _, hexec, writesReg_setReg_advance s c _⟩

/-- A count of 0 gives the operand (R211). -/
theorem shiftValue_zero (op : ShiftOp) {w : Nat} (x : BitVec w) : shiftValue op x 0 = x := by
  cases op with
  | shr => exact BitVec.ushiftRight_zero x
  | asr => exact BitVec.sshiftRight_zero
  | shl => exact BitVec.shiftLeft_zero x
  | asl => exact BitVec.shiftLeft_zero x
  | ror => exact rotateRight_zero x
  | rol => exact rotateLeft_zero x

/-- A rotation left undoes the rotation right by the same count (R217). -/
theorem rotateLeft_rotateRight {w : Nat} (x : BitVec w) {n : Nat} (hn : n < w) :
    (x.rotateRight n).rotateLeft n = x := by
  apply BitVec.eq_of_getLsbD_eq
  intro i hi
  have hidx : ((i + w - n) % w + n) % w = i := by
    rw [Nat.mod_add_mod, Nat.sub_add_cancel (by omega), Nat.add_mod_right, Nat.mod_eq_of_lt hi]
  rw [getLsbD_rotateLeft_of_lt _ hn hi, getLsbD_rotateRight_of_lt _ hn (Nat.mod_lt _ (by omega)), hidx]

/-- Shifting left and right again loses the bits that left at the top. -/
theorem shiftLeft_ushiftRight_toNat {w : Nat} (x : BitVec w) (n : Nat) :
    (x <<< n >>> n).toNat = x.toNat % 2 ^ (w - n) := by
  rw [BitVec.toNat_ushiftRight, BitVec.toNat_shiftLeft, Nat.shiftLeft_eq, Nat.shiftRight_eq_div_pow]
  rcases Nat.le_total n w with hle | hle
  · have hpow : 2 ^ w = 2 ^ (w - n) * 2 ^ n := by rw [← pow_add, Nat.sub_add_cancel hle]
    rw [hpow, Nat.mul_mod_mul_right, Nat.mul_div_cancel _ (Nat.two_pow_pos n)]
  · have hdvd : 2 ^ w ∣ x.toNat * 2 ^ n := (pow_dvd_pow 2 hle).mul_left _
    rw [Nat.mod_eq_zero_of_dvd hdvd, Nat.zero_div, Nat.sub_eq_zero_of_le hle, pow_zero, Nat.mod_one]

/-- Settles O32, law by law. -/
theorem shiftLaws : Obligations.ShiftLaws := by
  refine ⟨fun op w x => shiftValue_zero op x, fun s c a n hn => ?asl, fun w x n hn => rotateLeft_rotateRight x hn,
    fun w x n => shiftLeft_ushiftRight_toNat x n⟩
  case asl =>
    change s.shiftInstr .asl c a n = s.shiftInstr .shl c a n
    rw [State.shiftInstr, State.shiftInstr, if_pos hn, if_pos hn]
    rfl

/-! ## Moves (R140, R141, R265, R266) -/

theorem exec_mvu (s : State) (c : Reg) (imm : BitVec 22) :
    exec (.mvu c imm) s = s.retire c (s.fillUpper s.cfg.mvuUpper (s.readReg c) (imm ++ (0 : BitVec 10))) := rfl

/-- Settles O33: the 32-bit result is the immediate above ten zeros. -/
theorem moveUpper : Obligations.MoveUpper := by
  intro s c imm hc
  refine ⟨_, _, imm ++ (0 : BitVec 10), (exec_mvu s c imm).trans (retire_next.mpr ⟨hc, rfl⟩),
    writesReg_setReg_advance s c _, fillUpper_narrow s _ _ _, ?_⟩
  exact (append_toNat imm (0 : BitVec 10)).trans (Nat.add_zero _)

/-- MVU.HH places its immediate in bits 63 to 42, and keeps or clears the others (R265). -/
theorem placeHighHigh_bits (o : OtherBits) (old : Word) (imm : BitVec 22) :
    (placeHighHigh o old imm).extractLsb' 42 22 = imm ∧
      (placeHighHigh o old imm).extractLsb' 0 42 = match o with
        | .keep => old.extractLsb' 0 42
        | .zero => 0 := by
  cases o
  · exact ⟨extract_append_upper imm _, extract_append_lower imm _⟩
  · exact ⟨extract_append_upper imm _, extract_append_lower imm _⟩

/-- MVU.HL places its immediate in bits 53 to 32, and keeps or clears the others (R266). -/
theorem placeHighLow_bits (o : OtherBits) (old : Word) (imm : BitVec 22) :
    (placeHighLow o old imm).extractLsb' 32 22 = imm ∧
      ((placeHighLow o old imm).extractLsb' 54 10 = match o with
        | .keep => old.extractLsb' 54 10
        | .zero => 0) ∧
      (placeHighLow o old imm).extractLsb' 0 32 = match o with
        | .keep => old.extractLsb' 0 32
        | .zero => 0 := by
  have place : ∀ (x : BitVec 10) (y : BitVec 32), (x ++ imm ++ y).extractLsb' 32 22 = imm ∧
      (x ++ imm ++ y).extractLsb' 54 10 = x ∧ (x ++ imm ++ y).extractLsb' 0 32 = y := fun x y =>
    ⟨(extract_append_above (x ++ imm) y 0 22).trans (extract_append_lower x imm),
      (extract_append_above (x ++ imm) y 22 10).trans (extract_append_upper x imm), extract_append_lower _ y⟩
  cases o
  · exact place _ _
  · exact place _ _

/-- Settles O34: each of the two writes its destination with the value placed. -/
theorem moveUpperHigh : Obligations.MoveUpperHigh := by
  intro s c imm hgate hc
  obtain ⟨hhImm, hhOther⟩ := placeHighHigh_bits s.cfg.mvuhOther (s.readReg c) imm
  obtain ⟨hlImm, hlAbove, hlBelow⟩ := placeHighLow_bits s.cfg.mvuhOther (s.readReg c) imm
  have hhExec := (exec_mvuHh hgate c imm).trans (retire_next.mpr ⟨hc, rfl⟩)
  have hlExec := (exec_mvuHl hgate c imm).trans (retire_next.mpr ⟨hc, rfl⟩)
  exact ⟨⟨_, _, hhExec, writesReg_setReg_advance s c _, hhImm, hhOther⟩,
    _, _, hlExec, writesReg_setReg_advance s c _, hlImm, hlAbove, hlBelow⟩

/-! ## One instruction after another -/

/-- A register that accepts a write does not refuse it (D7). -/
theorem refusesWrite_of_accepts {s : State} {r : Reg} (h : s.accepts r = true) : s.refusesWrite r = false := by
  cases r <;> simp_all [State.accepts, State.refusesWrite]

/-- Which registers accept a write depends on the status bits, and which refuse it on the implementation too. -/
theorem accepts_congr {s t : State} (hsr : t.sr = s.sr) (r : Reg) : t.accepts r = s.accepts r := by
  cases r <;> simp only [State.accepts, hsr]

theorem refusesWrite_congr {s t : State} (hsr : t.sr = s.sr) (hcfg : t.cfg = s.cfg) (r : Reg) :
    t.refusesWrite r = s.refusesWrite r := by
  rw [State.refusesWrite, State.refusesWrite, hsr, hcfg]

/-- The low half of a value cut to the register width. -/
theorem low_trim (cfg : Config) (v : Word) : low (trim cfg v) = low v := by
  unfold trim
  split
  · rfl
  · exact low_setWidth (low v)

namespace WritesReg

variable {s t : State} {c : Reg} {v : Word}

theorem pc (h : WritesReg s t c v) : t.pc = s.nextPc :=
  have ⟨_, hpc, _⟩ := h
  hpc

theorem sr (h : WritesReg s t c v) : t.sr = s.sr :=
  have ⟨_, _, hsr, _⟩ := h
  hsr

theorem memory (h : WritesReg s t c v) : SameMemory s t :=
  have ⟨_, _, _, hmem, _⟩ := h
  hmem

theorem cfg (h : WritesReg s t c v) : t.cfg = s.cfg :=
  have ⟨_, _, _, _, _, _, hcfg⟩ := h
  hcfg

/-- The register written reads the value. -/
theorem readReg (h : WritesReg s t c v) (hacc : s.accepts c = true) : t.readReg c = trim s.cfg v := by
  rw [readReg_of_accepts hacc, h.1 c, if_pos ⟨rfl, hacc⟩, h.cfg, trim_trim]

/-- Every other stored register is as it was. -/
theorem get_other (h : WritesReg s t c v) {r : Reg} (hr : r ≠ c) : t.regs.get r = s.regs.get r :=
  (h.1 r).trans (if_neg fun hc => hr hc.1)

theorem readReg_other (h : WritesReg s t c v) {r : Reg} (hr : r ≠ c) (hacc : s.accepts r = true) :
    t.readReg r = s.readReg r := by
  rw [readReg_of_accepts hacc, readReg_of_accepts hacc, h.get_other hr, h.cfg]

theorem accepts (h : WritesReg s t c v) (r : Reg) : t.accepts r = s.accepts r := accepts_congr h.sr r

theorem quadGated (h : WritesReg s t c v) : t.quadGated = s.quadGated := by
  rw [State.quadGated, State.quadGated, h.sr, h.cfg]

end WritesReg

/-- `t` is `s` but for register `c` and the program counter. -/
def OnlyReg (s t : State) (c : Reg) : Prop :=
  (∀ r : Reg, r ≠ c → t.regs.get r = s.regs.get r) ∧ t.sr = s.sr ∧ SameMemory s t

theorem WritesReg.onlyReg {s t : State} {c : Reg} {v : Word} (h : WritesReg s t c v) : OnlyReg s t c :=
  ⟨fun _ hr => h.get_other hr, h.sr, h.memory⟩

theorem OnlyReg.trans {s t u : State} {c : Reg} (h : OnlyReg s t c) (h' : OnlyReg t u c) : OnlyReg s u c := by
  obtain ⟨hregs, hsr, hmem⟩ := h
  obtain ⟨hregs', hsr', hmem'⟩ := h'
  exact ⟨fun r hr => (hregs' r hr).trans (hregs r hr), hsr'.trans hsr, fun a => (hmem' a).trans (hmem a)⟩

/-! ## MVI (R250) and the 64-bit constant (R266) -/

/-- An immediate below half its range has its own value, however it is extended (R113, R272). -/
theorem low_immBy {s : State} {ext : ImmExt} {n : Nat} (hn : n ≤ 32) {imm : BitVec n} (himm : 2 * imm.toNat < 2 ^ n) :
    low (s.immBy ext imm) = imm.setWidth 32 := by
  obtain ⟨hlow, -⟩ := immBy_value s ext hn imm
  have hint : immInt ext imm = imm.toNat := by
    cases ext
    · rfl
    · exact BitVec.toInt_eq_toNat_of_lt himm
  rw [hlow, hint, BitVec.ofInt_natCast, BitVec.ofNat_toNat]

/-- ADDI leaves the sum of the low halves in the low half of its destination, at either width. -/
theorem addi_low {s : State} {c : Reg} (hc : s.refusesWrite c = false) (a : Reg) (imm : BitVec 14) :
    ∃ t v, exec (.addi c a imm) s = .next t ∧ WritesReg s t c v ∧ low v = low (s.readReg a) + low (s.immAlu imm) := by
  obtain ⟨t, v, hexec, hwrites, hvalue⟩ := aluOp_computes hc (exec_addi s c a imm)
  refine ⟨t, v, hexec, hwrites, ?_⟩
  cases hw : s.aluWidth with
  | w32 =>
    rw [hw] at hvalue
    exact hvalue.1
  | w64 =>
    rw [hw] at hvalue
    have hv : v = s.readReg a + s.immAlu imm := hvalue
    rw [hv]
    exact BitVec.setWidth_add _ _ (by decide)

/-- The two instructions of MVI run one after the other, and leave the constant in the low half. -/
theorem mvi_runs {s : State} {d : Reg} (hacc : s.accepts d = true) (k : BitVec 32) :
    ∃ t, execAll (Pseudo.mvi d k).expand s t ∧ low (t.readReg d) = k ∧ OnlyReg s t d ∧ t.cfg = s.cfg ∧
      t.pc.toNat = (s.pc.toNat + 8) % 2 ^ s.cfg.aw := by
  obtain ⟨u, v, r, hmvu, hu, ⟨hlow, -⟩, hr⟩ := moveUpper s d (k.extractLsb' 10 22) (refusesWrite_of_accepts hacc)
  have hacc' : u.accepts d = true := (hu.accepts d).trans hacc
  obtain ⟨t, v', haddi, ht, hlow'⟩ := addi_low (refusesWrite_of_accepts hacc') d ((k.extractLsb' 0 10).setWidth 14)
  refine ⟨t, ⟨u, hmvu, t, haddi, rfl⟩, ?value, hu.onlyReg.trans ht.onlyReg, ht.cfg.trans hu.cfg, ?pc⟩
  case value =>
    have hlt := (k.extractLsb' 0 10).isLt
    have hsmall : low (u.immAlu ((k.extractLsb' 0 10).setWidth 14)) = ((k.extractLsb' 0 10).setWidth 14).setWidth 32 :=
      low_immBy (by decide) (by rw [BitVec.toNat_setWidth]; omega)
    have hlowv : low v = r := hlow
    rw [ht.readReg hacc', low_trim, hlow', hu.readReg hacc, low_trim, hlowv, hsmall]
    apply BitVec.eq_of_toNat_eq
    simp only [BitVec.toNat_add, hr, BitVec.toNat_setWidth, BitVec.extractLsb'_toNat, Nat.shiftRight_eq_div_pow]
    omega
  case pc =>
    rw [ht.pc, nextPc_toNat, hu.cfg, hu.pc, nextPc_toNat, Nat.mod_add_mod]

/-- Settles O35, from the run of MVI. -/
theorem mviLoadsConstant : Obligations.MviLoadsConstant := by
  intro s d k hacc
  obtain ⟨t, hrun, hvalue, ⟨hregs, hsr, hmem⟩, -, hpc⟩ := mvi_runs hacc k
  exact ⟨t, hrun, hvalue, hregs, hsr, hmem, hpc⟩

/-- The slices of a 64-bit constant make it again. -/
theorem word_of_slices {k old v w : Word} (hlow : low old = k.extractLsb' 0 32)
    (hbelow : v.extractLsb' 0 32 = old.extractLsb' 0 32) (hmid : v.extractLsb' 32 22 = k.extractLsb' 32 22)
    (hrest : w.extractLsb' 0 42 = v.extractLsb' 0 42) (hhigh : w.extractLsb' 42 22 = k.extractLsb' 42 22) : w = k := by
  unfold low at hlow
  apply BitVec.eq_of_toNat_eq
  simp only [BitVec.toNat_eq, BitVec.toNat_setWidth, BitVec.extractLsb'_toNat, Nat.shiftRight_eq_div_pow] at *
  omega

/-- With the 64-bit extension a register holds 64 bits (R261). -/
theorem trim_of_extQ {cfg : Config} (hq : cfg.extQ = true) (v : Word) : trim cfg v = v := by
  rw [trim, if_pos hq]

/-- Settles O36: MVI gives bits 31 to 0, MVU.HL keeps them and gives bits 53 to 32, and MVU.HH keeps bits 41 to 0 and
gives the rest. -/
theorem constantOf64BitsLoads : Obligations.ConstantOf64BitsLoads := by
  intro s d k hq hkeep hgate hacc
  obtain ⟨u₁, ⟨u, hmvu, _, haddi, rfl⟩, hlow, honly, hcfg, -⟩ := mvi_runs hacc (k.extractLsb' 0 32)
  have ⟨_, hsr, _⟩ := honly
  have hacc₁ : u₁.accepts d = true := (accepts_congr hsr d).trans hacc
  have hgate₁ : u₁.quadGated = false := by rw [State.quadGated, hsr, hcfg]; exact hgate
  obtain ⟨-, u₂, v, hhl, hu₂, hmid, -, hbelow⟩ :=
    moveUpperHigh u₁ d (k.extractLsb' 32 22) hgate₁ (refusesWrite_of_accepts hacc₁)
  have hacc₂ : u₂.accepts d = true := (hu₂.accepts d).trans hacc₁
  obtain ⟨⟨t, w, hhh, ht, hhigh, hrest⟩, -⟩ :=
    moveUpperHigh u₂ d (k.extractLsb' 42 22) (hu₂.quadGated.trans hgate₁) (refusesWrite_of_accepts hacc₂)
  have hcfg₂ : u₂.cfg = s.cfg := hu₂.cfg.trans hcfg
  rw [hcfg, hkeep] at hbelow
  rw [hcfg₂, hkeep] at hrest
  obtain ⟨hregs, hsr', hmem⟩ := (honly.trans hu₂.onlyReg).trans ht.onlyReg
  refine ⟨t, ⟨u, hmvu, u₁, haddi, u₂, hhl, t, hhh, rfl⟩, ?_, hregs, hsr', hmem⟩
  rw [hu₂.readReg hacc₁, hcfg, trim_of_extQ hq] at hrest
  rw [ht.readReg hacc₂, hcfg₂, trim_of_extQ hq]
  exact word_of_slices hlow hbelow hmid hrest hhigh

/-! ## PSH and POP (R251, R252) -/

/-- Which accesses are admitted depends on the status bits and the implementation. -/
theorem admitted_congr {s t : State} (hsr : t.sr = s.sr) (hcfg : t.cfg = s.cfg) {a : Addr} {sz : Size} :
    Admitted t a sz ↔ Admitted s a sz := by
  unfold Admitted State.accessBase
  rw [hsr, hcfg]

/-- Without the 64-bit extension a register that accepts writes reads its low half (R24). -/
theorem readReg_base {s : State} (hq : s.cfg.extQ = false) {r : Reg} (hacc : s.accepts r = true) :
    s.readReg r = (low (s.readReg r)).setWidth 64 := by
  rw [readReg_of_accepts hacc, low_trim, trim, hq]
  rfl

/-- A displacement of zero leaves the base register's value as the address (R150). -/
theorem ea_zero_base {s : State} (hq : s.cfg.extQ = false) (a : Reg) : s.ea a 0 = wrap s.cfg (s.readReg a) := by
  have himm : s.immMem 0 = 0 := by
    rw [State.immMem, immBy_same (.inl hq) _ (by decide)]
    cases s.cfg.immExtMem <;> rfl
  rw [State.ea, himm, add_zero]

/-- What a double-word store and load hand over: the low half. -/
theorem low_loadValue_toBytes (o : ByteOrder) (ext : LoadExt) (old v : Word) :
    low (loadValue ext .dword old (ofBytes o (toBytes o 4 v))) = low v := by
  apply BitVec.eq_of_getLsbD_eq
  intro i hi
  have hlt : i < 8 * Size.dword.bytes := hi
  have hbit := ofBytes_toBytes o Size.dword.bytes (by decide) v i
  rw [decide_eq_true hlt, Bool.true_and] at hbit
  rw [low, low, BitVec.getLsbD_setWidth, BitVec.getLsbD_setWidth, loadValue_bit ext .dword old _ (by omega), if_pos hlt]
  exact congrArg _ hbit

/-- A double-word is loaded from where it was stored, if the load has the address of the store. -/
theorem ldd_after_std {s : State} {r a a' d : Reg} {imm imm' : BitVec 15} (hadm : Admitted s (s.ea a imm) .dword) :
    ∃ u, exec (.std r a imm) s = .next u ∧ SameRegs s u ∧ u.sr = s.sr ∧ u.cfg = s.cfg ∧
      (u.ea a' imm' = s.ea a imm → s.refusesWrite d = false →
        ∃ t v, exec (.ldd d a' imm') u = .next t ∧ WritesReg u t d v ∧ low v = low (s.readReg r)) := by
  refine ⟨_, storeOp_next.mpr ⟨hadm, rfl⟩, fun _ => rfl, rfl, rfl, fun hea hd => ?_⟩
  generalize hu : State.advance _ = u at hea ⊢
  have hadm' : Admitted u (u.ea a' imm') .dword := by
    rw [hea, ← hu]
    exact hadm
  refine ⟨_, _, loadOp_next.mpr ⟨hadm', by rw [← hu]; exact hd, rfl⟩, writesReg_setReg_advance u d _, ?_⟩
  have hbytes : u.mem.readBytes (u.accessBase (u.ea a' imm') .dword).toNat Size.dword.bytes =
      toBytes u.cfg.endian 4 (s.readReg r) := by
    rw [hea, ← hu]
    exact readBytes_writeBytes_toBytes _ _ _ _ _
  rw [hbytes]
  exact low_loadValue_toBytes _ _ _ _

/-- Without the 64-bit extension an ALU operation leaves its 32-bit result in the low half. -/
theorem aluOp_base_low {s : State} {c : Reg} (hq : s.cfg.extQ = false) (hc : s.refusesWrite c = false) {i : Instr}
    {f : (n : Nat) → BitVec n → BitVec n → BitVec n} {x y : Word} (hi : exec i s = s.aluOp f c x y) :
    ∃ t v, exec i s = .next t ∧ WritesReg s t c v ∧ low v = f 32 (low x) (low y) := by
  obtain ⟨t, v, hexec, hwrites, hvalue⟩ := aluOp_computes hc hi
  rw [aluWidth_base hq] at hvalue
  exact ⟨t, v, hexec, hwrites, hvalue.1⟩

/-- Settles O37: SP is lowered, the value stored and loaded at the same slot, and SP is raised by as much. -/
theorem pushThenPop : Obligations.PushThenPop := by
  intro s source d hq _ hd hadm
  have hfour : ∀ x : State, low (x.immAlu 4) = 4 := fun x => low_immBy (by decide) (by decide)
  obtain ⟨u, v, hsubi, hu, hv⟩ := aluOp_base_low hq (c := .sp) rfl (exec_subi s .sp .sp 4)
  have hsp : low (u.readReg .sp) = low (s.readReg .sp) - 4 := by
    rw [hu.readReg rfl, low_trim, hv, hfour]
  have hslot : u.ea .sp 0 = wrap s.cfg ((low (s.readReg .sp) - 4).setWidth 64) := by
    rw [ea_zero_base (hu.cfg ▸ hq), readReg_base (hu.cfg ▸ hq) rfl, hsp, hu.cfg]
  have hadmU : Admitted u (u.ea .sp 0) .dword := by
    rw [hslot]
    exact (admitted_congr hu.sr hu.cfg).mpr hadm
  obtain ⟨w, hstd, hregs, hsr, hcfg, hload⟩ :=
    ldd_after_std (r := source) (d := d) (a' := .sp) (imm' := 0) hadmU
  have hqU : u.cfg.extQ = false := hu.cfg ▸ hq
  have hqW : w.cfg.extQ = false := hcfg ▸ hqU
  have hspW : w.readReg .sp = u.readReg .sp := by
    rw [readReg_of_accepts (s := u) rfl, readReg_of_accepts (s := u) rfl, hregs .sp, hcfg]
  have heaW : w.ea .sp 0 = u.ea .sp 0 := by rw [ea_zero_base hqW, ea_zero_base hqU, hspW, hcfg]
  obtain ⟨p, x, hldd, hp, hx⟩ := hload heaW ((refusesWrite_congr hu.sr hu.cfg d).trans hd)
  have hqP : p.cfg.extQ = false := hp.cfg ▸ hqW
  obtain ⟨t, y, haddi, ht, hy⟩ := aluOp_base_low hqP (c := .sp) rfl (exec_addi p .sp .sp 4)
  have hspT : low (t.readReg .sp) = low (p.readReg .sp) + 4 := by
    rw [ht.readReg rfl, low_trim, hy, hfour]
  refine ⟨u, t, hsubi, hsp, ⟨u, hsubi, w, hstd, p, hldd, t, haddi, rfl⟩, fun hacc hne => ?dest, fun hne => ?back,
    fun heq => ?popSp⟩
  case dest =>
    have haccW : w.accepts d = true := (accepts_congr (hsr.trans hu.sr) d).trans hacc
    rw [ht.readReg_other hne ((hp.accepts d).trans haccW), hp.readReg haccW, low_trim, hx]
  case back =>
    have hqT : t.cfg.extQ = false := ht.cfg ▸ hqP
    have hback : low (t.readReg .sp) = low (s.readReg .sp) := by
      rw [hspT, hp.readReg_other (Ne.symm hne) rfl, hspW, hsp, BitVec.sub_add_cancel]
    rw [readReg_base hqT rfl, readReg_base hq rfl, hback]
  case popSp =>
    subst heq
    rw [hspT, hp.readReg rfl, low_trim, hx]

end Sys2Proof.Machine
end

section
/-! Proofs for `42_jumps.md`: JMP, the relations the conditional jumps test (R171, R172), and the loop that ends a run
(R355). -/

namespace Sys2Proof.Machine

open Sys2Proof

/-! ## JMP (R170, R174) -/

theorem exec_jmp (s : State) (c : Reg) (imm : BitVec 15) :
    exec (.jmp c imm) s = .next (s.jumpTo c (s.immSigned imm)) := rfl

/-- A jump that is taken changes `pc` alone. -/
theorem onlyPc_jumpTo (s : State) (c : Reg) (offset : Word) : OnlyPc s (s.jumpTo c offset) (s.target c offset) :=
  ⟨rfl, fun _ => rfl, rfl, fun _ => rfl, rfl, rfl, rfl⟩

/-- And so does the advance to the next address. -/
theorem onlyPc_advance (s : State) : OnlyPc s s.advance s.nextPc :=
  ⟨rfl, fun _ => rfl, rfl, fun _ => rfl, rfl, rfl, rfl⟩

/-- Settles O38: the target is a wrapped sum with the offset's value. -/
theorem jumpCompletes : Obligations.JumpCompletes := by
  intro s c imm
  refine ⟨_, s.immSigned imm, exec_jmp s c imm, immSigned_value s (by decide) imm, onlyPc_jumpTo s c _,
    wrap_add_toNat _ _ _, fun hsame => ?_⟩
  rw [State.jumpTo_pc, State.target, State.immSigned, immBy_same hsame _ (by decide)]
  exact wrap_add_ofInt _ _ _

/-! ## The conditions as relations (R171, R172) -/

theorem condZ_iff {w : Nat} {a b : BitVec w} : condZ a b = true ↔ a = b := by
  rw [condZ, beq_iff_eq]
  exact sub_eq_zero

theorem condC_iff (isBorrow : Bool) {w : Nat} {a b : BitVec w} :
    condC isBorrow a b = true ↔ if isBorrow then a.toNat < b.toNat else b.toNat ≤ a.toNat := by
  cases isBorrow <;> simp [condC, BitVec.ult]

theorem msb_true_iff {w : Nat} {x : BitVec w} : x.msb = true ↔ x.toInt < 0 := by
  rw [BitVec.msb_eq_toInt, decide_eq_true_iff]

theorem msb_false_iff {w : Nat} {x : BitVec w} : x.msb = false ↔ 0 ≤ x.toInt := by
  rw [← Bool.not_eq_true, msb_true_iff, not_lt]

theorem condS_iff {w : Nat} {a b : BitVec w} : condS a b = true ↔ (a - b).toInt < 0 := msb_true_iff

/-- Overflow of the subtraction is the sign rule of R171. -/
theorem condV_eq {w : Nat} (a b : BitVec w) : condV a b = a.ssubOverflow b := by
  rw [BitVec.ssubOverflow_eq, condV]
  cases a.msb <;> cases b.msb <;> cases (a - b).msb <;> rfl

theorem condV_iff {w : Nat} {a b : BitVec w} : condV a b = true ↔
    a.toInt - b.toInt < -(2 ^ (w - 1) : Int) ∨ (2 ^ (w - 1) : Int) ≤ a.toInt - b.toInt := by
  rw [condV_eq, BitVec.ssubOverflow, Bool.or_eq_true, decide_eq_true_iff, decide_eq_true_iff, or_comm]

/-- A condition holds exactly when its relation does. -/
theorem condOf_iff (isBorrow : Bool) (f : Cond) {w : Nat} {a b : BitVec w} :
    condOf isBorrow f a b = true ↔ Relation isBorrow f a b := by
  cases f
  · exact condZ_iff
  · exact condC_iff isBorrow
  · exact condS_iff
  · exact condV_iff

/-- What a conditional jump tests is its relation at the width of the comparison (R262). -/
theorem cond_iff {s : State} {f : Cond} {a b : Reg} : s.cond f a b = true ↔ Tests s f a b := by
  unfold State.cond Tests
  cases s.compareWidth
  · exact condOf_iff _ f
  · exact condOf_iff _ f

theorem not_cond_iff {s : State} {f : Cond} {a b : Reg} : (!s.cond f a b) = true ↔ ¬ Tests s f a b := by
  rw [← cond_iff, Bool.not_eq_true', Bool.not_eq_true]

/-- A conditional jump goes to its target where its condition holds, and else to the next address. -/
theorem condJump_jumpsWhen {s : State} {i : Instr} {holds : Bool} {c : Reg} {imm : BitVec 9} {p : Prop}
    (hi : exec i s = s.condJump holds c imm) (hp : holds = true ↔ p) :
    JumpsWhen i s p (s.target c (s.immSigned imm)) := by
  refine ⟨_, hi.trans (condJump_next.mpr rfl), fun h => ?taken, fun h => ?notTaken⟩
  case taken =>
    rw [if_pos (hp.mpr h)]
    exact onlyPc_jumpTo s c _
  case notTaken =>
    rw [if_neg (mt hp.mp h)]
    exact onlyPc_advance s

/-- Settles O39: the eight are one operation, with a condition or its negation. -/
theorem conditionalJumps : Obligations.ConditionalJumps := fun s _ _ _ imm =>
  ⟨s.immSigned imm, immSigned_value s (by decide) imm, condJump_jumpsWhen rfl cond_iff, condJump_jumpsWhen rfl cond_iff,
    condJump_jumpsWhen rfl cond_iff, condJump_jumpsWhen rfl cond_iff, condJump_jumpsWhen rfl not_cond_iff,
    condJump_jumpsWhen rfl not_cond_iff, condJump_jumpsWhen rfl not_cond_iff, condJump_jumpsWhen rfl not_cond_iff⟩

/-- Without overflow the difference is that of the integers. -/
theorem toInt_sub_of_not_condV {w : Nat} {a b : BitVec w} (h : ¬ condV a b = true) :
    (a - b).toInt = a.toInt - b.toInt :=
  BitVec.toInt_sub_of_not_ssubOverflow (by rwa [← condV_eq])

/-- Settles O40: without overflow S is the sign of the difference; with it, the signs of the operands differ, and S is
that of the subtrahend. -/
theorem signedLessThan : Obligations.SignedLessThan := by
  intro w a b _
  by_cases hv : condV a b = true
  · have hsigns := hv
    rw [condV, Bool.and_eq_true, bne_iff_ne, bne_iff_ne] at hsigns
    obtain ⟨hab, hdiff⟩ := hsigns
    have hS : condS a b = !a.msb := Bool.eq_not.mpr hdiff
    have hb : b.msb = !a.msb := Bool.eq_not.mpr hab.symm
    rw [hv, hS, Bool.bne_true, Bool.not_not]
    cases hm : a.msb with
    | true =>
      rw [hm] at hb
      exact iff_of_true rfl ((msb_true_iff.mp hm).trans_le (msb_false_iff.mp hb))
    | false =>
      rw [hm] at hb
      exact iff_of_false Bool.false_ne_true (((msb_true_iff.mp hb).trans_le (msb_false_iff.mp hm)).not_gt)
  · have hs := condS_iff (a := a) (b := b)
    rw [toInt_sub_of_not_condV hv] at hs
    rw [Bool.eq_false_iff.mpr hv, Bool.bne_false, hs]
    omega

/-! ## The end of a run (R355) -/

/-- A machine at a `JMP PC, 0` that no reset and no taken interrupt disturbs (the hypotheses of `HaltLoopIsForever`). -/
structure HaltLoop (s : State) : Prop where
  inv : Inv s
  ended : s.ended
  offset : s.cfg.pcReadOffset = .zero
  noReset : ∀ x ∈ s.inputs, x.reset = false
  noInterrupt : s.sr.i = false ∨ (s.sr.k = true ∧ s.cfg.intWhenK = false)
  upper : s.cfg.immExt64 ≠ .any ∨ s.cfg.awExtra = 0

namespace HaltLoop

variable {s : State}

/-- The next boundary finds the machine as this one did. -/
theorem beginStep (h : HaltLoop s) : HaltLoop s.beginStep :=
  ⟨h.inv.beginStep, h.ended, h.offset, fun x hx => h.noReset x (List.mem_of_mem_tail hx), h.noInterrupt, h.upper⟩

/-- No reset comes at this boundary. -/
theorem sample_reset (h : HaltLoop s) : s.sample.reset = false := by
  unfold State.sample
  cases hin : s.inputs with
  | nil => rfl
  | cons x xs => exact h.noReset x (by rw [hin]; exact List.mem_cons_self)

/-- No interrupt is taken at it. -/
theorem takesInterrupt (h : HaltLoop s) : s.takesInterrupt s.sample.irq = false := by
  rcases h.noInterrupt with hi | ⟨hk, hwhen⟩
  · simp [State.takesInterrupt, hi]
  · simp [State.takesInterrupt, hk, hwhen]

/-- An offset of zero adds nothing to an address, but where its upper half is free and addresses have bits there. -/
theorem offset_zero (h : HaltLoop s) : (s.immSigned (0 : BitVec 15)).toNat % 2 ^ s.cfg.aw = 0 := by
  have hvalue : ImmValue s 0 (s.immSigned (0 : BitVec 15)) := immSigned_value s (by decide) 0
  obtain ⟨hlow, -, -⟩ := hvalue
  by_cases haw : s.cfg.awExtra = 0
  · have hbits : s.cfg.aw = 32 := by simp [Config.aw, haw]
    have hnat := congrArg BitVec.toNat hlow
    rw [low, BitVec.toNat_setWidth] at hnat
    rw [hbits, hnat]
    rfl
  · have hany : s.cfg.immExt64 ≠ .any := h.upper.resolve_right haw
    have hword : s.immSigned (0 : BitVec 15) = 0 := by
      change s.immUpper 0 = 0
      unfold State.immUpper
      cases s.cfg.extQ
      · rfl
      · cases hm : s.cfg.immExt64
        · rfl
        · rfl
        · exact absurd hm hany
    rw [hword]
    exact Nat.zero_mod _

/-- The jump goes to its own address. -/
theorem target_pc (h : HaltLoop s) : s.target .pc (s.immSigned (0 : BitVec 15)) = s.pc := by
  apply BitVec.eq_of_toNat_eq
  have hpc : (s.readReg .pc).toNat = s.pc.toNat := by
    change s.pcWindow.toNat = _
    rw [State.pcWindow, h.offset]
    exact trim_address h.inv.cfg h.inv.pc
  rw [State.target, wrap_add_toNat, hpc, Nat.add_mod, h.offset_zero, Nat.add_zero, Nat.mod_mod,
    Nat.mod_eq_of_lt h.inv.pc]

/-- So a step only passes the boundary. -/
theorem step_eq (h : HaltLoop s) : step s = .next s.beginStep := by
  rw [step_of_nextInstr h.sample_reset h.takesInterrupt h.ended, exec_jmp, State.jumpTo, h.beginStep.target_pc]

end HaltLoop

/-- Settles O41, by induction on the number of steps: each passes a boundary, which changes none of these fields. -/
theorem haltLoopIsForever : Obligations.HaltLoopIsForever := by
  intro s n hinv hended hoffset hreset hirq hupper
  have hloop : HaltLoop s := ⟨hinv, hended, hoffset, hreset, hirq, hupper⟩
  clear hinv hended hoffset hreset hirq hupper
  induction n generalizing s with
  | zero => exact ⟨s, rfl, rfl, rfl, rfl, rfl, rfl⟩
  | succ n ih =>
    obtain ⟨t, hruns, hsame⟩ := ih s.beginStep hloop.beginStep
    exact ⟨t, ⟨s.beginStep, hloop.step_eq, hruns⟩, hsame⟩

end Sys2Proof.Machine
end
